-- ==== Sys2Proof/Word.lean ====
section
/-! DEFINITION. The words of the Replicant servo core: the widths of 00_scope.md rule R8. -/

namespace Sys2Proof

/-- One command of the command ROM (30_encoding.md R70). -/
abbrev CommandWord := BitVec 64

/-- A data register, an immediate operand or a program counter (00_scope.md R8). -/
abbrev Word16 := BitVec 16

/-- A MAP bound as its field holds it, before sign extension (30_encoding.md R73). -/
abbrev Bound12 := BitVec 12

/-- A pin identifier (00_scope.md R8). -/
abbrev PinId := BitVec 8

/-- One raw analog conversion, 0..1023 (00_scope.md R8). -/
abbrev RawSample := BitVec 10

/-- One byte of a ROM image held outside the block (20_memory.md R52). -/
abbrev Byte := BitVec 8

/-- The levels of the pin outputs, pin `p` in bit `p`. NUM_PINS is at most 256 (00_scope.md R7);
the bits from NUM_PINS up belong to no pin (DESIGN CHOICE, log 10, safe). -/
abbrev PinLevels := BitVec 256

end Sys2Proof
end

