-- ==== Sys2Proof/Config.lean ====
section
/-! DEFINITION. The build-time configuration of the block: the constants the spec fixes and the
parameters it leaves OPEN (00_scope.md rule R7). No command, port or step changes any of them
(10_state.md R30). -/

namespace Sys2Proof.Config

/-- Raw reads of one SAMPLE (R7 `SAMPLE_READS`). -/
def sampleReads : Nat := 11

/-- The divisor of the sum of one SAMPLE (R7 `SAMPLE_DIVISOR`). -/
def sampleDivisor : Nat := 10

/-- The wait after every raw read, in µs (R7 `SAMPLE_SETTLE_US`). -/
def sampleSettleUs : Nat := 1000

/-- The length of one PWM frame, in µs (R7 `REFRESH_US`). -/
def refreshUs : Nat := 20000

/-- The least safe pulse width, in µs (R7 `MIN_PW_US`). -/
def minPwUs : Nat := 535

/-- The greatest safe pulse width, in µs (R7 `MAX_PW_US`). -/
def maxPwUs : Nat := 2350

/-- The neutral pulse width, in µs (R7 `DEFAULT_PW_US`). -/
def defaultPwUs : Nat := 1500

/-- Frames on each pin of an INIT (R7 `INIT_FRAMES`). -/
def initFrames : Nat := 150

/-- The settle delay of an INIT, in µs (R7 `INIT_SETTLE_US`). -/
def initSettleUs : Nat := 2000000

/-- The bounds of the loop's MAP (R7 `LOOP_IN_MIN`, `LOOP_IN_MAX`, `LOOP_OUT_MIN`, `LOOP_OUT_MAX`). -/
def loopInMin : Bound12 := 511
def loopInMax : Bound12 := 1023
def loopOutMin : Bound12 := 0
def loopOutMax : Bound12 := 180

/-- The greatest ROM_DEPTH (R7, 92_eei_decisions.md D28). -/
def maxRomDepth : Nat := 65535

/-- The greatest NUM_PINS (R7, D21). -/
def maxPins : Nat := 256

/-- The parameters R7 marks OPEN, but for the ROM, which State holds beside this record. -/
structure Build where
  /-- `NUM_PINS`. -/
  numPins : Nat
  /-- `PIN_CONTROL_MIN`. -/
  pinControlMin : PinId
  /-- `PIN_RANGE_END`, the operand of the default ROM's INIT. -/
  pinRangeEnd : PinId
  /-- `SERVO_PIN`, the pin of the default ROM's EMIT. -/
  servoPin : PinId
  /-- `ADC_CHANNEL`. -/
  adcChannel : BitVec 8
  /-- `CLK_HZ`. -/
  clkHz : Nat
  /-- `DISPATCH_CYCLES`. -/
  dispatchCycles : Nat
  deriving DecidableEq, Repr

/-- Clock ticks in one µs (R7 `TICKS_PER_US`). -/
def Build.ticksPerUs (b : Build) : Nat := b.clkHz / 1000000

/-- The ticks of a wait of `us` µs (20_memory.md R57). -/
def Build.ticks (b : Build) (us : Nat) : Nat := us * b.ticksPerUs

/-- The board on which the machine of `State.reset` stands: the conventions of
95_test_vectors.md section 0 (DESIGN CHOICE, log 2, unsafe: statements range over every build). -/
def Build.vectors : Build where
  numPins := 16
  pinControlMin := 9
  pinRangeEnd := 9
  servoPin := 9
  adcChannel := 0
  clkHz := 1000000
  dispatchCycles := 0

end Sys2Proof.Config
end

