-- ==== Sys2Proof/Syntax.lean ====
section
/-! DEFINITION. The commands of the block, one constructor per row of spec/opcode_table.json
(30_encoding.md R79), and the assembler's commands, whose operands are still plain numbers
(30_encoding.md R83, R84). -/

namespace Sys2Proof

/-- A command with its operands as the fields of its word hold them. Every term is the command of
exactly one legal word (R81), so no further check is needed on an `Instr`. -/
inductive Instr where
  /-- SAMPLE: one averaged analog sample (40_sampler.md R100). -/
  | sample
  /-- MAP in_min, in_max, out_min, out_max (41_mapper.md R120). -/
  | map (inMin inMax outMin outMax : Bound12)
  /-- EMIT pin, A: one PWM frame, the angle from register A (42_pulse.md R140, src 0). -/
  | emitA (pin : PinId)
  /-- EMIT pin, #imm: one PWM frame, the angle from the word (42_pulse.md R140, src 1). -/
  | emitImm (pin : PinId) (imm : Word16)
  /-- INIT end: the servo-initialisation sequence (43_init.md R160). -/
  | init (endPin : PinId)
  /-- LDS #imm: load S (40_sampler.md R103). -/
  | lds (imm : Word16)
  /-- JMP target (44_sequencer.md R183). -/
  | jmp (target : Word16)
  /-- HALT (44_sequencer.md R184). -/
  | halt
  deriving DecidableEq, Repr

/-- The target of an assembler JMP: a number or a label (R83). -/
inductive AsmTarget where
  | index (n : Int)
  | label (name : List Char)
  deriving DecidableEq, Repr

/-- One assembler command, operands of any size (R83), and the pseudo-instruction CYCLE (R84). -/
inductive AsmCmd where
  | sample
  | map (inMin inMax outMin outMax : Int)
  | emitA (pin : Int)
  | emitImm (pin imm : Int)
  | init (endPin : Int)
  | lds (imm : Int)
  | jmp (target : AsmTarget)
  | halt
  | cycle (pin : Int)
  deriving DecidableEq, Repr

/-- One line of an assembler file: the labels it defines, and its command if it has one (R83). -/
structure AsmLine where
  labels : List (List Char)
  cmd : Option AsmCmd
  deriving DecidableEq, Repr

end Sys2Proof
end

