-- ==== Sys2Proof/WellFormed.lean ====
section
/-! DEFINITION. The checks made before the block runs: the assembler's operand ranges
(30_encoding.md R83), the build's parameters (00_scope.md R7, 70_reset_and_hazards.md R233 (1)) and
the order of the commands of a ROM (R233 (2) and (3)). An `Instr` needs none: its fields are exactly
as wide as its word's. -/

namespace Sys2Proof

/-- An operand of a 12-bit signed field (R73, R83). -/
def inBound12 (v : Int) : Bool := decide (-2048 ≤ v ∧ v ≤ 2047)

/-- A 16-bit signed immediate (R74, R76, R83). -/
def inImm16 (v : Int) : Bool := decide (-32768 ≤ v ∧ v ≤ 32767)

/-- An 8-bit pin identifier (R74, R75, R83). -/
def inPin8 (v : Int) : Bool := decide (0 ≤ v ∧ v ≤ 255)

/-- A 16-bit ROM index (R77, R83). -/
def inTarget16 (v : Int) : Bool := decide (0 ≤ v ∧ v ≤ 65535)

/-- A JMP target of the assembler: a label's own value is checked where it is resolved. -/
def AsmTarget.wellFormed : AsmTarget → Bool
  | .index n => inTarget16 n
  | .label _ => true

/-- "An assembler refuses an operand outside its range; it never truncates one" (R83). -/
def AsmCmd.wellFormed : AsmCmd → Bool
  | .sample => true
  | .map a b c d => inBound12 a && inBound12 b && inBound12 c && inBound12 d
  | .emitA p => inPin8 p
  | .emitImm p v => inPin8 p && inImm16 v
  | .init e => inPin8 e
  | .lds v => inImm16 v
  | .jmp t => t.wellFormed
  | .halt => true
  | .cycle p => inPin8 p

/-- The ranges R7 gives the OPEN parameters. -/
def Config.Build.wellFormed (b : Config.Build) : Bool :=
  decide (1 ≤ b.numPins ∧ b.numPins ≤ Config.maxPins ∧ 0 < b.clkHz ∧ b.clkHz % 1000000 = 0)

/-- The pulse widths of R7 are in the order R233 (1) asks for. -/
def pulseWidthsOrdered : Bool :=
  decide (Config.minPwUs ≤ Config.defaultPwUs ∧ Config.defaultPwUs ≤ Config.maxPwUs ∧
    Config.maxPwUs ≤ Config.refreshUs)

/-- The two pins of the default ROM exist (R233 (1), D32). -/
def Config.Build.bootPinsExist (b : Config.Build) : Bool :=
  decide (b.pinRangeEnd.toNat < b.numPins ∧ b.servoPin.toNat < b.numPins)

/-- ROM_DEPTH is in 1..65535 (R7). -/
def romDepthOk (depth : Nat) : Bool := decide (1 ≤ depth ∧ depth ≤ Config.maxRomDepth)

/-- The one path of a program from index 0, followed for `fuel` commands: every EMIT has a MAP
before it and every MAP a SAMPLE or LDS (R233 (2)). JMP is the only control transfer (R183), so a
program has one path; the path ends at a HALT or past the last index (DEDUCED, log 23). -/
def orderedFrom (prog : List Instr) : Nat → Nat → Bool → Bool → Bool
  | 0, _, _, _ => true
  | fuel + 1, i, sampled, mapped =>
    match prog[i]? with
    | none => true
    | some .sample => orderedFrom prog fuel (i + 1) true mapped
    | some (.lds _) => orderedFrom prog fuel (i + 1) true mapped
    | some (.map ..) => sampled && orderedFrom prog fuel (i + 1) sampled true
    | some (.emitA _) => mapped && orderedFrom prog fuel (i + 1) sampled mapped
    | some (.emitImm ..) => mapped && orderedFrom prog fuel (i + 1) sampled mapped
    | some (.init _) => orderedFrom prog fuel (i + 1) sampled mapped
    | some (.jmp t) => orderedFrom prog fuel t.toNat sampled mapped
    | some .halt => true

/-- R233 (2). What has been sampled or mapped only grows along the path, so one pass over the
program's length finds every EMIT and MAP the path reaches too early. -/
def samplesAndMapsFirst (prog : List Instr) : Bool :=
  orderedFrom prog (prog.length + 1) 0 false false

/-- R233 (3), followed as `orderedFrom` follows its path: an INIT before the first SAMPLE. -/
def initFirstFrom (prog : List Instr) : Nat → Nat → Bool
  | 0, _ => true
  | fuel + 1, i =>
    match prog[i]? with
    | none => true
    | some .sample => false
    | some (.init _) => true
    | some (.jmp t) => initFirstFrom prog fuel t.toNat
    | some .halt => true
    | some (.lds _) => initFirstFrom prog fuel (i + 1)
    | some (.map ..) => initFirstFrom prog fuel (i + 1)
    | some (.emitA _) => initFirstFrom prog fuel (i + 1)
    | some (.emitImm ..) => initFirstFrom prog fuel (i + 1)

/-- R233 (3): the servos are centred before the loop reads live data. -/
def initBeforeSample (prog : List Instr) : Bool := initFirstFrom prog (prog.length + 1) 0

/-- The build-time checks of R233 on a board and a program. -/
def bootChecks (b : Config.Build) (prog : List Instr) : Bool :=
  b.wellFormed && pulseWidthsOrdered && b.bootPinsExist && romDepthOk prog.length
    && samplesAndMapsFirst prog && initBeforeSample prog

end Sys2Proof
end

