-- ==== Sys2Proof/Decode.lean ====
section
/-! DEFINITION. The decoder, total on all 2^64 words (30_encoding.md R70 to R82), and after it the
encoder, the match and mask table of R81, the byte order of a ROM image (20_memory.md R52) and the
default ROM (44_sequencer.md R186). -/

namespace Sys2Proof

/-- Why a word is ILLEGAL: the three clauses of R80. The block does not tell them apart, since each
raises ILLEGAL_CMD; the names are the model's (DESIGN CHOICE, log 16, safe). -/
inductive Illegal where
  /-- OP is 0x0 or one of 0x8..0xF (R80 (a)). -/
  | reservedOpcode
  /-- A bit that the format marks 0 is 1 (R80 (b)). -/
  | reservedBits
  /-- EMIT with src = 0 and imm16 ≠ 0 (R80 (c)). -/
  | emitImmediate
  deriving DecidableEq, Repr

/-- The opcode field, bits 63:60 (R71). -/
def opField (w : CommandWord) : BitVec 4 := w.extractLsb' 60 4

/-- The command `i` when the reserved bits are all 0, and the refusal of R80 (b) when not. -/
def whenZero (reservedZero : Bool) (i : Instr) : Except Illegal Instr :=
  if reservedZero then .ok i else .error .reservedBits

/-- Format E (R74): `src`, bit 51, chooses the angle's source. -/
def decodeEmit (w : CommandWord) : Except Illegal Instr :=
  if w.extractLsb' 16 35 ≠ 0 then .error .reservedBits
  else if w.getLsbD 51 then .ok (.emitImm (w.extractLsb' 52 8) (w.extractLsb' 0 16))
  else if w.extractLsb' 0 16 ≠ 0 then .error .emitImmediate
  else .ok (.emitA (w.extractLsb' 52 8))

/-- The command a word spells, or why it is ILLEGAL (R79 to R81). -/
def decode (w : CommandWord) : Except Illegal Instr :=
  match (opField w).toNat with
  | 1 => whenZero (w.extractLsb' 0 60 == 0) .sample
  | 2 => whenZero (w.extractLsb' 0 12 == 0)
      (.map (w.extractLsb' 48 12) (w.extractLsb' 36 12) (w.extractLsb' 24 12) (w.extractLsb' 12 12))
  | 3 => decodeEmit w
  | 4 => whenZero (w.extractLsb' 0 52 == 0) (.init (w.extractLsb' 52 8))
  | 5 => whenZero (w.extractLsb' 16 44 == 0) (.lds (w.extractLsb' 0 16))
  | 6 => whenZero (w.extractLsb' 16 44 == 0) (.jmp (w.extractLsb' 0 16))
  | 7 => whenZero (w.extractLsb' 0 60 == 0) .halt
  | _ => .error .reservedOpcode

/-- The word of a command: formats N, M, E, I, L and J (R72 to R77). -/
def encode : Instr → CommandWord
  | .sample => 0x1#4 ++ 0#60
  | .map inMin inMax outMin outMax => 0x2#4 ++ inMin ++ inMax ++ outMin ++ outMax ++ 0#12
  | .emitA pin => 0x3#4 ++ pin ++ 0#1 ++ 0#35 ++ 0#16
  | .emitImm pin imm => 0x3#4 ++ pin ++ 1#1 ++ 0#35 ++ imm
  | .init endPin => 0x4#4 ++ endPin ++ 0#52
  | .lds imm => 0x5#4 ++ 0#44 ++ imm
  | .jmp target => 0x6#4 ++ 0#44 ++ target
  | .halt => 0x7#4 ++ 0#60

/-- One row of the table of R81: a word is the row's command when `w AND mask = match`. -/
structure OpcodeRow where
  name : String
  pattern : CommandWord
  mask : CommandWord
  deriving DecidableEq, Repr

/-- The table of R81, in its order. -/
def opcodeTable : List OpcodeRow :=
  [ ⟨"SAMPLE", 0x1000000000000000, 0xFFFFFFFFFFFFFFFF⟩,
    ⟨"MAP", 0x2000000000000000, 0xF000000000000FFF⟩,
    ⟨"EMIT_pin__A", 0x3000000000000000, 0xF00FFFFFFFFFFFFF⟩,
    ⟨"EMIT_pin___imm", 0x3008000000000000, 0xF00FFFFFFFFF0000⟩,
    ⟨"INIT", 0x4000000000000000, 0xF00FFFFFFFFFFFFF⟩,
    ⟨"LDS", 0x5000000000000000, 0xFFFFFFFFFFFF0000⟩,
    ⟨"JMP", 0x6000000000000000, 0xFFFFFFFFFFFF0000⟩,
    ⟨"HALT", 0x7000000000000000, 0xFFFFFFFFFFFFFFFF⟩ ]

/-- A word is of a row (R81). -/
def OpcodeRow.admits (r : OpcodeRow) (w : CommandWord) : Bool := w &&& r.mask == r.pattern

/-- The name of a command's row in spec/opcode_table.json. -/
def Instr.mnemonic : Instr → String
  | .sample => "SAMPLE"
  | .map .. => "MAP"
  | .emitA _ => "EMIT_pin__A"
  | .emitImm .. => "EMIT_pin___imm"
  | .init _ => "INIT"
  | .lds _ => "LDS"
  | .jmp _ => "JMP"
  | .halt => "HALT"

/-- The eight bytes of word `i` of a ROM image, least significant first (20_memory.md R52, log 19). -/
def wordBytes (w : CommandWord) : List Byte :=
  (List.range 8).map fun j => w.extractLsb' (8 * j) 8

/-- The words of a ROM image; none where its length is no multiple of eight (R52). -/
def romOfBytes : List Byte → Option (List CommandWord)
  | [] => some []
  | b0 :: b1 :: b2 :: b3 :: b4 :: b5 :: b6 :: b7 :: rest =>
    (romOfBytes rest).map fun ws => (b7 ++ b6 ++ b5 ++ b4 ++ b3 ++ b2 ++ b1 ++ b0) :: ws
  | _ => none

/-- The ROM image of a list of words (R52). -/
def romImage (rom : List CommandWord) : List Byte := rom.flatMap wordBytes

/-- The default ROM's commands (44_sequencer.md R185, R186): INIT once, then sample, map, emit for
ever. -/
def bootProgram (b : Config.Build) : List Instr :=
  [ .init b.pinRangeEnd,
    .sample,
    .map Config.loopInMin Config.loopInMax Config.loopOutMin Config.loopOutMax,
    .emitA b.servoPin,
    .jmp 1 ]

/-- The default ROM (R186). -/
def bootRom (b : Config.Build) : List CommandWord := (bootProgram b).map encode

/-- The command the decoder reads from an instruction whose bits are `w`, bit 0 least significant
(the host's numbering; a command is one 64-bit word, R70). -/
def decodeTableWord (nbits w : Nat) : Option Instr :=
  match decode (BitVec.ofNat 64 (w % 2 ^ nbits)) with
  | .ok i => some i
  | .error _ => none

end Sys2Proof
end

