-- ==== Sys2Proof/Machine/State.lean ====
section
/-! DEFINITION. The state of the block as plain data (10_state.md R20 to R33), the environment's
script beside it, the reasons a step can stop, and the machine right after reset. -/

namespace Sys2Proof.Machine

/-- RUNSTATE (10_state.md R26). A name for each value, numbered at the ports (DESIGN CHOICE, log 22,
safe). -/
inductive RunState where
  /-- Reset input asserted, nothing runs (0). -/
  | reset
  /-- The sequencer fetches and executes (1). -/
  | run
  /-- A HALT completed (2). -/
  | halted
  /-- A fault was raised (3). -/
  | faulted
  deriving DecidableEq, Repr

/-- FAULT_CODE (60_exceptions.md R200). The reserved codes 11 to 15 are never written, so no
constructor stands for them (U19). -/
inductive FaultCode where
  /-- No fault since reset (0). -/
  | none
  /-- The word at pc is ILLEGAL (1). -/
  | illegalCmd
  /-- pc ≥ ROM_DEPTH (2). -/
  | pcRange
  /-- MAP with S_VALID = 0 (3). -/
  | sampleUnset
  /-- MAP with in_min > in_max or out_min > out_max (4). -/
  | mapBounds
  /-- MAP with S = in_min = in_max (5). -/
  | mapDiv0
  /-- EMIT or INIT with a pin at or beyond NUM_PINS (6). -/
  | badPin
  /-- EMIT with BND_VALID = 0 (7). -/
  | boundsUnset
  /-- EMIT with BND_OUT_MAX = BND_OUT_MIN (8). -/
  | emitDiv0
  /-- EMIT with a computed width below 0 (9). -/
  | pwNegative
  /-- EMIT with a computed width above REFRESH_US (10). -/
  | pwOverrun
  deriving DecidableEq, Repr

/-- The current step inside the command (10_state.md R32). -/
inductive Phase where
  /-- No command in execution: dispatch, fetch, or nothing. -/
  | fetch
  /-- SAMPLE has requested a conversion and waits for the answer. -/
  | sampleRead
  /-- SAMPLE's wait after a read. -/
  | sampleSettle
  /-- EMIT's high time. -/
  | emitHigh
  /-- EMIT's low time. -/
  | emitLow
  /-- INIT's settle delay. -/
  | initSettle
  /-- The high time of an INIT frame. -/
  | initHigh
  /-- The low time of an INIT frame. -/
  | initLow
  deriving DecidableEq, Repr

/-- One entry of the timed trace (00_scope.md R13), its time in clock ticks since reset release
(DESIGN CHOICE, log 6, safe). -/
inductive TraceEvent where
  /-- An output pin changed to `level`. -/
  | pin (tick : Nat) (pin : Nat) (level : Bool)
  /-- A conversion was requested on `channel`. -/
  | request (tick : Nat) (channel : BitVec 8)
  deriving DecidableEq, Repr

/-- One answer of the converter: it comes `wait + 1 ≥ 1` ticks after its request (20_memory.md R55). -/
structure AdcAnswer where
  wait : Nat
  value : RawSample
  deriving DecidableEq, Repr

/-- One pulse of the reset input to come (70_reset_and_hazards.md R230): `rst_n` falls at tick
`tick` of the run then going on; `released` says whether it rises again. -/
structure ResetPulse where
  tick : Nat
  released : Bool
  deriving DecidableEq, Repr

/-- The whole state. The fields down to `adcPending` are the spec's (10_state.md R20 and R32, and
`adc_req` of R231); `rom` and `build` are the block's constant configuration; the rest is the
model's own: the environment's script, the dispatch count and the observation of R13. -/
structure State where
  /-- `S`, the sample register (R21). -/
  S : Word16
  /-- `S_VALID` (R21). -/
  sValid : Bool
  /-- `A`, the angle register (R22). -/
  A : Word16
  /-- `W`, the pulse-width register (R23). -/
  W : Word16
  /-- `BND_IN_MIN` (R24). -/
  bndInMin : Word16
  /-- `BND_IN_MAX` (R24). -/
  bndInMax : Word16
  /-- `BND_OUT_MIN` (R24). -/
  bndOutMin : Word16
  /-- `BND_OUT_MAX` (R24). -/
  bndOutMax : Word16
  /-- `BND_VALID` (R24). -/
  bndValid : Bool
  /-- `pc` (R25). -/
  pc : Word16
  /-- `RUNSTATE` (R26). -/
  runState : RunState
  /-- `FAULT_CODE` (R27). -/
  faultCode : FaultCode
  /-- `FAULT_PC` (R27). -/
  faultPc : Word16
  /-- `PW_OOR` (R28). -/
  pwOor : Bool
  /-- `pwm_out` (R31). -/
  pwmOut : PinLevels
  /-- `adc_req` (R34, R231). -/
  adcReq : Bool
  /-- `phase` (R32). -/
  phase : Phase
  /-- `k`, the reads of this SAMPLE whose wait is over (R32). -/
  k : Nat
  /-- `SUM` (R8, R32). -/
  sum : BitVec 14
  /-- `cur_pin` (R32). -/
  curPin : PinId
  /-- `frame`, the frames of the current pin of this INIT that have ended (R32, log 28). -/
  frame : Nat
  /-- `remaining`, ticks left in the current wait (R32, R33). -/
  remaining : Nat
  /-- `adc_pending` (R32). -/
  adcPending : Bool
  /-- The command ROM (20_memory.md R50, R51), a list of words (log 11); its length is ROM_DEPTH. -/
  rom : List CommandWord
  /-- The build's OPEN parameters (00_scope.md R7). -/
  build : Config.Build
  /-- The converter's answers to the reads not answered yet, in order (log 3). -/
  adc : List AdcAnswer
  /-- The pulses of the reset input to come (log 4). -/
  resets : List ResetPulse
  /-- `rst_n` is high at the next clock edge (log 5). -/
  rstN : Bool
  /-- Ticks of the dispatch before the next command that have passed (44_sequencer.md R181, log 7). -/
  dispatched : Nat
  /-- Clock ticks since reset release (R33, log 6). -/
  now : Nat
  /-- The timed trace since reset release, newest entry first (R13, log 6). -/
  trace : List TraceEvent
  deriving DecidableEq, Repr

/-- Why the step stops with no next state. The block's own faults are no such stop: entering one is
a next state (60_exceptions.md R202). -/
inductive Fault where
  /-- Raised by `step` only, when `phase` is no phase of the command at pc, which no run of the
  block reaches (10_state.md R32 gives each phase to one command): safe (log 9). -/
  | phaseMismatch
  deriving DecidableEq, Repr

/-- Why an instruction has no meaning. The block has no refusal (00_scope.md R12). -/
inductive Refusal where
  /-- Would be raised by `exec` for an instruction without a meaning: every instruction has one, so
  nothing raises it: safe. -/
  | notModelled (mnemonic : String)
  deriving DecidableEq, Repr

/-- While reset is asserted every piece of state holds its reset value (70_reset_and_hazards.md
R231), whatever the ROM, the board and the environment's script are. `rstN` true: the next clock
edge releases it (R232). -/
def State.resetWith (rom : List CommandWord) (build : Config.Build) (adc : List AdcAnswer)
    (resets : List ResetPulse) : State where
  S := 0
  sValid := false
  A := 0
  W := 0
  bndInMin := 0
  bndInMax := 0
  bndOutMin := 0
  bndOutMax := 0
  bndValid := false
  pc := 0
  runState := .reset
  faultCode := .none
  faultPc := 0
  pwOor := false
  pwmOut := 0
  adcReq := false
  phase := .fetch
  k := 0
  sum := 0
  curPin := 0
  frame := 0
  remaining := 0
  adcPending := false
  rom := rom
  build := build
  adc := adc
  resets := resets
  rstN := true
  dispatched := 0
  now := 0
  trace := []

/-- The machine right after reset: the default ROM (44_sequencer.md R186) on the board of the test
vectors (log 2), in an environment that promises no converter answer and no further reset (logs 3
and 4). -/
def State.reset : State :=
  State.resetWith (bootRom Config.Build.vectors) Config.Build.vectors [] []

end Sys2Proof.Machine
end

