-- ==== Sys2Proof/Machine/Operands.lean ====
section
/-! DEFINITION. Operand assembly (30_encoding.md R78) and the arithmetic of the two mapping units
(00_scope.md R10): exact on integers, one truncation toward zero (`Int.tdiv`). -/

namespace Sys2Proof.Machine

/-- A MAP bound: `sext_16` of its 12-bit field (R78). -/
def boundOperand (field : Bound12) : Word16 := field.signExtend 16

/-- A pin or end operand: `zext_16` of its 8-bit field, as a number (R78). -/
def pinOperand (field : PinId) : Nat := field.toNat

/-- A 16-bit immediate, read as two's complement (R78). -/
def immOperand (field : Word16) : Int := field.toInt

/-- The ROM index of a JMP (R78). -/
def targetOperand (field : Word16) : Word16 := field

/-- The value of SAMPLE: the sum of the reads divided by SAMPLE_DIVISOR, truncated (40_sampler.md
R100). -/
def sampleAverage (sum : BitVec 14) : Word16 :=
  BitVec.ofNat 16 (sum.toNat / Config.sampleDivisor)

/-- The value of MAP between its bounds (41_mapper.md R120, the last branch): with the input span
the larger, both spans grow by one. -/
def interpolate (v inMin inMax outMin outMax : Int) : Int :=
  let inSpan := inMax - inMin
  let outSpan := outMax - outMin
  if outSpan < inSpan then outMin + Int.tdiv ((v - inMin) * (outSpan + 1)) (inSpan + 1)
  else outMin + Int.tdiv ((v - inMin) * outSpan) inSpan

/-- The value of a MAP that does not fault (R120): clamp below, clamp above, or interpolate. -/
def mapValue (v inMin inMax outMin outMax : Int) : Int :=
  if v < inMin then outMin
  else if inMax < v then outMax
  else interpolate v inMin inMax outMin outMax

/-- The pulse width of an EMIT in µs (42_pulse.md R140), unclamped. -/
def pulseWidth (angle amin amax : Int) : Int :=
  Config.minPwUs
    + Int.tdiv ((angle - amin) * ((Config.maxPwUs : Int) - Config.minPwUs)) (amax - amin)

end Sys2Proof.Machine
end

