-- ==== Sys2Proof/Machine/Flags.lean ====
section
/-! DEFINITION. The three flag bits (10_state.md R29) and the checks the commands make before any
effect, each in the order of 60_exceptions.md R203. -/

namespace Sys2Proof.Machine

/-- SAMPLE and LDS set S_VALID, whatever it was (R21). -/
def sValidAfterLoad : Bool := true

/-- A MAP that does not fault sets BND_VALID (R24). -/
def bndValidAfterMap : Bool := true

/-- The width lies outside MIN_PW_US..MAX_PW_US (R28). -/
def outsideSafeRange (w : Int) : Bool :=
  decide (w < Config.minPwUs ∨ (Config.maxPwUs : Int) < w)

/-- PW_OOR after an EMIT of width `w`: sticky (R28). -/
def pwOorAfter (old : Bool) (w : Int) : Bool := old || outsideSafeRange w

/-- The fault of a MAP, if it has one (41_mapper.md R120). -/
def mapFault (s : State) (inMin inMax outMin outMax : Int) : Option FaultCode :=
  if s.sValid = false then some .sampleUnset
  else if inMax < inMin ∨ outMax < outMin then some .mapBounds
  else if inMin ≤ s.S.toInt ∧ s.S.toInt ≤ inMax ∧ inMax - inMin ≤ outMax - outMin
      ∧ inMax - inMin = 0 then some .mapDiv0
  else none

/-- The fault of an EMIT of `angle` on `pin`, if it has one (42_pulse.md R140). -/
def emitFault (s : State) (pin : Nat) (angle : Int) : Option FaultCode :=
  if s.build.numPins ≤ pin then some .badPin
  else if s.bndValid = false then some .boundsUnset
  else if s.bndOutMax = s.bndOutMin then some .emitDiv0
  else if pulseWidth angle s.bndOutMin.toInt s.bndOutMax.toInt < 0 then some .pwNegative
  else if (Config.refreshUs : Int) < pulseWidth angle s.bndOutMin.toInt s.bndOutMax.toInt then
    some .pwOverrun
  else none

/-- The fault of an INIT to `endPin`, if it has one (43_init.md R160). -/
def initFault (s : State) (endPin : Nat) : Option FaultCode :=
  if s.build.numPins ≤ endPin then some .badPin else none

end Sys2Proof.Machine
end

