-- ==== Sys2Proof/Machine/Ops.lean ====
section
/-! DEFINITION. The named operations every command is made of (00_scope.md R11): RomRead, PinWrite,
Wait, AdcRead's request, the end of a command, taking a fault, and reset. -/

namespace Sys2Proof.Machine

/-- `RomRead(i)` (20_memory.md R51); none past the last index. -/
def romRead (rom : List CommandWord) (i : Word16) : Option CommandWord := rom[i.toNat]?

/-- The bit of pin `p` in the output vector. -/
def pinBit (p : Nat) : PinLevels := 1#256 <<< p

/-- The level of one pin (10_state.md R31). -/
def State.pinLevel (s : State) (p : Nat) : Bool := s.pwmOut.getLsbD p

/-- `PinWrite(p, lvl)` (20_memory.md R56): no time passes, and the trace takes an entry only when
the level changes. -/
def pinWrite (p : Nat) (lvl : Bool) (s : State) : State :=
  { s with
    pwmOut := if lvl then s.pwmOut ||| pinBit p else s.pwmOut &&& ~~~(pinBit p)
    trace := if s.pwmOut.getLsbD p = lvl then s.trace else .pin s.now p lvl :: s.trace }

/-- The pins that are high, in ascending order. -/
def highPins (levels : PinLevels) : List Nat := (List.range 256).filter fun p => levels.getLsbD p

/-- The trace after every pin is driven low at once: one falling edge for each pin that was high
(fault entry R202, reset R238). -/
def dropEdges (s : State) : List TraceEvent :=
  (highPins s.pwmOut).reverse.map (fun p => .pin s.now p false) ++ s.trace

/-- `n` ticks pass. `adc_req` is high on its one tick only (R55). -/
def elapse (n : Nat) (s : State) : State :=
  { s with
    now := s.now + n
    adcReq := s.adcReq && decide (n = 0) }

/-- `Wait(us)` begins: `remaining` is loaded (20_memory.md R57) and `phase` says which wait it is. -/
def beginWait (ph : Phase) (us : Nat) (s : State) : State :=
  { s with
    phase := ph
    remaining := s.build.ticks us }

/-- `AdcRead()` issues its request (20_memory.md R55); the request is in the trace (R13). -/
def adcRequest (s : State) : State :=
  { s with
    phase := .sampleRead
    adcReq := true
    adcPending := true
    trace := .request s.now s.build.adcChannel :: s.trace }

/-- `AdcRead()` is answered with `r`: `SUM <- SUM + r`, then the wait after the read begins
(40_sampler.md R100). -/
def adcAnswered (r : RawSample) (s : State) : State :=
  { s with
    adcPending := false
    sum := s.sum + r.setWidth 14
    phase := .sampleSettle
    remaining := s.build.ticks Config.sampleSettleUs }

/-- A command ends with `pc <- pc + 1` and the next dispatch begins (44_sequencer.md R181, R182; log 17
on pc = 65535). -/
def complete (s : State) : State :=
  { s with
    pc := s.pc + 1
    phase := .fetch
    remaining := 0
    dispatched := 0 }

/-- TAKING A FAULT (60_exceptions.md R202): the run state, the fault record, every pin low and the
hidden state cleared; every register, flag and the pc keep their values. There is no return from it
(R204): the way out is reset. `adc_req`, which R202 does not name, is 0 then anyway (DEDUCED, log 14,
safe). -/
def faultEntry (code : FaultCode) (s : State) : State :=
  { s with
    runState := .faulted
    faultCode := code
    faultPc := s.pc
    pwmOut := 0
    trace := dropEdges s
    phase := .fetch
    k := 0
    sum := 0
    curPin := 0
    frame := 0
    remaining := 0
    adcPending := false }

/-- The reset action (70_reset_and_hazards.md R231), taken at the present tick: the pins that were
high fall now (R238). The ROM, the board and the environment's script are not the block's to
reset; the time and the trace of the run that ends here stand until the release. -/
def resetAction (s : State) : State :=
  { State.resetWith s.rom s.build s.adc s.resets with
    rstN := s.rstN
    now := s.now
    trace := dropEdges s }

/-- Reset release (R232): RUNSTATE becomes RUN, and this tick is time 0 of a new run's trace. -/
def resetRelease (s : State) : State :=
  { s with
    runState := .run
    dispatched := 0
    now := 0
    trace := [] }

/-- The reset input falls by tick `t`. A fall on the very tick of another event comes first: reset
takes precedence over everything (60_exceptions.md R203; DEDUCED, log 15, unsafe). -/
def State.resetBy (s : State) (t : Nat) : Bool :=
  match s.resets with
  | [] => false
  | r :: _ => decide (r.tick ≤ t)

/-- The next pulse of the script arrives: time runs to it, the reset action is taken, and the answer
to a conversion it abandons is lost (R231, log 13). With no pulse to come nothing happens. -/
def takeReset (s : State) : State :=
  match s.resets with
  | [] => s
  | r :: rest =>
    { resetAction { s with now := max s.now r.tick } with
      resets := rest
      rstN := r.released
      adc := if s.adcPending then s.adc.tail else s.adc }

end Sys2Proof.Machine
end

