-- ==== Sys2Proof/Machine/Continue.lean ====
section
/-! DEFINITION. The command in execution between its waits: what the sequencer does when the wait of
each phase of 10_state.md rule R32 is over, and how a command runs on to its end. The steps of
SAMPLE, EMIT and INIT are those of 40_sampler.md R100, 42_pulse.md R140 and 43_init.md R160, with the
loop counters of R32. `step` jumps from one of these instants to the next (`advance`); the clocked
machine of Machine/Tick.lean reaches the same instants one tick at a time. -/

namespace Sys2Proof.Machine

/-- The wait after a SAMPLE read is over (R100): the next read, or the averaged result. -/
def sampleSettled (s : State) : State :=
  if s.k + 1 < Config.sampleReads then adcRequest { s with k := s.k + 1 }
  else
    complete
      { s with
        k := s.k + 1
        S := sampleAverage s.sum
        sValid := sValidAfterLoad }

/-- EMIT's high time is over (R140): the pin falls and the low time begins; a low time of 0 takes no
time (R57), so the command ends at once. The width is taken back from register W (DESIGN CHOICE, log 27,
safe). -/
def emitFall (pin : PinId) (s : State) : State :=
  let low := Config.refreshUs - s.W.toNat
  if s.build.ticks low = 0 then complete (pinWrite (pinOperand pin) false s)
  else beginWait .emitLow low (pinWrite (pinOperand pin) false s)

/-- An INIT frame begins: the current pin rises for the neutral width (R160). -/
def initRise (s : State) : State :=
  beginWait .initHigh Config.defaultPwUs (pinWrite (pinOperand s.curPin) true s)

/-- INIT's settle delay is over (R160): the first frame of the first pin, or nothing when the range
is empty. `cur_pin` and `frame` are set here, not before the delay (DESIGN CHOICE, log 28, unsafe). -/
def initSettled (endPin : PinId) (s : State) : State :=
  if pinOperand endPin < pinOperand s.build.pinControlMin then complete s
  else initRise { s with curPin := s.build.pinControlMin, frame := 0 }

/-- The high time of an INIT frame is over (R160). -/
def initFall (s : State) : State :=
  beginWait .initLow (Config.refreshUs - Config.defaultPwUs) (pinWrite (pinOperand s.curPin) false s)

/-- The low time of an INIT frame is over (R160): the next frame of this pin, the first frame of the
next pin, or the end. `frame` counts the frames of the present pin that have ended (DESIGN CHOICE, log
28, unsafe). -/
def initFrameEnd (endPin : PinId) (s : State) : State :=
  if s.frame + 1 < Config.initFrames then initRise { s with frame := s.frame + 1 }
  else if pinOperand s.curPin < pinOperand endPin then
    initRise { s with curPin := s.curPin + 1, frame := 0 }
  else complete { s with frame := s.frame + 1 }

/-- What the sequencer does on the tick at which the wait of the present phase ends. `operand` is the
pin or end field of the command at pc. -/
def waitEnded (operand : PinId) (s : State) : State :=
  match s.phase with
  | .fetch => s
  | .sampleRead => s
  | .sampleSettle => sampleSettled s
  | .emitHigh => emitFall operand s
  | .emitLow => complete s
  | .initSettle => initSettled operand s
  | .initHigh => initFall s
  | .initLow => initFrameEnd operand s

/-- Run to tick `t` and do `act` there, unless the reset input falls by then (R203, R230). -/
def runTo (t : Nat) (act : State → State) (s : State) : State :=
  if s.resetBy t then takeReset s else act (elapse (t - s.now) s)

/-- Run to the next instant at which the command does something: the end of its wait, the
converter's answer, or a reset. None when no command is in execution, and when the converter has no
answer to give and no reset comes (60_exceptions.md R212): the time then stands still (DESIGN CHOICE,
log 25, safe). -/
def advance (operand : PinId) (s : State) : Option State :=
  match s.runState, s.phase with
  | .run, .fetch => none
  | .run, .sampleRead =>
    match s.adc with
    | a :: rest =>
      some (runTo (s.now + (a.wait + 1)) (fun t => adcAnswered a.value { t with adc := rest }) s)
    | [] => if s.resets.isEmpty then none else some (takeReset s)
  | .run, _ =>
    some (runTo (s.now + s.remaining) (fun t => waitEnded operand { t with remaining := 0 }) s)
  | _, _ => none

/-- A command in execution runs on: to its end, to a fault or a reset, or to a read that has no
answer. `fuel` bounds the waits. -/
def runOn (operand : PinId) : Nat → State → State
  | 0, s => s
  | fuel + 1, s =>
    match advance operand s with
    | none => s
    | some s' => runOn operand fuel s'

/-- No command waits more often than an INIT of 256 pins: its settle delay and two waits a frame. -/
def maxWaits : Nat := 1 + 2 * Config.initFrames * Config.maxPins

/-- The command in execution runs on as far as it can (00_scope.md R12). -/
def finish (operand : PinId) (s : State) : State := runOn operand maxWaits s

/-- The pin or end operand a command uses in a phase (0 in SAMPLE's, which use none), when the phase
is one of that command's (10_state.md R32). -/
def phaseOperand : Phase → Instr → Option PinId
  | .sampleRead, .sample => some 0
  | .sampleSettle, .sample => some 0
  | .emitHigh, .emitA pin => some pin
  | .emitHigh, .emitImm pin _ => some pin
  | .emitLow, .emitA pin => some pin
  | .emitLow, .emitImm pin _ => some pin
  | .initSettle, .init endPin => some endPin
  | .initHigh, .init endPin => some endPin
  | .initLow, .init endPin => some endPin
  | _, _ => none

/-- The command whose word stands at pc, which pc names for the whole of the command (10_state.md
R25); none past the ROM and on an ILLEGAL word. -/
def commandAtPc (s : State) : Option Instr :=
  match romRead s.rom s.pc with
  | none => none
  | some w =>
    match decode w with
    | .ok i => some i
    | .error _ => none

/-- The operand of the command in execution. None on hidden state the block cannot be in (log 9). -/
def operandInPhase (s : State) : Option PinId := (commandAtPc s).bind (phaseOperand s.phase)

end Sys2Proof.Machine
end

