-- ==== Sys2Proof/Machine/Initializer.lean ====
section
/-! DEFINITION. The servo-initialisation sequencer: INIT (43_init.md R160 to R162). -/

namespace Sys2Proof.Machine

/-- INIT's first action (R160): its check, then the settle delay. -/
def beginInit (endPin : PinId) (s : State) : State :=
  match initFault s (pinOperand endPin) with
  | some code => faultEntry code s
  | none => beginWait .initSettle Config.initSettleUs s

/-- INIT (R160): 2 s of settling, then 150 frames at the neutral width on every pin of the range,
in ascending order. -/
def execInit (endPin : PinId) (s : State) : Host.Outcome State Fault Refusal :=
  .next (finish endPin (beginInit endPin s))

end Sys2Proof.Machine
end

