-- ==== Sys2Proof/Machine/Mapper.lean ====
section
/-! DEFINITION. The linear range mapper with clamping: MAP (41_mapper.md R120 to R127). -/

namespace Sys2Proof.Machine

/-- MAP writes its result and its four bounds at once (R120, R121). -/
def storeMapping (inMin inMax outMin outMax : Word16) (s : State) : State :=
  { s with
    A := BitVec.ofInt 16
      (mapValue s.S.toInt inMin.toInt inMax.toInt outMin.toInt outMax.toInt)
    bndInMin := inMin
    bndInMax := inMax
    bndOutMin := outMin
    bndOutMax := outMax
    bndValid := bndValidAfterMap }

/-- MAP's only action (R120): its checks, then its writes. -/
def beginMap (inMin inMax outMin outMax : Bound12) (s : State) : State :=
  let a := boundOperand inMin
  let b := boundOperand inMax
  let c := boundOperand outMin
  let d := boundOperand outMax
  match mapFault s a.toInt b.toInt c.toInt d.toInt with
  | some code => faultEntry code s
  | none => complete (storeMapping a b c d s)

/-- MAP (R120): no wait; a faulting MAP writes nothing but the fault entry. -/
def execMap (inMin inMax outMin outMax : Bound12) (s : State) : Host.Outcome State Fault Refusal :=
  .next (beginMap inMin inMax outMin outMax s)

end Sys2Proof.Machine
end

