-- ==== Sys2Proof/Machine/Pulse.lean ====
section
/-! DEFINITION. The PWM pulse-width generator: EMIT in both forms (42_pulse.md R140 to R146). -/

namespace Sys2Proof.Machine

/-- W and PW_OOR of an EMIT of width `w`, written before the pin rises (R140). -/
def storeWidth (w : Int) (s : State) : State :=
  { s with
    W := BitVec.ofInt 16 w
    pwOor := pwOorAfter s.pwOor w }

/-- The frame begins (R140): the pin rises for `w` µs; with `w = 0` it is not driven high and the low
time begins at once (R144). The width is taken back from register W (DESIGN CHOICE, log 27, safe). -/
def emitRise (pin : PinId) (s : State) : State :=
  if s.build.ticks s.W.toNat = 0 then emitFall pin s
  else beginWait .emitHigh s.W.toNat (pinWrite (pinOperand pin) true s)

/-- EMIT's first action with the angle `angle` (R140): its checks, then the width, then the frame. -/
def beginEmit (pin : PinId) (angle : Int) (s : State) : State :=
  match emitFault s (pinOperand pin) angle with
  | some code => faultEntry code s
  | none => emitRise pin (storeWidth (pulseWidth angle s.bndOutMin.toInt s.bndOutMax.toInt) s)

/-- EMIT pin, A (R140, src 0): one frame of 20000 µs, the angle from register A. -/
def execEmitA (pin : PinId) (s : State) : Host.Outcome State Fault Refusal :=
  .next (finish pin (beginEmit pin s.A.toInt s))

/-- EMIT pin, #imm (R140, src 1): one frame of 20000 µs, the angle from the word. -/
def execEmitImm (pin : PinId) (imm : Word16) (s : State) : Host.Outcome State Fault Refusal :=
  .next (finish pin (beginEmit pin (immOperand imm) s))

end Sys2Proof.Machine
end

