-- ==== Sys2Proof/Machine/Sampler.lean ====
section
/-! DEFINITION. The analog sampler: SAMPLE and LDS (40_sampler.md R100 to R103). -/

namespace Sys2Proof.Machine

/-- SAMPLE's first action (R100): clear the sum and issue the first read. -/
def beginSample (s : State) : State := adcRequest { s with sum := 0, k := 0 }

/-- SAMPLE (R100): eleven reads, each followed by 1 ms of settling, then S and S_VALID. It has no
fault; a read that is never answered waits (R212). -/
def execSample (s : State) : Host.Outcome State Fault Refusal :=
  .next (finish 0 (beginSample s))

/-- LDS's only action (R103). -/
def beginLds (imm : Word16) (s : State) : State :=
  complete { s with S := BitVec.ofInt 16 (immOperand imm), sValid := sValidAfterLoad }

/-- LDS (R103): S and S_VALID, no wait, no fault. -/
def execLds (imm : Word16) (s : State) : Host.Outcome State Fault Refusal :=
  .next (beginLds imm s)

end Sys2Proof.Machine
end

