-- ==== Sys2Proof/Machine/Sequencer.lean ====
section
/-! DEFINITION. The command sequencer: JMP and HALT (44_sequencer.md R183, R184), and the fetch
(R180). -/

namespace Sys2Proof.Machine

/-- JMP's only action (R183): the target is not checked here, but by the next fetch. -/
def beginJmp (target : Word16) (s : State) : State :=
  { s with
    pc := targetOperand target
    phase := .fetch
    remaining := 0
    dispatched := 0 }

/-- JMP (R183): `pc <- target`. -/
def execJmp (target : Word16) (s : State) : Host.Outcome State Fault Refusal :=
  .next (beginJmp target s)

/-- HALT's only action (R184): the pc keeps the HALT's index. -/
def beginHalt (s : State) : State :=
  { s with
    runState := .halted
    phase := .fetch
    remaining := 0
    dispatched := 0 }

/-- HALT (R184): `RUNSTATE <- HALTED`. -/
def execHalt (s : State) : Host.Outcome State Fault Refusal := .next (beginHalt s)

/-- What the fetch at pc gives (R180): a command, or the fault it raises. -/
def fetch (s : State) : Except FaultCode Instr :=
  match romRead s.rom s.pc with
  | none => .error .pcRange
  | some w =>
    match decode w with
    | .ok i => .ok i
    | .error _ => .error .illegalCmd

/-- The tick at which the dispatch now going on ends (R181). -/
def State.dispatchEnd (s : State) : Nat := s.now + (s.build.dispatchCycles - s.dispatched)

/-- The dispatch is over: its ticks have passed, the command's first action is due (R181). -/
def dispatchDone (s : State) : State :=
  { elapse (s.build.dispatchCycles - s.dispatched) s with dispatched := 0 }

end Sys2Proof.Machine
end

