-- ==== Sys2Proof/Machine/Dispatch.lean ====
section
/-! DEFINITION. Each command's meaning (44_sequencer.md R180). -/

namespace Sys2Proof.Machine

def exec (i : Instr) (s : State) : Host.Outcome State Fault Refusal :=
  match i with
  | .sample => Sys2Proof.Machine.execSample s
  | .map inMin inMax outMin outMax => Sys2Proof.Machine.execMap inMin inMax outMin outMax s
  | .emitA pin => Sys2Proof.Machine.execEmitA pin s
  | .emitImm pin imm => Sys2Proof.Machine.execEmitImm pin imm s
  | .init endPin => Sys2Proof.Machine.execInit endPin s
  | .lds imm => Sys2Proof.Machine.execLds imm s
  | .jmp target => Sys2Proof.Machine.execJmp target s
  | .halt => Sys2Proof.Machine.execHalt s

end Sys2Proof.Machine
end

