-- ==== Sys2Proof/Machine/Step.lean ====
section
/-! DEFINITION. One step of the sequencer (00_scope.md R12, 44_sequencer.md R180): it releases the
reset, dispatches and executes one command, resumes a command that waited for the converter, or
does nothing until reset. -/

namespace Sys2Proof.Machine

/-- The fetch and the command at pc, on the tick of its first action (R180). -/
def fetchAndExec (s : State) : Host.Outcome State Fault Refusal :=
  match fetch s with
  | .error code => .next (faultEntry code s)
  | .ok i => exec i s

/-- A step in RUN: dispatch and execute (R180, R181), or resume the command in execution (R12 (c)).
A reset that arrives by the end of the dispatch comes first (R203). With DISPATCH_CYCLES = 0 a loop of
commands that take no time never reaches the tick of a later reset of the script (DESIGN CHOICE, log
26, unsafe). -/
def stepRun (s : State) : Host.Outcome State Fault Refusal :=
  match s.phase with
  | .fetch =>
    if s.resetBy s.dispatchEnd then .next (takeReset s) else fetchAndExec (dispatchDone s)
  | _ =>
    match operandInPhase s with
    | some operand => .next (finish operand s)
    | none => .fault .phaseMismatch

/-- One step. RESET holds while `rst_n` is low and ends at the first clock edge with it high (R230,
R232); HALTED and FAULTED are left only by reset (10_state.md R26; DEDUCED, log 20, safe). One step is
one command, its waits jumped over (R12; DEDUCED, log 1, safe). -/
def step (s : State) : Host.Outcome State Fault Refusal :=
  match s.runState with
  | .reset => .next (if s.rstN then resetRelease s else s)
  | .run => stepRun s
  | .halted => .next (takeReset s)
  | .faulted => .next (takeReset s)

/-- The ROM with the word at index `i` replaced, filled up with zero words where it ends before
`i`. -/
def romWith (rom : List CommandWord) (i : Nat) (w : CommandWord) : List CommandWord :=
  if i < rom.length then rom.set i w else rom ++ List.replicate (i - rom.length) 0 ++ [w]

/-- `s` with the word `w` at the ROM index the next step fetches, and in RUN with no command in
execution and no reset to come, so that the very next step runs it (log 21). -/
def State.withFetchWord (s : State) (nbits w : Nat) : State :=
  { s with
    rom := romWith s.rom s.pc.toNat (BitVec.ofNat 64 (w % 2 ^ nbits))
    runState := .run
    phase := .fetch
    resets := [] }

end Sys2Proof.Machine
end

