-- ==== Sys2Proof/Machine/Assembler.lean ====
section
/-! DEFINITION. The assembler of 30_encoding.md rules R83 and R84: one command a line, `;` comments,
labels, decimal and hexadecimal numbers, and the pseudo-instruction CYCLE. What R83 leaves to the
reader (white space, the letters of a label, two labels of one name) is the model's (DESIGN CHOICE,
log 18). It is no part of the block. -/

namespace Sys2Proof.Machine

/-- One token of a line. -/
inductive AsmToken where
  | word (w : List Char)
  | comma
  | hash
  | colon
  deriving DecidableEq, Repr

/-- The token a word read so far makes, if it has a letter. -/
def endWord (acc : List Char) : List AsmToken :=
  if acc.isEmpty then [] else [.word acc.reverse]

/-- White space between tokens. -/
def isBlank (c : Char) : Bool := c == ' ' || c == '\t' || c == '\r'

/-- The tokens of a line, the comment dropped (R83: `;` starts a comment). -/
def tokens : List Char → List Char → List AsmToken
  | [], acc => endWord acc
  | c :: cs, acc =>
    if c == ';' then endWord acc
    else if isBlank c then endWord acc ++ tokens cs []
    else if c == ',' then endWord acc ++ .comma :: tokens cs []
    else if c == '#' then endWord acc ++ .hash :: tokens cs []
    else if c == ':' then endWord acc ++ .colon :: tokens cs []
    else tokens cs (c :: acc)

/-- The value of a digit in a base up to 16. `_`, which groups digits in the spec's own literals (00_scope.md
R9), is none: R83 does not name it (DESIGN CHOICE, log 18, safe). -/
def digitValue (base : Nat) (c : Char) : Option Nat :=
  let v :=
    if '0'.toNat ≤ c.toNat ∧ c.toNat ≤ '9'.toNat then some (c.toNat - '0'.toNat)
    else if 'a'.toNat ≤ c.toNat ∧ c.toNat ≤ 'f'.toNat then some (c.toNat - 'a'.toNat + 10)
    else if 'A'.toNat ≤ c.toNat ∧ c.toNat ≤ 'F'.toNat then some (c.toNat - 'A'.toNat + 10)
    else none
  v.bind fun d => if d < base then some d else none

/-- The value of a run of digits after those read so far. -/
def digitsFrom (base : Nat) : List Char → Nat → Option Nat
  | [], n => some n
  | c :: cs, n => (digitValue base c).bind fun d => digitsFrom base cs (n * base + d)

/-- A number without a sign: decimal, or hexadecimal after 0x (R83). -/
def unsignedNumber : List Char → Option Nat
  | [] => none
  | ['0', 'x'] => none
  | '0' :: 'x' :: cs => digitsFrom 16 cs 0
  | cs => digitsFrom 10 cs 0

/-- A number of R83: decimal, optionally signed, or hexadecimal. -/
def number : List Char → Option Int
  | '-' :: '0' :: 'x' :: _ => none
  | '−' :: '0' :: 'x' :: _ => none
  | '+' :: '0' :: 'x' :: _ => none
  | '-' :: cs => (unsignedNumber cs).map fun n => -(n : Int)
  | '−' :: cs => (unsignedNumber cs).map fun n => -(n : Int)
  | '+' :: cs => (unsignedNumber cs).map fun n => (n : Int)
  | cs => (unsignedNumber cs).map fun n => (n : Int)

/-- A character a label may begin with. -/
def isNameStart (c : Char) : Bool := c.isAlpha || c == '_'

/-- A label's name: a letter or underscore, then letters, digits and underscores. -/
def isName : List Char → Bool
  | [] => false
  | c :: cs => isNameStart c && cs.all fun d => isNameStart d || d.isDigit

/-- The target of a JMP: a number or a label (R83). -/
def jmpTarget (w : List Char) : Option AsmTarget :=
  match number w with
  | some n => some (.index n)
  | none => if isName w then some (.label w) else none

/-- The command of a line's tokens (R83 and R84). -/
def command : List AsmToken → Option AsmCmd
  | [.word ['S', 'A', 'M', 'P', 'L', 'E']] => some .sample
  | [.word ['M', 'A', 'P'], .word a, .comma, .word b, .comma, .word c, .comma, .word d] => do
    some (.map (← number a) (← number b) (← number c) (← number d))
  | [.word ['E', 'M', 'I', 'T'], .word p, .comma, .word ['A']] => (number p).map .emitA
  | [.word ['E', 'M', 'I', 'T'], .word p, .comma, .hash, .word v] => do
    some (.emitImm (← number p) (← number v))
  | [.word ['I', 'N', 'I', 'T'], .word e] => (number e).map .init
  | [.word ['L', 'D', 'S'], .hash, .word v] => (number v).map .lds
  | [.word ['J', 'M', 'P'], .word t] => (jmpTarget t).map .jmp
  | [.word ['H', 'A', 'L', 'T']] => some .halt
  | [.word ['C', 'Y', 'C', 'L', 'E'], .word p] => (number p).map .cycle
  | _ => none

/-- The command of a line after its labels: none where the line has no more tokens. -/
def lineAfterLabels (labels : List (List Char)) : List AsmToken → Option AsmLine
  | [] => some ⟨labels, none⟩
  | ts => (command ts).map fun c => ⟨labels, some c⟩

/-- One line of an assembler file (R83). -/
def parseLine (line : List Char) : Option AsmLine :=
  match tokens line [] with
  | .word w :: .colon :: rest => if isName w then lineAfterLabels [w] rest else none
  | ts => lineAfterLabels [] ts

/-- How many words a command takes: CYCLE expands to three (R84). -/
def AsmCmd.size : AsmCmd → Nat
  | .cycle _ => 3
  | .sample | .map .. | .emitA _ | .emitImm .. | .init _ | .lds _ | .jmp _ | .halt => 1

/-- How many words a line takes. -/
def lineSize (l : AsmLine) : Nat :=
  match l.cmd with
  | some c => AsmCmd.size c
  | none => 0

/-- The labels of a file with their values: the ROM index of the next command (R83). A label after which
no command follows has the index one past the last word, which R83 does not say (DESIGN CHOICE, log 18,
safe). -/
def labelTable : List AsmLine → Nat → List (List Char × Nat)
  | [], _ => []
  | l :: ls, i => l.labels.map (fun n => (n, i)) ++ labelTable ls (i + lineSize l)

/-- The value of a label; none where it is not defined, or defined twice. -/
def labelValue (table : List (List Char × Nat)) (name : List Char) : Option Nat :=
  match table.filter fun e => e.1 == name with
  | [e] => some e.2
  | _ => none

/-- The value of a JMP target, within its range (R83). -/
def targetValue (table : List (List Char × Nat)) : AsmTarget → Option Int
  | .index n => if inTarget16 n then some n else none
  | .label name =>
    (labelValue table name).bind fun n => if inTarget16 (n : Int) then some (n : Int) else none

/-- The commands of an assembler command, refused where an operand is outside its range: "it never
truncates one" (R83). CYCLE is SAMPLE, the loop's MAP and EMIT (R84). -/
def assembleCmd (table : List (List Char × Nat)) (c : AsmCmd) : Option (List Instr) :=
  if c.wellFormed then
    match c with
    | .sample => some [.sample]
    | .map a b x y =>
      some [.map (BitVec.ofInt 12 a) (BitVec.ofInt 12 b) (BitVec.ofInt 12 x) (BitVec.ofInt 12 y)]
    | .emitA p => some [.emitA (BitVec.ofInt 8 p)]
    | .emitImm p v => some [.emitImm (BitVec.ofInt 8 p) (BitVec.ofInt 16 v)]
    | .init e => some [.init (BitVec.ofInt 8 e)]
    | .lds v => some [.lds (BitVec.ofInt 16 v)]
    | .jmp t => (targetValue table t).map fun n => [.jmp (BitVec.ofInt 16 n)]
    | .halt => some [.halt]
    | .cycle p =>
      some [ .sample,
             .map Config.loopInMin Config.loopInMax Config.loopOutMin Config.loopOutMax,
             .emitA (BitVec.ofInt 8 p) ]
  else none

/-- The commands of a line. -/
def assembleLine (table : List (List Char × Nat)) (l : AsmLine) : Option (List Instr) :=
  match l.cmd with
  | some c => assembleCmd table c
  | none => some []

/-- The commands of a list of lines, under one table of labels. -/
def assembleLines (table : List (List Char × Nat)) : List AsmLine → Option (List Instr)
  | [] => some []
  | l :: ls => do
    let is ← assembleLine table l
    let rest ← assembleLines table ls
    some (is ++ rest)

/-- The program of a parsed file. -/
def assembleParsed (ls : List AsmLine) : Option (List Instr) :=
  assembleLines (labelTable ls 0) ls

/-- Every line parsed, or none. -/
def parseLines : List (List Char) → Option (List AsmLine)
  | [] => some []
  | l :: ls => do
    let p ← parseLine l
    let rest ← parseLines ls
    some (p :: rest)

/-- The program of an assembler file, line by line. -/
def assemble (lines : List (List Char)) : Option (List Instr) :=
  (parseLines lines).bind assembleParsed

end Sys2Proof.Machine
end

