-- ==== Sys2Proof/Machine/Binary32.lean ====
section
/-! DEFINITION. The single-precision evaluation that 41_mapper.md rule R128 compares MAP with: the
product of two exact integers, one division rounded to the nearest value of a 24-bit significand
(ties to even), truncation. The facts about binary32 are the spec's own general knowledge
(93_implementation_defined.md G1; PRESUMED, log 24). No command uses it. -/

namespace Sys2Proof.Machine

/-- The integer nearest to `n / d`, the even one of two. -/
def roundToEven (n d : Nat) : Nat :=
  let q := n / d
  let twiceRest := 2 * (n % d)
  if twiceRest < d then q
  else if d < twiceRest then q + 1
  else if q % 2 = 0 then q else q + 1

/-- The greatest scale `m` up to `fuel` further steps for which `n / d × 2^m` stays below `2^24`: the
significand of a positive quotient then has 24 bits. -/
def significandScale (n d : Nat) : Nat → Nat → Nat
  | 0, m => m
  | fuel + 1, m => if n * 2 ^ (m + 1) < d * 2 ^ 24 then significandScale n d fuel (m + 1) else m

/-- The quotient `n / d` rounded to binary32 and truncated, for `n < 2^24 × d`: the scale of the
least positive quotient R128 speaks of, 1 / 4096, is 35. -/
def truncatedBinary32 (n d : Nat) : Nat :=
  let m := significandScale n d 64 0
  roundToEven (n * 2 ^ m) d / 2 ^ m

end Sys2Proof.Machine
end

