-- ==== Sys2Proof/Machine/Ports.lean ====
section
/-! DEFINITION. The ports of the block (10_state.md R34, R35) and the timed trace in µs (00_scope.md
R13). -/

namespace Sys2Proof.Machine

/-- The input port levels on one tick of `clk` (R34). -/
structure InputPorts where
  /-- `rst_n`, active low. -/
  rstN : Bool
  /-- `adc_ack`. -/
  adcAck : Bool
  /-- `adc_data`. -/
  adcData : RawSample
  deriving DecidableEq, Repr

/-- The output port levels (R34). -/
structure OutputPorts where
  adcReq : Bool
  adcChan : BitVec 8
  pwmOut : PinLevels
  stRunstate : BitVec 2
  stFaultCode : BitVec 4
  stFaultPc : Word16
  stPwOor : Bool
  stPc : Word16
  deriving DecidableEq, Repr

/-- The encoding of RUNSTATE (10_state.md R26). -/
def runStateCode : RunState → BitVec 2
  | .reset => 0
  | .run => 1
  | .halted => 2
  | .faulted => 3

/-- The encoding of FAULT_CODE (60_exceptions.md R200). -/
def faultCodeNumber : FaultCode → BitVec 4
  | .none => 0
  | .illegalCmd => 1
  | .pcRange => 2
  | .sampleUnset => 3
  | .mapBounds => 4
  | .mapDiv0 => 5
  | .badPin => 6
  | .boundsUnset => 7
  | .emitDiv0 => 8
  | .pwNegative => 9
  | .pwOverrun => 10

/-- The outputs show the present state at every tick, reset included (R35); `adc_chan` is constant. -/
def outputs (s : State) : OutputPorts where
  adcReq := s.adcReq
  adcChan := s.build.adcChannel
  pwmOut := s.pwmOut
  stRunstate := runStateCode s.runState
  stFaultCode := faultCodeNumber s.faultCode
  stFaultPc := s.faultPc
  stPwOor := s.pwOor
  stPc := s.pc

/-- One entry of the observed trace, its time in µs since reset release (R13). -/
inductive ObservedEvent where
  | pin (timeUs : ℚ) (pin : Nat) (level : Bool)
  | request (timeUs : ℚ) (channel : BitVec 8)
  deriving DecidableEq, Repr

/-- The time of a tick in µs (00_scope.md R7 `TICKS_PER_US`). -/
def tickTimeUs (b : Config.Build) (tick : Nat) : ℚ := (tick : ℚ) / (b.ticksPerUs : ℚ)

/-- An entry of the trace as it is observed. -/
def observeEvent (b : Config.Build) : TraceEvent → ObservedEvent
  | .pin t p lvl => .pin (tickTimeUs b t) p lvl
  | .request t c => .request (tickTimeUs b t) c

/-- The timed trace of R13, oldest entry first. -/
def observedTrace (s : State) : List ObservedEvent :=
  s.trace.reverse.map (observeEvent s.build)

end Sys2Proof.Machine
end

