-- ==== Sys2Proof/Machine/Tick.lean ====
section
/-! DEFINITION. The clocked machine: the same commands one tick of `clk` at a time, driven by the
input ports alone (10_state.md R32 to R34). It shares every action with `exec`: `firstAction` is what
a command does on its first tick, `waitEnded` and `adcAnswered` what it does later. The script fields
`adc`, `resets` and `rstN` of State are not read here. -/

namespace Sys2Proof.Machine

/-- What a command does on the tick of its first action (44_sequencer.md R181). -/
def firstAction (i : Instr) (s : State) : State :=
  match i with
  | .sample => beginSample s
  | .map inMin inMax outMin outMax => beginMap inMin inMax outMin outMax s
  | .emitA pin => beginEmit pin s.A.toInt s
  | .emitImm pin imm => beginEmit pin (immOperand imm) s
  | .init endPin => beginInit endPin s
  | .lds imm => beginLds imm s
  | .jmp target => beginJmp target s
  | .halt => beginHalt s

/-- The pin or end operand a command goes on with after its first action. -/
def waitOperand : Instr → PinId
  | .emitA pin => pin
  | .emitImm pin _ => pin
  | .init endPin => endPin
  | .sample => 0
  | .map .. => 0
  | .lds _ => 0
  | .jmp _ => 0
  | .halt => 0

/-- One tick in RUN, the time already moved on. The dispatch counts up (R181); a pending read takes
the answer on the first tick with `adc_ack` high, and an `adc_ack` with none pending is ignored
(20_memory.md R55); a wait counts down, and the action after it happens on the tick at which
`remaining` reaches 0 (R57). -/
def tickRun (p : InputPorts) (s : State) : State :=
  match s.phase with
  | .fetch => { s with dispatched := s.dispatched + 1 }
  | .sampleRead => if s.adcPending && p.adcAck then adcAnswered p.adcData s else s
  | _ =>
    if s.remaining ≤ 1 then waitEnded ((operandInPhase s).getD 0) { s with remaining := 0 }
    else { s with remaining := s.remaining - 1 }

/-- One tick of `clk` with the input ports at `p` on it. Reset comes before everything else (60_exceptions.md
R203, 70_reset_and_hazards.md R230 to R232), on whole ticks (DEDUCED, log 12, unsafe). -/
def tick (p : InputPorts) (s : State) : State :=
  if p.rstN = false then
    if s.runState = .reset then s else resetAction (elapse 1 s)
  else
    match s.runState with
    | .reset => resetRelease s
    | .run => tickRun p (elapse 1 s)
    | .halted => elapse 1 s
    | .faulted => elapse 1 s

/-- The next command's first action is due on the present tick: the dispatch is over (R181). -/
def State.fetchDue (s : State) : Bool :=
  decide (s.runState = .run ∧ s.phase = .fetch ∧ s.build.dispatchCycles ≤ s.dispatched)

/-- Fetch, decode and the first action, on the present tick (R180). -/
def fetchAct (s : State) : State :=
  match fetch s with
  | .error code => faultEntry code { s with dispatched := 0 }
  | .ok i => firstAction i { s with dispatched := 0 }

/-- One move of the clocked machine: a due first action, which takes no time, or a tick. -/
def clockStep (p : InputPorts) (s : State) : State :=
  if p.rstN && s.fetchDue then fetchAct s else tick p s

/-- The ticks of a list of port levels, in order. -/
def ticks (ps : List InputPorts) (s : State) : State := ps.foldl (fun t p => tick p t) s

/-- The moves of a list of port levels, in order. -/
def clockRun (ps : List InputPorts) (s : State) : State := ps.foldl (fun t p => clockStep p t) s

/-- The reset input is high on every tick of the list. -/
def noResetOn (ps : List InputPorts) : Bool := ps.all fun p => p.rstN

end Sys2Proof.Machine
end

