-- ==== Sys2Proof/Safety.lean ====
section
/-! DEFINITION. What holds of the block in every state it can be in, and the words the statements
use for it: the invariant, the faithful trace, and the expected trace and ports of a frame. -/

namespace Sys2Proof.Machine

/-- The pins of R31: the pin of the frame in its high time is the only one high, and every pin is low
whenever no frame is in its high time. -/
def PinsAsPhase (s : State) : Prop :=
  match s.phase with
  | .emitHigh => ∃ p, operandInPhase s = some p ∧ p.toNat < s.build.numPins ∧ s.pwmOut = pinBit p.toNat
  | .initHigh => s.pwmOut = pinBit s.curPin.toNat
  | .fetch => s.pwmOut = 0
  | .sampleRead => s.pwmOut = 0
  | .sampleSettle => s.pwmOut = 0
  | .emitLow => s.pwmOut = 0
  | .initSettle => s.pwmOut = 0
  | .initLow => s.pwmOut = 0

/-- The counters of a SAMPLE in execution (10_state.md R32, R8): `SUM` holds at most 1023 for each
read taken. -/
def SampleCounts (s : State) : Prop :=
  match s.phase with
  | .sampleRead => s.k < Config.sampleReads ∧ s.sum.toNat ≤ 1023 * s.k
  | .sampleSettle => s.k < Config.sampleReads ∧ s.sum.toNat ≤ 1023 * (s.k + 1)
  | .fetch => True
  | .emitHigh => True
  | .emitLow => True
  | .initSettle => True
  | .initHigh => True
  | .initLow => True

/-- The pin and frame of an INIT frame in execution (10_state.md R32, 43_init.md R160): a pin of the
range from PIN_CONTROL_MIN to the operand, below NUM_PINS. -/
def InitFrameInRange (s : State) : Prop :=
  ∃ e, operandInPhase s = some e ∧ e.toNat < s.build.numPins ∧
    s.build.pinControlMin.toNat ≤ s.curPin.toNat ∧ s.curPin.toNat ≤ e.toNat ∧
    s.frame < Config.initFrames

/-- The reset values of R231, but for the observation, the script and the configuration. -/
def HoldsResetValues (s : State) : Prop :=
  s = { State.resetWith s.rom s.build s.adc s.resets with
        rstN := s.rstN
        now := s.now
        trace := s.trace }

/-- What holds of the block in every state it can be in. Each clause names its rule. -/
structure State.Inv (s : State) : Prop where
  /-- R24: the stored bounds are ordered once a MAP has stored them. -/
  bounds_ordered : s.bndValid = true →
    s.bndInMin.toInt ≤ s.bndInMax.toInt ∧ s.bndOutMin.toInt ≤ s.bndOutMax.toInt
  /-- R22: A lies within the output bounds of the last MAP. -/
  angle_in_bounds : s.bndValid = true →
    s.bndOutMin.toInt ≤ s.A.toInt ∧ s.A.toInt ≤ s.bndOutMax.toInt
  /-- R22, R24: nothing but a MAP writes A and the bounds. -/
  unmapped_zero : s.bndValid = false →
    s.A = 0 ∧ s.bndInMin = 0 ∧ s.bndInMax = 0 ∧ s.bndOutMin = 0 ∧ s.bndOutMax = 0
  /-- R21: nothing but SAMPLE and LDS writes S. -/
  unsampled_zero : s.sValid = false → s.S = 0
  /-- R23: the width of the last frame fits the frame. -/
  width_fits : s.W.toNat ≤ Config.refreshUs
  /-- R31: at most one pin is high, the pin of the frame in execution. -/
  pins : PinsAsPhase s
  /-- R26, R32: a command is in execution only in RUN, in a phase of the command at pc. -/
  in_execution : s.phase ≠ .fetch → s.runState = .run ∧ (operandInPhase s).isSome = true
  /-- R55: a read is pending exactly while SAMPLE waits for its answer. -/
  pending : s.adcPending = true ↔ s.phase = .sampleRead
  /-- R55: `adc_req` is high only on the tick of a request, inside SAMPLE. -/
  request_in_read : s.adcReq = true → s.phase = .sampleRead
  /-- R57: between commands no wait is going on. -/
  no_wait_between : s.phase = .fetch → s.remaining = 0
  /-- R32: the counters of SAMPLE stay in their ranges. -/
  sample_counts : SampleCounts s
  /-- R32, R160: the pin and frame counters of INIT stay in their ranges (ended frames, log 28). -/
  init_high : s.phase = .initHigh → InitFrameInRange s
  /-- R32, R160. -/
  init_low : s.phase = .initLow → InitFrameInRange s
  /-- R160: an INIT in its settle delay has passed its check. -/
  init_settle : s.phase = .initSettle →
    ∃ e, operandInPhase s = some e ∧ e.toNat < s.build.numPins
  /-- R27: the fault record is set exactly in FAULTED. -/
  fault_record : s.runState = .faulted ↔ s.faultCode ≠ .none
  /-- R27, R202: FAULT_PC is the pc in FAULTED. -/
  fault_pc : s.runState = .faulted → s.faultPc = s.pc
  /-- R27: and 0 before any fault. -/
  no_fault_pc : s.faultCode = .none → s.faultPc = 0
  /-- R231: while reset is asserted every piece of state holds its reset value. -/
  in_reset : s.runState = .reset → HoldsResetValues s

/-- The level the trace says pin `p` has: that of its newest entry, low when it has none. -/
def tracedLevel (p : Nat) : List TraceEvent → Bool
  | [] => false
  | .pin _ q lvl :: es => if q = p then lvl else tracedLevel p es
  | .request _ _ :: es => tracedLevel p es

/-- The tick of a trace entry. -/
def eventTick : TraceEvent → Nat
  | .pin t _ _ => t
  | .request t _ => t

/-- The trace tells the truth about the pins (R13): each pin has the level of its newest entry, no
entry is of a later tick than the present one, and the entries are in the order of time. -/
structure State.TraceFaithful (s : State) : Prop where
  levels : ∀ p < Config.maxPins, tracedLevel p s.trace = s.pinLevel p
  ordered : (s.trace.map eventTick).Pairwise (· ≥ ·)
  past : ∀ e ∈ s.trace, eventTick e ≤ s.now

/-- One frame's two trace entries, newest first: pin `p` rises at tick `t` and falls `high` ticks
later. -/
def frameEvents (p t high : Nat) : List TraceEvent := [.pin (t + high) p false, .pin t p true]

/-- The trace entries of the first `n` frames of an INIT whose settle delay ends at tick `t`, newest
first: frame `j` is on pin `first + j / 150` and rises at `t + 20000 µs × j` (43_init.md R161). -/
def initEvents (b : Config.Build) (first t : Nat) : Nat → List TraceEvent
  | 0 => []
  | j + 1 =>
    frameEvents (first + j / Config.initFrames) (t + b.ticks (Config.refreshUs * j))
        (b.ticks Config.defaultPwUs)
      ++ initEvents b first t j

/-- The frames an INIT to `endPin` emits on each pin of its range (R161). -/
def initPinCount (b : Config.Build) (endPin : PinId) : Nat :=
  endPin.toNat + 1 - b.pinControlMin.toNat

/-- The ticks from the first request of a SAMPLE to the end of the wait after its last read, for the
answers `as` (40_sampler.md R101). -/
def sampleTicks (b : Config.Build) (as : List AdcAnswer) : Nat :=
  (as.map fun a => a.wait + 1 + b.ticks Config.sampleSettleUs).sum

/-- The requests of a SAMPLE that starts at tick `t` and gets the answers `as`, newest first: the
k-th is issued after the latencies and settle waits of the reads before it (R101). -/
def requestEvents (b : Config.Build) (t : Nat) : List AdcAnswer → List TraceEvent
  | [] => []
  | a :: as =>
    requestEvents b (t + (a.wait + 1 + b.ticks Config.sampleSettleUs)) as
      ++ [.request t b.adcChannel]

/-- The sum of the values of converter answers (R100). -/
def answerSum (as : List AdcAnswer) : Nat := (as.map fun a => a.value.toNat).sum

/-- No reset falls by tick `t`: the reset input stays high until then. -/
def State.undisturbedTo (s : State) (t : Nat) : Prop := s.resetBy t = false

/-- The tick of a command's first action (R181): RUN, no command in execution, no wait going on, no
conversion requested or pending, the dispatch over. `exec` is called in such states only. -/
def State.readyAt (s : State) : Prop :=
  s.runState = .run ∧ s.phase = .fetch ∧ s.remaining = 0 ∧ s.dispatched = 0 ∧
    s.adcReq = false ∧ s.adcPending = false

/-- In execution of a read for which no answer and no reset is to come (00_scope.md R12 (c), 60_exceptions.md
R212). -/
def State.WaitsForAnswer (s : State) : Prop :=
  s.runState = .run ∧ s.phase = .sampleRead ∧ s.adc = [] ∧ s.resets = []

/-- The state after `n` steps; none where one of them gives no next state. -/
def stepsFrom : Nat → State → Option State
  | 0, s => some s
  | n + 1, s =>
    match step s with
    | .next t => stepsFrom n t
    | .fault _ => none
    | .refused _ => none

/-- The pin and the angle of an EMIT (42_pulse.md R140): the angle is register A or the immediate. -/
def emitOperands (i : Instr) (s : State) : Option (PinId × Int) :=
  match i with
  | .emitA pin => some (pin, s.A.toInt)
  | .emitImm pin imm => some (pin, imm.toInt)
  | .sample => none
  | .map .. => none
  | .init _ => none
  | .lds _ => none
  | .jmp _ => none
  | .halt => none

/-- Port levels on which a converter gives the answers `as` to a SAMPLE whose first request is on the
present tick, with the reset input high: each answer on its tick, nothing in the settle waits. -/
def samplePorts (b : Config.Build) (as : List AdcAnswer) : List InputPorts :=
  as.flatMap fun a =>
    List.replicate a.wait ⟨true, false, 0⟩ ++ ⟨true, true, a.value⟩ ::
      List.replicate (b.ticks Config.sampleSettleUs) ⟨true, false, 0⟩

/-- `t` has the block's configuration of `s`: the ROM and the build parameters (10_state.md R30,
20_memory.md R64). -/
def sameConfiguration (s t : State) : Prop := t.rom = s.rom ∧ t.build = s.build

end Sys2Proof.Machine
end

