-- ==== Sys2Proof/Certificates/Slice0/Obligations.lean ====
section
/-! DEFINITION. The statements for the provers. Each docstring names the rule of spec/ it formalises,
or says what it is derived from. A statement about a command is about `exec` on the tick of the
command's first action (`State.readyAt`); `StepRunsTheDecodedCommand` takes it to `step`. -/

open Sys2Proof Sys2Proof.Machine

/-! ### Encoding -/

/-- 30_encoding.md R83's three example words and one word of every other command, written out from
the formats R72 to R77 (95_test_vectors.md 2.6), decode to their commands. -/
def Obligations.SpecWordsDecodeToTheirCommands : Prop :=
  decode 0x1000000000000000 = .ok .sample ∧
  decode 0x21FF3FF0000B4000 = .ok (.map 511 1023 0 180) ∧
  decode 0x3090000000000000 = .ok (.emitA 9) ∧
  decode 0x309800000000FFF6 = .ok (.emitImm 9 (-10)) ∧
  decode 0x4090000000000000 = .ok (.init 9) ∧
  decode 0x500000000000FFFB = .ok (.lds (-5)) ∧
  decode 0x6000000000000001 = .ok (.jmp 1) ∧
  decode 0x7000000000000000 = .ok .halt

/-- Decoding the word of any command, with every operand at any value, gives that command. -/
def Obligations.DecodeOfEncodeIsTheCommand : Prop :=
  ∀ i : Instr, decode (encode i) = .ok i

/-- R81. A word decodes to a command exactly when one row of the table of R81 admits it: then the row
is the command's, no other row admits the word, and the word is the command's own encoding, so
distinct legal words decode to distinct commands; a word no row admits is ILLEGAL. -/
def Obligations.DecodeFollowsTheOpcodeTable : Prop :=
  ∀ w : CommandWord,
    (∃ i, decode w = .ok i ∧ encode i = w ∧
      (opcodeTable.filter fun r => r.admits w).map (fun r => r.name) = [i.mnemonic]) ∨
    ((∃ e, decode w = .error e) ∧ opcodeTable.filter (fun r => r.admits w) = [])

/-- R80. A word is ILLEGAL exactly when (a) OP is 0x0 or 0x8..0xF, (b) a bit that its format marks 0
is 1, or (c) it is EMIT with src = 0 and imm16 ≠ 0; and executing one raises ILLEGAL_CMD. -/
def Obligations.IllegalWordsAreExactlyTheReserved : Prop :=
  (∀ w : CommandWord,
    (∃ e, decode w = .error e) ↔
      (opField w = 0 ∨ 8 ≤ (opField w).toNat) ∨
      (opField w = 1 ∧ w.extractLsb' 0 60 ≠ 0) ∨ (opField w = 2 ∧ w.extractLsb' 0 12 ≠ 0) ∨
      (opField w = 3 ∧ w.extractLsb' 16 35 ≠ 0) ∨ (opField w = 4 ∧ w.extractLsb' 0 52 ≠ 0) ∨
      (opField w = 5 ∧ w.extractLsb' 16 44 ≠ 0) ∨ (opField w = 6 ∧ w.extractLsb' 16 44 ≠ 0) ∨
      (opField w = 7 ∧ w.extractLsb' 0 60 ≠ 0) ∨
      (opField w = 3 ∧ w.getLsbD 51 = false ∧ w.extractLsb' 0 16 ≠ 0)) ∧
  ∀ (s : State) (w : CommandWord) (e : Illegal),
    s.runState = .run → s.phase = .fetch → s.undisturbedTo s.dispatchEnd →
    romRead s.rom s.pc = some w → decode w = .error e →
    step s = .next (faultEntry .illegalCmd (dispatchDone s))

/-- From 20_memory.md R52: byte `8i + j` of a ROM image holds bits `8j+7 : 8j` of word `i`, and the
image's words are read back from it. -/
def Obligations.RomImageIsLittleEndian : Prop :=
  (∀ (rom : List CommandWord) (i j : Nat), j < 8 →
    (romImage rom)[8 * i + j]? = rom[i]?.map fun w => w.extractLsb' (8 * j) 8) ∧
  ∀ rom : List CommandWord, romOfBytes (romImage rom) = some rom

/-- From R83: "An assembler refuses an operand outside its range; it never truncates one". A command
out of range assembles to nothing; one that assembles keeps the value of every operand. -/
def Obligations.AssemblerNeverTruncates : Prop :=
  ∀ (table : List (List Char × Nat)) (c : AsmCmd),
    (c.wellFormed = false → assembleCmd table c = none) ∧
    ∀ is, assembleCmd table c = some is →
      (∀ a b x y, c = .map a b x y → ∃ a' b' x' y', is = [.map a' b' x' y'] ∧
        a'.toInt = a ∧ b'.toInt = b ∧ x'.toInt = x ∧ y'.toInt = y) ∧
      (∀ p, c = .emitA p → ∃ p', is = [.emitA p'] ∧ (p'.toNat : Int) = p) ∧
      (∀ p v, c = .emitImm p v → ∃ p' v', is = [.emitImm p' v'] ∧ (p'.toNat : Int) = p ∧ v'.toInt = v) ∧
      (∀ e, c = .init e → ∃ e', is = [.init e'] ∧ (e'.toNat : Int) = e) ∧
      (∀ v, c = .lds v → ∃ v', is = [.lds v'] ∧ v'.toInt = v) ∧
      (∀ n, c = .jmp (.index n) → ∃ t, is = [.jmp t] ∧ (t.toNat : Int) = n)

/-- R84. CYCLE expands to SAMPLE, MAP 511, 1023, 0, 180 and EMIT pin, A; every other assembler command
is one command. -/
def Obligations.CycleExpandsToTheLoopBody : Prop :=
  (∀ (table : List (List Char × Nat)) (p : PinId),
    assembleCmd table (.cycle p.toNat) = some [.sample, .map 511 1023 0 180, .emitA p]) ∧
  ∀ (table : List (List Char × Nat)) (c : AsmCmd) (is : List Instr),
    (∀ p, c ≠ .cycle p) → assembleCmd table c = some is → is.length = 1

/-! ### The step, fetch and dispatch -/

/-- R180. In RUN, between commands, with no reset arriving by the end of the dispatch: pc beyond the
ROM takes PC_RANGE, an ILLEGAL word ILLEGAL_CMD, and otherwise the decoded command is executed. In RUN
inside a command the step goes on with that command and fetches nothing: no other word of the ROM
matters, and the step leads to the command's end, a reset, or a read without an answer; so does the
whole of a step from any state the block can be in. In RESET, HALTED and FAULTED nothing is fetched:
what the step does does not depend on the ROM. -/
def Obligations.SequencerStepFetchesAndExecutes : Prop :=
  (∀ s : State, s.runState = .run → s.phase = .fetch → s.undisturbedTo s.dispatchEnd →
    (s.rom.length ≤ s.pc.toNat → step s = .next (faultEntry .pcRange (dispatchDone s))) ∧
    (∀ w e, s.rom[s.pc.toNat]? = some w → decode w = .error e →
      step s = .next (faultEntry .illegalCmd (dispatchDone s))) ∧
    ∀ w i, s.rom[s.pc.toNat]? = some w → decode w = .ok i → step s = exec i (dispatchDone s)) ∧
  (∀ s t : State, s.Inv → s.runState = .run → s.phase ≠ .fetch → step s = .next t →
    (∀ rom : List CommandWord, rom[s.pc.toNat]? = s.rom[s.pc.toNat]? →
      step { s with rom := rom } = .next { t with rom := rom }) ∧
    (t.runState = .reset ∨ (t.runState = .run ∧ t.phase = .fetch ∧ t.pc = s.pc + 1) ∨
      (t.WaitsForAnswer ∧ t.pc = s.pc))) ∧
  (∀ s t : State, s.Inv → step s = .next t → t.runState = .run → t.phase = .fetch ∨ t.WaitsForAnswer) ∧
  ∀ (s t : State) (rom : List CommandWord), s.runState ≠ .run → step s = .next t →
    step { s with rom := rom } = .next { t with rom := rom }

/-- A step runs the decoded command. Where the word at pc is that of a command, the step is `exec` of
it, DISPATCH_CYCLES ticks later and with nothing else changed; and in a state the block can be in,
`exec` is called on the tick of the first action. (The dispatch count is the model's own, log 7.) -/
def Obligations.StepRunsTheDecodedCommand : Prop :=
  ∀ (s : State) (i : Instr),
    s.runState = .run → s.phase = .fetch → s.undisturbedTo s.dispatchEnd →
    s.rom[s.pc.toNat]? = some (encode i) →
    step s = exec i (dispatchDone s) ∧
    (s.Inv →
      dispatchDone s =
        { s with now := s.now + (s.build.dispatchCycles - s.dispatched), dispatched := 0 } ∧
      (dispatchDone s).readyAt)

/-- From 44_sequencer.md R181, on the clocked machine: exactly DISPATCH_CYCLES ticks pass between two
commands; no command starts on an earlier one, and after them the fetched command's first action
happens on that same tick. -/
def Obligations.DispatchTakesItsTicks : Prop :=
  ∀ (s : State) (i : Instr) (ps : List InputPorts) (p : InputPorts),
    s.readyAt → fetch s = .ok i → noResetOn ps = true → p.rstN = true →
    (ps.length < s.build.dispatchCycles →
      clockRun ps s = { s with now := s.now + ps.length, dispatched := ps.length }) ∧
    (ps.length = s.build.dispatchCycles →
      clockRun (ps ++ [p]) s = firstAction i { s with now := s.now + ps.length })

/-! ### Faults -/

/-- R202. What taking a fault writes, and that every register, flag and the pc keep their values. -/
def Obligations.FaultEntryWritesTheRecord : Prop :=
  ∀ (code : FaultCode) (s : State),
    let t := faultEntry code s
    (t.runState = .faulted ∧ t.faultCode = code ∧ t.faultPc = s.pc ∧ t.pwmOut = 0 ∧
      t.phase = .fetch ∧ t.k = 0 ∧ t.sum = 0 ∧ t.curPin = 0 ∧ t.frame = 0 ∧ t.remaining = 0 ∧
      t.adcPending = false ∧ t.now = s.now) ∧
    (t.S = s.S ∧ t.A = s.A ∧ t.W = s.W ∧ t.bndInMin = s.bndInMin ∧ t.bndInMax = s.bndInMax ∧
      t.bndOutMin = s.bndOutMin ∧ t.bndOutMax = s.bndOutMax ∧ t.sValid = s.sValid ∧
      t.bndValid = s.bndValid ∧ t.pwOor = s.pwOor ∧ t.pc = s.pc) ∧
    (s.pwmOut = 0 → t.trace = s.trace) ∧
    (s.resets = [] → step t = .next t)

/-- R201. A command that faults changes nothing but what fault entry writes, and only MAP, EMIT and INIT
do; and a fault, once recorded, stands in every further step until a reset. -/
def Obligations.FaultsArePreciseAndFinal : Prop :=
  (∀ (i : Instr) (s t : State), s.readyAt → exec i s = .next t → t.runState = .faulted →
    (∃ code, code ≠ .none ∧ t = faultEntry code s) ∧
    i ≠ .sample ∧ (∀ imm, i ≠ .lds imm) ∧ (∀ target, i ≠ .jmp target) ∧ i ≠ .halt) ∧
  ∀ s t : State, s.runState = .faulted → step s = .next t →
    t = s ∨ (t.runState = .reset ∧ HoldsResetValues t)

/-- From 10_state.md R26, R35 and 60_exceptions.md R200: what the status outputs show, the numbers of
RUNSTATE and FAULT_CODE, and that in a state the block can be in the code is 0 outside FAULTED. -/
def Obligations.StatusPortsShowTheState : Prop :=
  ∀ s : State,
    ((outputs s).stPc = s.pc ∧ (outputs s).stFaultPc = s.faultPc ∧ (outputs s).stPwOor = s.pwOor ∧
      (outputs s).pwmOut = s.pwmOut ∧ (outputs s).adcReq = s.adcReq ∧
      (outputs s).adcChan = s.build.adcChannel) ∧
    ((s.runState = .reset → (outputs s).stRunstate = 0) ∧
      (s.runState = .run → (outputs s).stRunstate = 1) ∧
      (s.runState = .halted → (outputs s).stRunstate = 2) ∧
      (s.runState = .faulted → (outputs s).stRunstate = 3)) ∧
    ((s.faultCode = .none → (outputs s).stFaultCode = 0) ∧
      (s.faultCode = .illegalCmd → (outputs s).stFaultCode = 1) ∧
      (s.faultCode = .pcRange → (outputs s).stFaultCode = 2) ∧
      (s.faultCode = .sampleUnset → (outputs s).stFaultCode = 3) ∧
      (s.faultCode = .mapBounds → (outputs s).stFaultCode = 4) ∧
      (s.faultCode = .mapDiv0 → (outputs s).stFaultCode = 5) ∧
      (s.faultCode = .badPin → (outputs s).stFaultCode = 6) ∧
      (s.faultCode = .boundsUnset → (outputs s).stFaultCode = 7) ∧
      (s.faultCode = .emitDiv0 → (outputs s).stFaultCode = 8) ∧
      (s.faultCode = .pwNegative → (outputs s).stFaultCode = 9) ∧
      (s.faultCode = .pwOverrun → (outputs s).stFaultCode = 10)) ∧
    (s.Inv → ((outputs s).stRunstate = 3 ↔ (outputs s).stFaultCode ≠ 0))

/-! ### Reset -/

/-- R231. While the reset input is low every piece of state holds its reset value, whatever the block
was doing; and an `adc_ack` that arrives while no read is pending is ignored. -/
def Obligations.ResetActionClearsEverything : Prop :=
  ∀ (s : State) (p : InputPorts), p.rstN = false → s.Inv →
    let t := tick p s
    (t.runState = .reset ∧ t.pc = 0 ∧ t.S = 0 ∧ t.sValid = false ∧ t.A = 0 ∧ t.W = 0) ∧
    (t.bndInMin = 0 ∧ t.bndInMax = 0 ∧ t.bndOutMin = 0 ∧ t.bndOutMax = 0 ∧ t.bndValid = false) ∧
    (t.faultCode = .none ∧ t.faultPc = 0 ∧ t.pwOor = false ∧ t.pwmOut = 0 ∧ t.adcReq = false) ∧
    (t.phase = .fetch ∧ t.k = 0 ∧ t.sum = 0 ∧ t.curPin = 0 ∧ t.frame = 0 ∧ t.remaining = 0 ∧
      t.adcPending = false) ∧
    ∀ (u : State) (q : InputPorts), u.adcPending = false →
      clockStep q u = clockStep { q with adcAck := false } u

/-- The machine of State.reset: R231's values, and its first step is the release. (The board, the
default ROM on it and the empty script are the model's choice, logs 2 to 5.) -/
def Obligations.ResetStateHoldsTheResetValues : Prop :=
  State.reset.runState = .reset ∧ HoldsResetValues State.reset ∧ State.reset.Inv ∧
    step State.reset = .next { State.reset with runState := .run }

/-- R232, on the clocked machine. The first tick with the reset input high is time 0 of a new trace, in
RUN; the word at ROM index 0 is then fetched, and its command's first action, or the fault of an ILLEGAL
word, happens DISPATCH_CYCLES ticks later. -/
def Obligations.ReleaseStartsAtRomIndexZero : Prop :=
  ∀ (s : State) (p q : InputPorts) (ps : List InputPorts) (w : CommandWord),
    s.runState = .reset → s.Inv → p.rstN = true → q.rstN = true → noResetOn ps = true →
    ps.length = s.build.dispatchCycles → s.rom[0]? = some w →
    tick p s = { s with runState := .run, now := 0, trace := [] } ∧
    (∀ i, decode w = .ok i →
      clockRun (p :: (ps ++ [q])) s =
        firstAction i { s with runState := .run, now := ps.length, trace := [] }) ∧
    ∀ e, decode w = .error e →
      clockRun (p :: (ps ++ [q])) s =
        faultEntry .illegalCmd { s with runState := .run, now := ps.length, trace := [] }

/-- From R232: the step's release, and the step after it. While the reset input is low the block stays
in RESET. (That `rstN` is a field, and the dispatch count, are the model's choice, logs 5 and 7.) -/
def Obligations.StepReleasesTheReset : Prop :=
  ∀ s : State, s.runState = .reset → s.Inv →
    (s.rstN = false → step s = .next s) ∧
    (s.rstN = true →
      ∃ t, step s = .next t ∧ t = { s with runState := .run, now := 0, trace := [] } ∧
        (t.undisturbedTo s.build.dispatchCycles →
          ∀ w, s.rom[0]? = some w →
            (∀ i, decode w = .ok i → step t = exec i { t with now := s.build.dispatchCycles }) ∧
            ∀ e, decode w = .error e →
              step t = .next (faultEntry .illegalCmd { t with now := s.build.dispatchCycles })))

/-- From 10_state.md R26 and 70_reset_and_hazards.md R230: HALTED and FAULTED are left only by reset,
and a command that a reset cuts leaves nothing but the reset values. -/
def Obligations.OnlyResetLeavesAStop : Prop :=
  (∀ s t : State, (s.runState = .halted ∨ s.runState = .faulted) → step s = .next t →
    t = s ∨ (t.runState = .reset ∧ HoldsResetValues t)) ∧
  ∀ s t : State, s.runState ≠ .reset → step s = .next t → t.runState = .reset → HoldsResetValues t

/-- From 70_reset_and_hazards.md R238: a reset inside an EMIT frame. The pin falls at the reset, or
earlier where its high time was over, and the block holds its reset values; with w = 0 there is no edge.
That a reset on the very tick of completion comes first is R203 as log 15 reads it (DEDUCED); that it
comes from the script `resets` is log 4. -/
def Obligations.ResetInsideAFrameCutsThePulse : Prop :=
  ∀ (s : State) (i : Instr) (pin : PinId) (angle : Int) (w : Nat) (r : ResetPulse)
      (rest : List ResetPulse),
    s.readyAt → s.build.wellFormed = true → s.pwmOut = 0 → emitOperands i s = some (pin, angle) →
    emitFault s pin.toNat angle = none →
    (w : Int) = pulseWidth angle s.bndOutMin.toInt s.bndOutMax.toInt →
    s.resets = r :: rest → s.now < r.tick → r.tick ≤ s.now + s.build.ticks 20000 →
    ∃ t, exec i s = .next t ∧ t.runState = .reset ∧ HoldsResetValues t ∧ t.now = r.tick ∧
      t.trace =
        if w = 0 then s.trace
        else
          .pin (min r.tick (s.now + s.build.ticks w)) pin.toNat false ::
            .pin s.now pin.toNat true :: s.trace

/-- From R238: a reset inside a SAMPLE discards the partial sum and leaves S at 0, in a settle wait, in a
read that is answered later and in one that never is. That a reset on the very tick on which S would be
written comes first is R203 as log 15 reads it (DEDUCED); the answers and the reset come from the
scripts of logs 3 and 4. -/
def Obligations.ResetInsideASampleDiscardsTheSum : Prop :=
  ∀ (s : State) (r : ResetPulse) (rest : List ResetPulse),
    s.readyAt → s.resets = r :: rest → s.now < r.tick →
    (11 ≤ s.adc.length → r.tick ≤ s.now + sampleTicks s.build (s.adc.take 11)) →
    ∃ t, exec .sample s = .next t ∧ t.runState = .reset ∧ HoldsResetValues t ∧ t.S = 0 ∧ t.sum = 0 ∧
      t.now = r.tick

/-! ### LDS, JMP, HALT -/

/-- R103. LDS: its word; S and S_VALID written; no time, no fault. -/
def Obligations.LdsLoadsTheImmediate : Prop :=
  (∀ (w : CommandWord) (imm : Word16),
    decode w = .ok (.lds imm) ↔ w = 0x500000000000#48 ++ imm) ∧
  ∀ (s : State) (imm : Word16), s.readyAt →
    exec (.lds imm) s = .next { s with S := imm, sValid := true, pc := s.pc + 1 }

/-- R183. JMP: its word; the pc written and nothing else; a target beyond the ROM is found by the next
fetch. -/
def Obligations.JmpSetsThePc : Prop :=
  (∀ (w : CommandWord) (target : Word16),
    decode w = .ok (.jmp target) ↔ w = 0x600000000000#48 ++ target) ∧
  ∀ (s : State) (target : Word16), s.readyAt →
    exec (.jmp target) s = .next { s with pc := target } ∧
    (s.rom.length ≤ target.toNat → s.undisturbedTo (s.now + s.build.dispatchCycles) →
      ∃ t, step { s with pc := target } = .next t ∧ t.runState = .faulted ∧
        t.faultCode = .pcRange ∧ t.faultPc = target)

/-- R184. HALT: its word; the sequencer stops with the pc at its own index, every register keeps its
value, the pins are low and stay low, and only a reset changes anything. -/
def Obligations.HaltStopsTheSequencer : Prop :=
  (∀ w : CommandWord, decode w = .ok .halt ↔ w = 0x7000000000000000) ∧
  ∀ s : State, s.readyAt →
    exec .halt s = .next { s with runState := .halted } ∧
    (s.Inv → s.pwmOut = 0) ∧
    step { s with runState := .halted } = .next (takeReset { s with runState := .halted }) ∧
    (s.resets = [] → step { s with runState := .halted } = .next { s with runState := .halted })

/-! ### MAP -/

/-- R120. MAP: its word; its faults in their order, and otherwise A by the clamps and the two
interpolations, the four bounds and BND_VALID, nothing else but the pc, and no time. -/
def Obligations.MapClampsAndInterpolates : Prop :=
  (∀ (w : CommandWord) (a b c d : Bound12),
    decode w = .ok (.map a b c d) ↔ w = 0x2#4 ++ a ++ b ++ c ++ d ++ 0x000#12) ∧
  ∀ (s : State) (inMin inMax outMin outMax : Bound12), s.readyAt →
    let v := s.S.toInt
    let a := inMin.toInt
    let b := inMax.toInt
    let c := outMin.toInt
    let d := outMax.toInt
    if s.sValid = false then
      exec (.map inMin inMax outMin outMax) s = .next (faultEntry .sampleUnset s)
    else if b < a ∨ d < c then
      exec (.map inMin inMax outMin outMax) s = .next (faultEntry .mapBounds s)
    else if v = a ∧ a = b then
      exec (.map inMin inMax outMin outMax) s = .next (faultEntry .mapDiv0 s)
    else
      ∃ r : Word16,
        (if v < a then r.toInt = c
        else if b < v then r.toInt = d
        else if d - c < b - a then r.toInt = c + Int.tdiv ((v - a) * (d - c + 1)) (b - a + 1)
        else r.toInt = c + Int.tdiv ((v - a) * (d - c)) (b - a)) ∧
        exec (.map inMin inMax outMin outMax) s =
          .next
            { s with
              A := r
              bndInMin := inMin.signExtend 16
              bndInMax := inMax.signExtend 16
              bndOutMin := outMin.signExtend 16
              bndOutMax := outMax.signExtend 16
              bndValid := true
              pc := s.pc + 1 }

/-- R122. After a MAP that does not fault, `out_min ≤ A ≤ out_max`. -/
def Obligations.MapResultLiesInItsBounds : Prop :=
  ∀ (s t : State) (inMin inMax outMin outMax : Bound12),
    exec (.map inMin inMax outMin outMax) s = .next t → t.runState = .run →
    outMin.toInt ≤ t.A.toInt ∧ t.A.toInt ≤ outMax.toInt

/-- R123. A value at or below in_min maps to out_min, one at or above in_max to out_max. -/
def Obligations.MapBoundaryValues : Prop :=
  ∀ (s t : State) (inMin inMax outMin outMax : Bound12),
    exec (.map inMin inMax outMin outMax) s = .next t → t.runState = .run →
    (s.S.toInt ≤ inMin.toInt → t.A.toInt = outMin.toInt) ∧
    (inMax.toInt ≤ s.S.toInt → t.A.toInt = outMax.toInt)

/-- R124. For fixed bounds A is a non-decreasing function of S. -/
def Obligations.MapIsMonotone : Prop :=
  ∀ (s₁ s₂ t₁ t₂ : State) (inMin inMax outMin outMax : Bound12),
    exec (.map inMin inMax outMin outMax) s₁ = .next t₁ → t₁.runState = .run →
    exec (.map inMin inMax outMin outMax) s₂ = .next t₂ → t₂.runState = .run →
    s₁.S.toInt ≤ s₂.S.toInt → t₁.A.toInt ≤ t₂.A.toInt

/-- From R125: equal spans above 0 give an exact shift, and an output span of 0 gives out_min for
every value in range. -/
def Obligations.MapSpanCases : Prop :=
  ∀ (s t : State) (inMin inMax outMin outMax : Bound12),
    exec (.map inMin inMax outMin outMax) s = .next t → t.runState = .run →
    inMin.toInt ≤ s.S.toInt → s.S.toInt ≤ inMax.toInt →
    (inMax.toInt - inMin.toInt = outMax.toInt - outMin.toInt →
      t.A.toInt = outMin.toInt + (s.S.toInt - inMin.toInt)) ∧
    (outMin = outMax → t.A.toInt = outMin.toInt)

/-- From R126: a MAP that has a sample and ordered output bounds raises MAP_DIV0 exactly when
`S = in_min = in_max`. -/
def Obligations.MapDivZeroExactly : Prop :=
  ∀ (s : State) (inMin inMax outMin outMax : Bound12), s.readyAt → s.sValid = true →
    outMin.toInt ≤ outMax.toInt →
    ((∃ t, exec (.map inMin inMax outMin outMax) s = .next t ∧ t.runState = .faulted ∧
        t.faultCode = .mapDiv0) ↔
      s.S.toInt = inMin.toInt ∧ inMin = inMax)

/-- R127. A second MAP with the same bounds writes the same A and the same bounds, and no state but S
affects A. -/
def Obligations.MapIsIdempotent : Prop :=
  ∀ (s t : State) (inMin inMax outMin outMax : Bound12), s.readyAt →
    exec (.map inMin inMax outMin outMax) s = .next t → t.runState = .run →
    (∃ u, exec (.map inMin inMax outMin outMax) t = .next u ∧ u = { t with pc := t.pc + 1 }) ∧
    ∀ s', s'.readyAt → s'.S = s.S → s'.sValid = true →
      ∃ t', exec (.map inMin inMax outMin outMax) s' = .next t' ∧ t'.runState = .run ∧ t'.A = t.A ∧
        t'.bndInMin = t.bndInMin ∧ t'.bndInMax = t.bndInMax ∧
        t'.bndOutMin = t.bndOutMin ∧ t'.bndOutMax = t.bndOutMax

/-- From R128: after a MAP that does not fault, of a value within its input bounds, A is what the
single-precision evaluation the rule describes gives (one rounded division of two exact integers,
truncated), in both branches. The binary32 facts are the spec's general knowledge
(93_implementation_defined.md G1, log 24). -/
def Obligations.MapAgreesWithSinglePrecision : Prop :=
  ∀ (s t : State) (inMin inMax outMin outMax : Bound12),
    exec (.map inMin inMax outMin outMax) s = .next t → t.runState = .run →
    inMin.toInt ≤ s.S.toInt → s.S.toInt ≤ inMax.toInt →
    let d := (s.S.toInt - inMin.toInt).toNat
    let inSpan := (inMax.toInt - inMin.toInt).toNat
    let outSpan := (outMax.toInt - outMin.toInt).toNat
    (outSpan < inSpan →
      t.A.toInt = outMin.toInt + truncatedBinary32 (d * (outSpan + 1)) (inSpan + 1)) ∧
    (inSpan ≤ outSpan → t.A.toInt = outMin.toInt + truncatedBinary32 (d * outSpan) inSpan)

/-! ### SAMPLE -/

/-- R101, with the result of R100. SAMPLE: its word; with its eleven answers S is the sum divided by
10, truncated, the requests and the completion are at the ticks of R101, and no pin changes. The script
`adc` gives the converter's answers (log 3); what k and SUM are left at is not said (log 8). -/
def Obligations.SampleAveragesElevenReads : Prop :=
  (∀ w : CommandWord, decode w = .ok .sample ↔ w = 0x1000000000000000) ∧
  ∀ (s : State) (as rest : List AdcAnswer), s.readyAt → s.adc = as ++ rest → as.length = 11 →
    s.undisturbedTo (s.now + sampleTicks s.build as) →
    ∃ k' sum',
      exec .sample s =
        .next
          { s with
            S := BitVec.ofNat 16 (answerSum as / 10)
            sValid := true
            pc := s.pc + 1
            k := k'
            sum := sum'
            adc := rest
            now := s.now + sampleTicks s.build as
            trace := requestEvents s.build s.now as ++ s.trace }

/-- R102. After a SAMPLE, `0 ≤ S ≤ 1125`, S is the floor of a tenth of the sum of the eleven reads, S
exceeds 1023 exactly when the sum is at least 10240, as when every read is at least 931, and the loop's
MAP clamps such a value to 180. (The reads are those of the script `adc`, log 3.) -/
def Obligations.SampleRange : Prop :=
  ∀ (s t : State) (as rest : List AdcAnswer), s.readyAt → s.adc = as ++ rest → as.length = 11 →
    exec .sample s = .next t → t.runState = .run →
    0 ≤ t.S.toInt ∧ t.S.toInt ≤ 1125 ∧ t.S.toInt = (answerSum as / 10 : Nat) ∧
    (1023 < t.S.toInt ↔ 10240 ≤ answerSum as) ∧
    ((∀ a ∈ as, 931 ≤ a.value.toNat) → 1023 < t.S.toInt) ∧
    (1023 < t.S.toInt →
      ∃ u, exec (.map 511 1023 0 180) t = .next u ∧ u.runState = .run ∧ u.A.toInt = 180)

/-- From 60_exceptions.md R212 (a): a SAMPLE with fewer than eleven answers to come (log 3) and no reset
waits in its next read, with every pin and every register as it was: nothing is changed but the hidden
counters of the reads so far, the request, the time and the trace. Under the invariant every pin is low.
That a further step then changes nothing, not even the time, is log 25 (DESIGN CHOICE). -/
def Obligations.SampleWaitsWithoutAnAnswer : Prop :=
  ∀ s : State, s.readyAt → s.adc.length < 11 → s.resets = [] →
    let t : State :=
      { s with
        phase := .sampleRead
        k := s.adc.length
        sum := BitVec.ofNat 14 (answerSum s.adc)
        adcReq := true
        adcPending := true
        adc := []
        now := s.now + sampleTicks s.build s.adc
        trace :=
          .request (s.now + sampleTicks s.build s.adc) s.build.adcChannel ::
            (requestEvents s.build s.now s.adc ++ s.trace) }
    exec .sample s = .next t ∧ (s.Inv → t.pwmOut = 0) ∧
      (commandAtPc s = some .sample → step t = .next t)

/-- From 00_scope.md R12 (c): a waiting SAMPLE resumes when the converter answers. It ends as one
whose answers were never late. (How a script resumes is the model's, log 3.) -/
def Obligations.WaitingSampleResumes : Prop :=
  ∀ (s t : State) (as more : List AdcAnswer), s.readyAt → s.resets = [] → as.length < 11 →
    commandAtPc s = some .sample → exec .sample { s with adc := as } = .next t →
    step { t with adc := more } = exec .sample { s with adc := as ++ more }

/-! ### EMIT -/

/-- From R203 and R140: the first failing check in the order BAD_PIN, BOUNDS_UNSET,
EMIT_DIV0, PW_NEGATIVE, PW_OVERRUN is the fault, and it drives nothing. -/
def Obligations.EmitChecksInOrder : Prop :=
  ∀ (s : State) (i : Instr) (pin : PinId) (angle : Int), s.readyAt →
    emitOperands i s = some (pin, angle) →
    let w := 535 + Int.tdiv ((angle - s.bndOutMin.toInt) * 1815) (s.bndOutMax.toInt - s.bndOutMin.toInt)
    if s.build.numPins ≤ pin.toNat then exec i s = .next (faultEntry .badPin s)
    else if s.bndValid = false then exec i s = .next (faultEntry .boundsUnset s)
    else if s.bndOutMax = s.bndOutMin then exec i s = .next (faultEntry .emitDiv0 s)
    else if w < 0 then exec i s = .next (faultEntry .pwNegative s)
    else if 20000 < w then exec i s = .next (faultEntry .pwOverrun s)
    else emitFault s pin.toNat angle = none

/-- R141 and R144, with the width of R140. EMIT in both its forms, from its words on: when it passes its
checks, one frame of 20000 µs, the pin high for exactly w µs from the first action on (not at all when
w = 0); W and PW_OOR; nothing else. With bounds 0 and 180 no angle gives 0, with 0 and 1815 one does. -/
def Obligations.EmitDrivesOneFrame : Prop :=
  (∀ (w : CommandWord) (pin : PinId),
    decode w = .ok (.emitA pin) ↔ w = 0x3#4 ++ pin ++ 0#1 ++ 0#35 ++ 0#16) ∧
  (∀ (w : CommandWord) (pin : PinId) (imm : Word16),
    decode w = .ok (.emitImm pin imm) ↔ w = 0x3#4 ++ pin ++ 1#1 ++ 0#35 ++ imm) ∧
  (pulseWidth (-53) 0 180 = 1 ∧ (∀ angle : Int, pulseWidth angle 0 180 ≠ 0) ∧
    pulseWidth (-535) 0 1815 = 0) ∧
  ∀ (s : State) (i : Instr) (pin : PinId) (angle : Int) (w : Nat), s.readyAt →
    s.build.wellFormed = true → s.pwmOut = 0 → emitOperands i s = some (pin, angle) →
    pin.toNat < s.build.numPins → s.bndValid = true → s.bndOutMax ≠ s.bndOutMin →
    (w : Int) =
      535 + Int.tdiv ((angle - s.bndOutMin.toInt) * 1815) (s.bndOutMax.toInt - s.bndOutMin.toInt) →
    w ≤ 20000 → s.undisturbedTo (s.now + s.build.ticks 20000) →
    exec i s =
      .next
        { s with
          W := BitVec.ofNat 16 w
          pwOor := s.pwOor || decide (w < 535 ∨ 2350 < w)
          pc := s.pc + 1
          now := s.now + s.build.ticks 20000
          trace :=
            (if w = 0 then [] else frameEvents pin.toNat s.now (s.build.ticks w)) ++ s.trace }

/-- R142. For an angle within the bounds the width is within 535..2350, at its ends at the ends, and
non-decreasing in the angle; such an EMIT raises neither PW fault and leaves PW_OOR; and an EMIT of
register A is always one, in every state the block can be in. -/
def Obligations.EmitOfAnInRangeAngleIsSafe : Prop :=
  (∀ amin amax : Int, amin < amax →
    pulseWidth amin amin amax = 535 ∧ pulseWidth amax amin amax = 2350 ∧
    ∀ x y, amin ≤ x → x ≤ y → y ≤ amax →
      535 ≤ pulseWidth x amin amax ∧ pulseWidth x amin amax ≤ pulseWidth y amin amax ∧
        pulseWidth y amin amax ≤ 2350) ∧
  (∀ (s t : State) (i : Instr) (pin : PinId) (angle : Int), s.readyAt →
    emitOperands i s = some (pin, angle) → s.bndValid = true → s.bndOutMin.toInt < s.bndOutMax.toInt →
    s.bndOutMin.toInt ≤ angle → angle ≤ s.bndOutMax.toInt → exec i s = .next t →
    (t.runState = .faulted → t.faultCode = .badPin) ∧ (t.runState = .run → t.pwOor = s.pwOor)) ∧
  ∀ s : State, s.Inv → s.bndValid = true →
    s.bndOutMin.toInt ≤ s.A.toInt ∧ s.A.toInt ≤ s.bndOutMax.toInt

/-- From R145: EMIT, in both its forms, scales by the output bounds of the last MAP, whatever commands
other than MAP stand between them. (How many steps these take is the model's granularity, log 1.) -/
def Obligations.EmitScalesByTheLastMap : Prop :=
  ∀ (n : Nat) (s t u v : State) (inMin inMax outMin outMax : Bound12) (i : Instr) (pin : PinId)
      (angle : Int),
    exec (.map inMin inMax outMin outMax) s = .next t → t.runState = .run →
    (∀ k < n, ∀ m, stepsFrom k t = some m → ∀ a b c d, commandAtPc m ≠ some (.map a b c d)) →
    stepsFrom n t = some u → u.readyAt → emitOperands i u = some (pin, angle) →
    exec i u = .next v → v.runState = .run →
    (v.W.toNat : Int) =
      535 + Int.tdiv ((angle - outMin.toInt) * 1815) (outMax.toInt - outMin.toInt)

/-- R146. The widths for the document's loop bounds 0 and 180. -/
def Obligations.LoopBoundsWidths : Prop :=
  (∀ angle : Int, pulseWidth angle 0 180 = 535 + Int.tdiv (angle * 1815) 180) ∧
  pulseWidth 0 0 180 = 535 ∧ pulseWidth 1 0 180 = 545 ∧ pulseWidth 31 0 180 = 847 ∧
  pulseWidth 90 0 180 = 1442 ∧ pulseWidth 179 0 180 = 2339 ∧ pulseWidth 180 0 180 = 2350

/-! ### INIT -/

/-- From R160: INIT to a pin that does not exist faults BAD_PIN at once, before the settle delay. -/
def Obligations.InitChecksItsPinFirst : Prop :=
  ∀ (s : State) (endPin : PinId), s.build.numPins ≤ endPin.toNat →
    exec (.init endPin) s = .next (faultEntry .badPin s)

/-- R161 and R162. INIT, from its word on: 2 s with every pin low, then 150 frames of 1500 µs on each pin of the range in
ascending order, frame j rising at `2 000 000 + 20 000 j` µs, complete after 2 s and 3 s a pin; no
register or flag changes. An empty range gives the delay alone. What cur_pin and frame are left at is
not said (log 8). -/
def Obligations.InitDrivesEveryPinOfTheRange : Prop :=
  (∀ (w : CommandWord) (e : PinId), decode w = .ok (.init e) ↔ w = 0x4#4 ++ e ++ 0#52) ∧
  ∀ (s : State) (endPin : PinId), s.readyAt → s.pwmOut = 0 → endPin.toNat < s.build.numPins →
    s.undisturbedTo (s.now + s.build.ticks (2000000 + 3000000 * initPinCount s.build endPin)) →
    ∃ curPin' frame',
      exec (.init endPin) s =
        .next
          { s with
            pc := s.pc + 1
            curPin := curPin'
            frame := frame'
            now := s.now + s.build.ticks (2000000 + 3000000 * initPinCount s.build endPin)
            trace :=
              initEvents s.build s.build.pinControlMin.toNat (s.now + s.build.ticks 2000000)
                (150 * initPinCount s.build endPin) ++ s.trace }

/-! ### Frames and invariants over every command -/

/-- From 10_state.md R21 to R24, R27 and R28: unless a reset comes, only SAMPLE and LDS write S, only
MAP writes A and the bounds, only EMIT writes W and PW_OOR, which is sticky, and only a fault writes the
fault record. -/
def Obligations.OnlyItsCommandsWriteARegister : Prop :=
  ∀ (i : Instr) (s t : State), exec i s = .next t → t.runState ≠ .reset →
    ((i ≠ .sample ∧ ∀ imm, i ≠ .lds imm) → t.S = s.S ∧ t.sValid = s.sValid) ∧
    ((∀ a b c d, i ≠ .map a b c d) →
      t.A = s.A ∧ t.bndValid = s.bndValid ∧ t.bndInMin = s.bndInMin ∧ t.bndInMax = s.bndInMax ∧
        t.bndOutMin = s.bndOutMin ∧ t.bndOutMax = s.bndOutMax) ∧
    (emitOperands i s = none → t.W = s.W ∧ t.pwOor = s.pwOor) ∧
    (t.runState ≠ .faulted → t.faultCode = s.faultCode ∧ t.faultPc = s.faultPc) ∧
    (s.pwOor = true → t.pwOor = true)

/-- R64. No step and no move of the clocked machine changes the command ROM or a parameter. -/
def Obligations.NothingWritesTheConfiguration : Prop :=
  (∀ s t : State, step s = .next t → sameConfiguration s t) ∧
  ∀ (p : InputPorts) (s : State), sameConfiguration s (clockStep p s)

/-- The invariant holds at reset, on every board, with every ROM and in every environment. -/
def Obligations.InvariantHoldsAtReset : Prop :=
  ∀ (rom : List CommandWord) (build : Config.Build) (adc : List AdcAnswer)
    (resets : List ResetPulse), (State.resetWith rom build adc resets).Inv

/-- Every step keeps the invariant: ordered bounds, A within them, a width that fits its frame, one
pin high at most, the counters in their ranges (how INIT counts its frames is log 28), the fault record set exactly in
FAULTED. -/
def Obligations.EveryStepKeepsTheInvariant : Prop :=
  ∀ s t : State, s.Inv → step s = .next t → t.Inv

/-- Every move of the clocked machine keeps it too, on any input port levels, so it holds on every
tick inside a command. -/
def Obligations.EveryClockMoveKeepsTheInvariant : Prop :=
  ∀ (p : InputPorts) (s : State), s.Inv → (clockStep p s).Inv

/-- From 00_scope.md R12: in a state the block can be in, a step always gives a next state. -/
def Obligations.StepNeverStopsInAReachableState : Prop :=
  ∀ s : State, s.Inv → ∃ t, step s = .next t

/-- From 10_state.md R31: at most one pin is high at any time, only a pin of the board, and every pin is
low but in the high time of a frame. -/
def Obligations.AtMostOnePinIsHigh : Prop :=
  ∀ s : State, s.Inv →
    (∀ p q, s.pinLevel p = true → s.pinLevel q = true → p = q) ∧
    (∀ p, s.pinLevel p = true → p < s.build.numPins) ∧
    (s.phase ≠ .emitHigh → s.phase ≠ .initHigh → ∀ p, s.pinLevel p = false)

/-- From 00_scope.md R13: the timed trace records every change of a pin, in the order of time, through
every step. -/
def Obligations.TraceTellsThePinLevels : Prop :=
  ∀ s t : State, s.Inv → s.TraceFaithful → step s = .next t → t.TraceFaithful

/-! ### The clocked machine -/

/-- From 20_memory.md R57: a wait counts down one a tick, changes nothing else on the way, and the
action after it happens exactly `remaining` ticks later. -/
def Obligations.WaitsLastExactlyTheirTicks : Prop :=
  ∀ (s : State) (ps : List InputPorts), s.runState = .run → s.phase ≠ .fetch →
    s.phase ≠ .sampleRead → s.adcReq = false → noResetOn ps = true →
    (ps.length < s.remaining →
      ticks ps s = { s with now := s.now + ps.length, remaining := s.remaining - ps.length }) ∧
    (ps.length = s.remaining → 0 < s.remaining →
      ticks ps s =
        waitEnded ((operandInPhase s).getD 0) { s with now := s.now + s.remaining, remaining := 0 })

/-- From 20_memory.md R55 and 10_state.md R34: the first action of SAMPLE, and the end of the wait after
each read but the last, drive adc_req high on that tick, with the channel, and set adc_pending; the read
then waits while there is no adc_ack, adc_req low from the next tick on; on the first tick with one it
takes the value; an adc_ack with no read pending is ignored. -/
def Obligations.AdcHandshake : Prop :=
  (∀ s : State,
    (outputs (firstAction .sample s)).adcReq = true ∧
    (outputs (firstAction .sample s)).adcChan = s.build.adcChannel ∧
    firstAction .sample s =
      { s with
        phase := .sampleRead
        k := 0
        sum := 0
        adcReq := true
        adcPending := true
        trace := .request s.now s.build.adcChannel :: s.trace }) ∧
  (∀ (s : State) (ps : List InputPorts), s.runState = .run → s.phase = .sampleSettle →
    s.k + 1 < 11 → s.adcReq = false → noResetOn ps = true → ps.length = s.remaining →
    0 < s.remaining →
    ticks ps s =
      { s with
        phase := .sampleRead
        k := s.k + 1
        remaining := 0
        adcReq := true
        adcPending := true
        now := s.now + ps.length
        trace := .request (s.now + ps.length) s.build.adcChannel :: s.trace }) ∧
  (∀ (s : State) (ps : List InputPorts) (r : RawSample), s.runState = .run →
    s.phase = .sampleRead → s.adcPending = true → noResetOn ps = true →
    (ps.all fun p => !p.adcAck) = true →
    (ps ≠ [] → ticks ps s = { s with now := s.now + ps.length, adcReq := false }) ∧
    ticks (ps ++ [⟨true, true, r⟩]) s =
      adcAnswered r { s with now := s.now + (ps.length + 1), adcReq := false }) ∧
  ∀ (s : State) (p : InputPorts), s.adcPending = false →
    clockStep p s = clockStep { p with adcAck := false } s

/-- A step from the middle of a wait gives what a step from its beginning gives: the jump of `step`
and the tick of the clocked machine agree (from 10_state.md R32, "to resume a command between two
waits"). -/
def Obligations.StepAgreesFromInsideAWait : Prop :=
  ∀ (s : State) (p : InputPorts), s.runState = .run → s.phase ≠ .fetch → s.phase ≠ .sampleRead →
    1 < s.remaining → s.resets = [] → p.rstN = true → step (tick p s) = step s

/-- EMIT on the clocked machine: 20000 µs of ticks, with any adc_ack on them, end in exactly the state
`exec` gives (from 42_pulse.md R141). -/
def Obligations.ClockedEmitRefinesExec : Prop :=
  ∀ (s : State) (i : Instr) (pin : PinId) (angle : Int) (ps : List InputPorts), s.readyAt →
    s.build.wellFormed = true → s.resets = [] → commandAtPc s = some i →
    emitOperands i s = some (pin, angle) → emitFault s pin.toNat angle = none →
    noResetOn ps = true → ps.length = s.build.ticks 20000 →
    exec i s = .next (ticks ps (firstAction i s))

/-- SAMPLE on the clocked machine, its converter answering on the ports, ends in exactly the state
`exec` gives (from 40_sampler.md R101). -/
def Obligations.ClockedSampleRefinesExec : Prop :=
  ∀ (s : State) (as rest : List AdcAnswer), s.readyAt → s.build.wellFormed = true → s.resets = [] →
    commandAtPc s = some .sample → s.adc = as ++ rest → as.length = 11 →
    exec .sample s =
      .next { ticks (samplePorts s.build as) (firstAction .sample s) with adc := rest }

/-- INIT on the clocked machine: 2 s and 3 s a pin of ticks end in exactly the state `exec` gives (from
43_init.md R161). -/
def Obligations.ClockedInitRefinesExec : Prop :=
  ∀ (s : State) (endPin : PinId) (ps : List InputPorts), s.readyAt → s.build.wellFormed = true →
    s.resets = [] → commandAtPc s = some (.init endPin) → endPin.toNat < s.build.numPins →
    noResetOn ps = true →
    ps.length = s.build.ticks (2000000 + 3000000 * initPinCount s.build endPin) →
    exec (.init endPin) s = .next (ticks ps (firstAction (.init endPin) s))

/-- From 70_reset_and_hazards.md R238: a reset inside an INIT. In the settle delay it leaves no edge; in
frame j the pin of that frame falls at the reset, or earlier where its high time was over, after the
frames before it; the block holds its reset values. That a reset on the very tick of a rise or of the
completion comes first is R203 as log 15 reads it (DEDUCED); that it comes from the script `resets` is
log 4. -/
def Obligations.ResetInsideAnInitCutsTheFrame : Prop :=
  ∀ (s : State) (endPin : PinId) (r : ResetPulse) (rest : List ResetPulse),
    s.readyAt → s.pwmOut = 0 → endPin.toNat < s.build.numPins → s.resets = r :: rest →
    s.now < r.tick →
    let settled := s.now + s.build.ticks 2000000
    (r.tick ≤ settled →
      ∃ t, exec (.init endPin) s = .next t ∧ t.runState = .reset ∧ HoldsResetValues t ∧
        t.now = r.tick ∧ t.trace = s.trace) ∧
    ∀ j < 150 * initPinCount s.build endPin,
      settled + s.build.ticks (20000 * j) < r.tick →
      r.tick ≤ settled + s.build.ticks (20000 * (j + 1)) →
      ∃ t, exec (.init endPin) s = .next t ∧ t.runState = .reset ∧ HoldsResetValues t ∧
        t.now = r.tick ∧
        t.trace =
          .pin (min r.tick (settled + s.build.ticks (20000 * j) + s.build.ticks 1500))
              (s.build.pinControlMin.toNat + j / 150) false ::
            .pin (settled + s.build.ticks (20000 * j)) (s.build.pinControlMin.toNat + j / 150) true ::
              (initEvents s.build s.build.pinControlMin.toNat settled j ++ s.trace)
end

