-- ==== Sys2Proof/Laws/Arithmetic.lean ====
section
/-! SUPPORT. The arithmetic of the two mapping units and of the sampler (00_scope.md R10): what an
interpolation, a width, a bound operand and a sum of reads can be. -/

namespace Sys2Proof.Machine

/-- A value in the range of a 16-bit register is stored as it is (00_scope.md R9). -/
theorem toInt_ofInt16 {r : Int} (h1 : -32768 ≤ r) (h2 : r ≤ 32767) : (BitVec.ofInt 16 r).toInt = r := by
  rw [BitVec.toInt_ofInt, Int.bmod_eq_of_le] <;> omega

/-- Sign extension keeps a bound's value (30_encoding.md R78). -/
theorem boundOperand_toInt (f : Bound12) : (boundOperand f).toInt = f.toInt :=
  BitVec.toInt_signExtend_of_le (by decide)

/-- A bound operand is in -2048..2047 (R73). -/
theorem boundOperand_range (f : Bound12) :
    -2048 ≤ (boundOperand f).toInt ∧ (boundOperand f).toInt ≤ 2047 := by
  rw [boundOperand_toInt]
  have h1 := BitVec.le_toInt f
  have h2 := BitVec.toInt_lt (x := f)
  omega

/-- Truncating division of non-negative numbers is non-decreasing. -/
theorem tdiv_mono {x y k : Int} (hx : 0 ≤ x) (hxy : x ≤ y) (hk : 0 < k) :
    Int.tdiv x k ≤ Int.tdiv y k := by
  rw [Int.tdiv_eq_ediv_of_nonneg hx, Int.tdiv_eq_ediv_of_nonneg (by omega)]
  exact Int.ediv_le_ediv hk hxy

/-- Between ordered bounds, with a divisor above 0, an interpolation lies in the output range
(41_mapper.md R122). -/
theorem interpolate_bounds {v a b c d : Int} (h1 : a ≤ v) (h2 : v ≤ b) (h3 : c ≤ d)
    (h0 : ¬(b - a ≤ d - c ∧ b - a = 0)) :
    c ≤ interpolate v a b c d ∧ interpolate v a b c d ≤ d := by
  unfold interpolate
  dsimp only
  split
  · have hn : 0 ≤ (v - a) * (d - c + 1) := by apply mul_nonneg <;> omega
    rw [Int.tdiv_eq_ediv_of_nonneg hn]
    have hlow := Int.ediv_nonneg hn (show 0 ≤ b - a + 1 by omega)
    have hhigh : (v - a) * (d - c + 1) / (b - a + 1) < d - c + 1 := by
      apply Int.ediv_lt_of_lt_mul (by omega)
      nlinarith
    omega
  · have hn : 0 ≤ (v - a) * (d - c) := by apply mul_nonneg <;> omega
    rw [Int.tdiv_eq_ediv_of_nonneg hn]
    have hlow := Int.ediv_nonneg hn (show 0 ≤ b - a by omega)
    have hhigh : (v - a) * (d - c) / (b - a) ≤ d - c := by
      apply Int.ediv_le_of_le_mul (by omega)
      nlinarith
    omega

/-- What holds when a MAP's checks pass (41_mapper.md R120). -/
theorem mapFault_eq_none {s : State} {a b c d : Int} (h : mapFault s a b c d = none) :
    s.sValid = true ∧ a ≤ b ∧ c ≤ d ∧ ¬(s.S.toInt = a ∧ a = b) := by
  unfold mapFault at h
  split at h
  · cases h
  split at h
  · cases h
  split at h
  · cases h
  refine ⟨by simp_all, by omega, by omega, fun hx => ?_⟩
  omega

/-- A MAP whose checks pass has its value in the output bounds (R122). -/
theorem mapValue_bounds {s : State} {a b c d : Int} (h : mapFault s a b c d = none) :
    c ≤ mapValue s.S.toInt a b c d ∧ mapValue s.S.toInt a b c d ≤ d := by
  obtain ⟨-, hab, hcd, hdiv⟩ := mapFault_eq_none h
  unfold mapValue
  split
  · omega
  split
  · omega
  exact interpolate_bounds (by omega) (by omega) hcd (by omega)

/-- A MAP's checks read S and S_VALID alone. -/
theorem mapFault_congr {s t : State} (h1 : t.sValid = s.sValid) (h2 : t.S = s.S) (a b c d : Int) :
    mapFault t a b c d = mapFault s a b c d := by
  simp [mapFault, h1, h2]

/-- The width with the numbers of 42_pulse.md R140. -/
theorem pulseWidth_eq (angle amin amax : Int) :
    pulseWidth angle amin amax = 535 + Int.tdiv ((angle - amin) * 1815) (amax - amin) := by
  simp [pulseWidth, Config.minPwUs, Config.maxPwUs]

/-- What holds when an EMIT's checks pass (R140). -/
theorem emitFault_eq_none {s : State} {pin : Nat} {angle : Int} (h : emitFault s pin angle = none) :
    pin < s.build.numPins ∧ s.bndValid = true ∧ s.bndOutMax ≠ s.bndOutMin ∧
      0 ≤ pulseWidth angle s.bndOutMin.toInt s.bndOutMax.toInt ∧
      pulseWidth angle s.bndOutMin.toInt s.bndOutMax.toInt ≤ 20000 := by
  unfold emitFault at h
  split at h <;> [cases h; split at h] <;> [cases h; split at h] <;> [cases h; split at h] <;>
    [cases h; split at h] <;> [cases h; skip]
  simp only [Config.refreshUs] at *
  exact ⟨by omega, by simp_all, by assumption, by omega, by omega⟩

/-- A read added to a sum of `k` reads does not wrap (00_scope.md R8). -/
theorem sum_add_read {k : Nat} (v : BitVec 14) (r : RawSample) (hk : k < 11) (h : v.toNat ≤ 1023 * k) :
    (v + r.setWidth 14).toNat = v.toNat + r.toNat := by
  have := r.isLt
  simp [BitVec.toNat_add]
  omega

/-- The average of a sum is a tenth of it, rounded down (40_sampler.md R100). -/
theorem sampleAverage_toNat (v : BitVec 14) : (sampleAverage v).toNat = v.toNat / 10 := by
  have := v.isLt
  simp [sampleAverage, Config.sampleDivisor]
  omega

/-- A wait of a sum is the sum of the waits. -/
theorem ticks_add (b : Config.Build) (m n : Nat) : b.ticks (m + n) = b.ticks m + b.ticks n := by
  simp [Config.Build.ticks, Nat.add_mul]

/-- On a board that meets its constraints a µs has a tick (00_scope.md R7). -/
theorem ticksPerUs_pos {b : Config.Build} (hb : b.wellFormed = true) : 0 < b.ticksPerUs := by
  simp only [Config.Build.wellFormed, decide_eq_true_eq] at hb
  unfold Config.Build.ticksPerUs
  omega

/-- On such a board only the wait of 0 takes no time (20_memory.md R57). -/
theorem ticks_eq_zero {b : Config.Build} (hb : b.wellFormed = true) (n : Nat) :
    b.ticks n = 0 ↔ n = 0 := by
  have := ticksPerUs_pos hb
  simp [Config.Build.ticks]
  omega

end Sys2Proof.Machine
end

