-- ==== Sys2Proof/Laws/Encoding.lean ====
section
/-! SUPPORT. The fields of a command word as numbers, and the words of the commands as sums of their
fields (30_encoding.md R71 to R77): facts about bits become linear arithmetic. -/

namespace Sys2Proof

/-- Concatenation is a sum: the more significant part times a power of two, and the rest. -/
theorem append_toNat {n m : Nat} (x : BitVec n) (y : BitVec m) :
    (x ++ y).toNat = x.toNat * 2 ^ m + y.toNat := by
  rw [BitVec.toNat_append, ← Nat.shiftLeft_add_eq_or_of_lt y.isLt, Nat.shiftLeft_eq]

/-- A field of a word is a quotient and a remainder. -/
theorem field_toNat (w : CommandWord) (s n : Nat) :
    (w.extractLsb' s n).toNat = w.toNat / 2 ^ s % 2 ^ n := by
  rw [BitVec.extractLsb'_toNat, Nat.shiftRight_eq_div_pow]

/-- A field with the number of `v` is `v`. -/
theorem field_eq {n : Nat} (w : CommandWord) (s : Nat) (v : BitVec n)
    (h : w.toNat / 2 ^ s % 2 ^ n = v.toNat) : w.extractLsb' s n = v :=
  BitVec.eq_of_toNat_eq (by rw [field_toNat, h])

/-- The `src` bit of EMIT as a number (R74). -/
theorem bit51_eq (w : CommandWord) : w.getLsbD 51 = decide (w.toNat / 2 ^ 51 % 2 = 1) := by
  rw [BitVec.getLsbD, Nat.testBit_eq_decide_div_mod_eq]

theorem encode_map_toNat (a b c d : Bound12) :
    (encode (.map a b c d)).toNat =
      2 * 2 ^ 60 + a.toNat * 2 ^ 48 + b.toNat * 2 ^ 36 + c.toNat * 2 ^ 24 + d.toNat * 2 ^ 12 := by
  change BitVec.toNat (0x2#4 ++ a ++ b ++ c ++ d ++ 0#12) = _
  simp only [append_toNat, BitVec.toNat_ofNat]
  omega

theorem encode_emitA_toNat (p : PinId) :
    (encode (.emitA p)).toNat = 3 * 2 ^ 60 + p.toNat * 2 ^ 52 := by
  change BitVec.toNat (0x3#4 ++ p ++ 0#1 ++ 0#35 ++ 0#16) = _
  simp only [append_toNat, BitVec.toNat_ofNat]
  omega

theorem encode_emitImm_toNat (p : PinId) (v : Word16) :
    (encode (.emitImm p v)).toNat = 3 * 2 ^ 60 + p.toNat * 2 ^ 52 + 2 ^ 51 + v.toNat := by
  change BitVec.toNat (0x3#4 ++ p ++ 1#1 ++ 0#35 ++ v) = _
  simp only [append_toNat, BitVec.toNat_ofNat]
  omega

theorem encode_init_toNat (e : PinId) :
    (encode (.init e)).toNat = 4 * 2 ^ 60 + e.toNat * 2 ^ 52 := by
  change BitVec.toNat (0x4#4 ++ e ++ 0#52) = _
  simp only [append_toNat, BitVec.toNat_ofNat]
  omega

theorem encode_lds_toNat (v : Word16) : (encode (.lds v)).toNat = 5 * 2 ^ 60 + v.toNat := by
  change BitVec.toNat (0x5#4 ++ 0#44 ++ v) = _
  simp only [append_toNat, BitVec.toNat_ofNat]
  omega

theorem encode_jmp_toNat (v : Word16) : (encode (.jmp v)).toNat = 6 * 2 ^ 60 + v.toNat := by
  change BitVec.toNat (0x6#4 ++ 0#44 ++ v) = _
  simp only [append_toNat, BitVec.toNat_ofNat]
  omega

/-- The bytes of a word in a ROM image are eight (20_memory.md R52). -/
theorem wordBytes_length (w : CommandWord) : (wordBytes w).length = 8 := by simp [wordBytes]

end Sys2Proof
end

