-- ==== Sys2Proof/Laws/State.lean ====
section
/-! SUPPORT. One lemma per field per update, each true by rfl and in the simp set, so that no proof
unfolds a record update. -/

namespace Sys2Proof.Machine

section Updates

/-! ### pinWrite -/

@[simp] theorem pinWrite_S (p : Nat) (l : Bool) (s : State) : (pinWrite p l s).S = s.S := rfl
@[simp] theorem pinWrite_sValid (p : Nat) (l : Bool) (s : State) :
    (pinWrite p l s).sValid = s.sValid := rfl
@[simp] theorem pinWrite_A (p : Nat) (l : Bool) (s : State) : (pinWrite p l s).A = s.A := rfl
@[simp] theorem pinWrite_W (p : Nat) (l : Bool) (s : State) : (pinWrite p l s).W = s.W := rfl
@[simp] theorem pinWrite_bndInMin (p : Nat) (l : Bool) (s : State) :
    (pinWrite p l s).bndInMin = s.bndInMin := rfl
@[simp] theorem pinWrite_bndInMax (p : Nat) (l : Bool) (s : State) :
    (pinWrite p l s).bndInMax = s.bndInMax := rfl
@[simp] theorem pinWrite_bndOutMin (p : Nat) (l : Bool) (s : State) :
    (pinWrite p l s).bndOutMin = s.bndOutMin := rfl
@[simp] theorem pinWrite_bndOutMax (p : Nat) (l : Bool) (s : State) :
    (pinWrite p l s).bndOutMax = s.bndOutMax := rfl
@[simp] theorem pinWrite_bndValid (p : Nat) (l : Bool) (s : State) :
    (pinWrite p l s).bndValid = s.bndValid := rfl
@[simp] theorem pinWrite_pc (p : Nat) (l : Bool) (s : State) : (pinWrite p l s).pc = s.pc := rfl
@[simp] theorem pinWrite_runState (p : Nat) (l : Bool) (s : State) :
    (pinWrite p l s).runState = s.runState := rfl
@[simp] theorem pinWrite_faultCode (p : Nat) (l : Bool) (s : State) :
    (pinWrite p l s).faultCode = s.faultCode := rfl
@[simp] theorem pinWrite_faultPc (p : Nat) (l : Bool) (s : State) :
    (pinWrite p l s).faultPc = s.faultPc := rfl
@[simp] theorem pinWrite_pwOor (p : Nat) (l : Bool) (s : State) :
    (pinWrite p l s).pwOor = s.pwOor := rfl
@[simp] theorem pinWrite_pwmOut (p : Nat) (l : Bool) (s : State) :
    (pinWrite p l s).pwmOut = if l then s.pwmOut ||| pinBit p else s.pwmOut &&& ~~~(pinBit p) := rfl
@[simp] theorem pinWrite_adcReq (p : Nat) (l : Bool) (s : State) :
    (pinWrite p l s).adcReq = s.adcReq := rfl
@[simp] theorem pinWrite_phase (p : Nat) (l : Bool) (s : State) :
    (pinWrite p l s).phase = s.phase := rfl
@[simp] theorem pinWrite_k (p : Nat) (l : Bool) (s : State) : (pinWrite p l s).k = s.k := rfl
@[simp] theorem pinWrite_sum (p : Nat) (l : Bool) (s : State) : (pinWrite p l s).sum = s.sum := rfl
@[simp] theorem pinWrite_curPin (p : Nat) (l : Bool) (s : State) :
    (pinWrite p l s).curPin = s.curPin := rfl
@[simp] theorem pinWrite_frame (p : Nat) (l : Bool) (s : State) :
    (pinWrite p l s).frame = s.frame := rfl
@[simp] theorem pinWrite_remaining (p : Nat) (l : Bool) (s : State) :
    (pinWrite p l s).remaining = s.remaining := rfl
@[simp] theorem pinWrite_adcPending (p : Nat) (l : Bool) (s : State) :
    (pinWrite p l s).adcPending = s.adcPending := rfl
@[simp] theorem pinWrite_rom (p : Nat) (l : Bool) (s : State) : (pinWrite p l s).rom = s.rom := rfl
@[simp] theorem pinWrite_build (p : Nat) (l : Bool) (s : State) :
    (pinWrite p l s).build = s.build := rfl
@[simp] theorem pinWrite_adc (p : Nat) (l : Bool) (s : State) : (pinWrite p l s).adc = s.adc := rfl
@[simp] theorem pinWrite_resets (p : Nat) (l : Bool) (s : State) :
    (pinWrite p l s).resets = s.resets := rfl
@[simp] theorem pinWrite_rstN (p : Nat) (l : Bool) (s : State) :
    (pinWrite p l s).rstN = s.rstN := rfl
@[simp] theorem pinWrite_dispatched (p : Nat) (l : Bool) (s : State) :
    (pinWrite p l s).dispatched = s.dispatched := rfl
@[simp] theorem pinWrite_now (p : Nat) (l : Bool) (s : State) : (pinWrite p l s).now = s.now := rfl
@[simp] theorem pinWrite_trace (p : Nat) (l : Bool) (s : State) :
    (pinWrite p l s).trace =
      if s.pwmOut.getLsbD p = l then s.trace else .pin s.now p l :: s.trace := rfl

/-! ### elapse -/

@[simp] theorem elapse_S (n : Nat) (s : State) : (elapse n s).S = s.S := rfl
@[simp] theorem elapse_sValid (n : Nat) (s : State) : (elapse n s).sValid = s.sValid := rfl
@[simp] theorem elapse_A (n : Nat) (s : State) : (elapse n s).A = s.A := rfl
@[simp] theorem elapse_W (n : Nat) (s : State) : (elapse n s).W = s.W := rfl
@[simp] theorem elapse_bndInMin (n : Nat) (s : State) : (elapse n s).bndInMin = s.bndInMin := rfl
@[simp] theorem elapse_bndInMax (n : Nat) (s : State) : (elapse n s).bndInMax = s.bndInMax := rfl
@[simp] theorem elapse_bndOutMin (n : Nat) (s : State) :
    (elapse n s).bndOutMin = s.bndOutMin := rfl
@[simp] theorem elapse_bndOutMax (n : Nat) (s : State) :
    (elapse n s).bndOutMax = s.bndOutMax := rfl
@[simp] theorem elapse_bndValid (n : Nat) (s : State) : (elapse n s).bndValid = s.bndValid := rfl
@[simp] theorem elapse_pc (n : Nat) (s : State) : (elapse n s).pc = s.pc := rfl
@[simp] theorem elapse_runState (n : Nat) (s : State) : (elapse n s).runState = s.runState := rfl
@[simp] theorem elapse_faultCode (n : Nat) (s : State) :
    (elapse n s).faultCode = s.faultCode := rfl
@[simp] theorem elapse_faultPc (n : Nat) (s : State) : (elapse n s).faultPc = s.faultPc := rfl
@[simp] theorem elapse_pwOor (n : Nat) (s : State) : (elapse n s).pwOor = s.pwOor := rfl
@[simp] theorem elapse_pwmOut (n : Nat) (s : State) : (elapse n s).pwmOut = s.pwmOut := rfl
@[simp] theorem elapse_adcReq (n : Nat) (s : State) :
    (elapse n s).adcReq = (s.adcReq && decide (n = 0)) := rfl
@[simp] theorem elapse_phase (n : Nat) (s : State) : (elapse n s).phase = s.phase := rfl
@[simp] theorem elapse_k (n : Nat) (s : State) : (elapse n s).k = s.k := rfl
@[simp] theorem elapse_sum (n : Nat) (s : State) : (elapse n s).sum = s.sum := rfl
@[simp] theorem elapse_curPin (n : Nat) (s : State) : (elapse n s).curPin = s.curPin := rfl
@[simp] theorem elapse_frame (n : Nat) (s : State) : (elapse n s).frame = s.frame := rfl
@[simp] theorem elapse_remaining (n : Nat) (s : State) :
    (elapse n s).remaining = s.remaining := rfl
@[simp] theorem elapse_adcPending (n : Nat) (s : State) :
    (elapse n s).adcPending = s.adcPending := rfl
@[simp] theorem elapse_rom (n : Nat) (s : State) : (elapse n s).rom = s.rom := rfl
@[simp] theorem elapse_build (n : Nat) (s : State) : (elapse n s).build = s.build := rfl
@[simp] theorem elapse_adc (n : Nat) (s : State) : (elapse n s).adc = s.adc := rfl
@[simp] theorem elapse_resets (n : Nat) (s : State) : (elapse n s).resets = s.resets := rfl
@[simp] theorem elapse_rstN (n : Nat) (s : State) : (elapse n s).rstN = s.rstN := rfl
@[simp] theorem elapse_dispatched (n : Nat) (s : State) :
    (elapse n s).dispatched = s.dispatched := rfl
@[simp] theorem elapse_now (n : Nat) (s : State) : (elapse n s).now = s.now + n := rfl
@[simp] theorem elapse_trace (n : Nat) (s : State) : (elapse n s).trace = s.trace := rfl

/-! ### beginWait -/

@[simp] theorem beginWait_S (ph : Phase) (us : Nat) (s : State) :
    (beginWait ph us s).S = s.S := rfl
@[simp] theorem beginWait_sValid (ph : Phase) (us : Nat) (s : State) :
    (beginWait ph us s).sValid = s.sValid := rfl
@[simp] theorem beginWait_A (ph : Phase) (us : Nat) (s : State) :
    (beginWait ph us s).A = s.A := rfl
@[simp] theorem beginWait_W (ph : Phase) (us : Nat) (s : State) :
    (beginWait ph us s).W = s.W := rfl
@[simp] theorem beginWait_bndInMin (ph : Phase) (us : Nat) (s : State) :
    (beginWait ph us s).bndInMin = s.bndInMin := rfl
@[simp] theorem beginWait_bndInMax (ph : Phase) (us : Nat) (s : State) :
    (beginWait ph us s).bndInMax = s.bndInMax := rfl
@[simp] theorem beginWait_bndOutMin (ph : Phase) (us : Nat) (s : State) :
    (beginWait ph us s).bndOutMin = s.bndOutMin := rfl
@[simp] theorem beginWait_bndOutMax (ph : Phase) (us : Nat) (s : State) :
    (beginWait ph us s).bndOutMax = s.bndOutMax := rfl
@[simp] theorem beginWait_bndValid (ph : Phase) (us : Nat) (s : State) :
    (beginWait ph us s).bndValid = s.bndValid := rfl
@[simp] theorem beginWait_pc (ph : Phase) (us : Nat) (s : State) :
    (beginWait ph us s).pc = s.pc := rfl
@[simp] theorem beginWait_runState (ph : Phase) (us : Nat) (s : State) :
    (beginWait ph us s).runState = s.runState := rfl
@[simp] theorem beginWait_faultCode (ph : Phase) (us : Nat) (s : State) :
    (beginWait ph us s).faultCode = s.faultCode := rfl
@[simp] theorem beginWait_faultPc (ph : Phase) (us : Nat) (s : State) :
    (beginWait ph us s).faultPc = s.faultPc := rfl
@[simp] theorem beginWait_pwOor (ph : Phase) (us : Nat) (s : State) :
    (beginWait ph us s).pwOor = s.pwOor := rfl
@[simp] theorem beginWait_pwmOut (ph : Phase) (us : Nat) (s : State) :
    (beginWait ph us s).pwmOut = s.pwmOut := rfl
@[simp] theorem beginWait_adcReq (ph : Phase) (us : Nat) (s : State) :
    (beginWait ph us s).adcReq = s.adcReq := rfl
@[simp] theorem beginWait_phase (ph : Phase) (us : Nat) (s : State) :
    (beginWait ph us s).phase = ph := rfl
@[simp] theorem beginWait_k (ph : Phase) (us : Nat) (s : State) :
    (beginWait ph us s).k = s.k := rfl
@[simp] theorem beginWait_sum (ph : Phase) (us : Nat) (s : State) :
    (beginWait ph us s).sum = s.sum := rfl
@[simp] theorem beginWait_curPin (ph : Phase) (us : Nat) (s : State) :
    (beginWait ph us s).curPin = s.curPin := rfl
@[simp] theorem beginWait_frame (ph : Phase) (us : Nat) (s : State) :
    (beginWait ph us s).frame = s.frame := rfl
@[simp] theorem beginWait_remaining (ph : Phase) (us : Nat) (s : State) :
    (beginWait ph us s).remaining = s.build.ticks us := rfl
@[simp] theorem beginWait_adcPending (ph : Phase) (us : Nat) (s : State) :
    (beginWait ph us s).adcPending = s.adcPending := rfl
@[simp] theorem beginWait_rom (ph : Phase) (us : Nat) (s : State) :
    (beginWait ph us s).rom = s.rom := rfl
@[simp] theorem beginWait_build (ph : Phase) (us : Nat) (s : State) :
    (beginWait ph us s).build = s.build := rfl
@[simp] theorem beginWait_adc (ph : Phase) (us : Nat) (s : State) :
    (beginWait ph us s).adc = s.adc := rfl
@[simp] theorem beginWait_resets (ph : Phase) (us : Nat) (s : State) :
    (beginWait ph us s).resets = s.resets := rfl
@[simp] theorem beginWait_rstN (ph : Phase) (us : Nat) (s : State) :
    (beginWait ph us s).rstN = s.rstN := rfl
@[simp] theorem beginWait_dispatched (ph : Phase) (us : Nat) (s : State) :
    (beginWait ph us s).dispatched = s.dispatched := rfl
@[simp] theorem beginWait_now (ph : Phase) (us : Nat) (s : State) :
    (beginWait ph us s).now = s.now := rfl
@[simp] theorem beginWait_trace (ph : Phase) (us : Nat) (s : State) :
    (beginWait ph us s).trace = s.trace := rfl

/-! ### adcRequest -/

@[simp] theorem adcRequest_S (s : State) : (adcRequest s).S = s.S := rfl
@[simp] theorem adcRequest_sValid (s : State) : (adcRequest s).sValid = s.sValid := rfl
@[simp] theorem adcRequest_A (s : State) : (adcRequest s).A = s.A := rfl
@[simp] theorem adcRequest_W (s : State) : (adcRequest s).W = s.W := rfl
@[simp] theorem adcRequest_bndInMin (s : State) : (adcRequest s).bndInMin = s.bndInMin := rfl
@[simp] theorem adcRequest_bndInMax (s : State) : (adcRequest s).bndInMax = s.bndInMax := rfl
@[simp] theorem adcRequest_bndOutMin (s : State) : (adcRequest s).bndOutMin = s.bndOutMin := rfl
@[simp] theorem adcRequest_bndOutMax (s : State) : (adcRequest s).bndOutMax = s.bndOutMax := rfl
@[simp] theorem adcRequest_bndValid (s : State) : (adcRequest s).bndValid = s.bndValid := rfl
@[simp] theorem adcRequest_pc (s : State) : (adcRequest s).pc = s.pc := rfl
@[simp] theorem adcRequest_runState (s : State) : (adcRequest s).runState = s.runState := rfl
@[simp] theorem adcRequest_faultCode (s : State) : (adcRequest s).faultCode = s.faultCode := rfl
@[simp] theorem adcRequest_faultPc (s : State) : (adcRequest s).faultPc = s.faultPc := rfl
@[simp] theorem adcRequest_pwOor (s : State) : (adcRequest s).pwOor = s.pwOor := rfl
@[simp] theorem adcRequest_pwmOut (s : State) : (adcRequest s).pwmOut = s.pwmOut := rfl
@[simp] theorem adcRequest_adcReq (s : State) : (adcRequest s).adcReq = true := rfl
@[simp] theorem adcRequest_phase (s : State) : (adcRequest s).phase = .sampleRead := rfl
@[simp] theorem adcRequest_k (s : State) : (adcRequest s).k = s.k := rfl
@[simp] theorem adcRequest_sum (s : State) : (adcRequest s).sum = s.sum := rfl
@[simp] theorem adcRequest_curPin (s : State) : (adcRequest s).curPin = s.curPin := rfl
@[simp] theorem adcRequest_frame (s : State) : (adcRequest s).frame = s.frame := rfl
@[simp] theorem adcRequest_remaining (s : State) : (adcRequest s).remaining = s.remaining := rfl
@[simp] theorem adcRequest_adcPending (s : State) : (adcRequest s).adcPending = true := rfl
@[simp] theorem adcRequest_rom (s : State) : (adcRequest s).rom = s.rom := rfl
@[simp] theorem adcRequest_build (s : State) : (adcRequest s).build = s.build := rfl
@[simp] theorem adcRequest_adc (s : State) : (adcRequest s).adc = s.adc := rfl
@[simp] theorem adcRequest_resets (s : State) : (adcRequest s).resets = s.resets := rfl
@[simp] theorem adcRequest_rstN (s : State) : (adcRequest s).rstN = s.rstN := rfl
@[simp] theorem adcRequest_dispatched (s : State) : (adcRequest s).dispatched = s.dispatched := rfl
@[simp] theorem adcRequest_now (s : State) : (adcRequest s).now = s.now := rfl
@[simp] theorem adcRequest_trace (s : State) :
    (adcRequest s).trace = .request s.now s.build.adcChannel :: s.trace := rfl

/-! ### adcAnswered -/

@[simp] theorem adcAnswered_S (r : RawSample) (s : State) : (adcAnswered r s).S = s.S := rfl
@[simp] theorem adcAnswered_sValid (r : RawSample) (s : State) :
    (adcAnswered r s).sValid = s.sValid := rfl
@[simp] theorem adcAnswered_A (r : RawSample) (s : State) : (adcAnswered r s).A = s.A := rfl
@[simp] theorem adcAnswered_W (r : RawSample) (s : State) : (adcAnswered r s).W = s.W := rfl
@[simp] theorem adcAnswered_bndInMin (r : RawSample) (s : State) :
    (adcAnswered r s).bndInMin = s.bndInMin := rfl
@[simp] theorem adcAnswered_bndInMax (r : RawSample) (s : State) :
    (adcAnswered r s).bndInMax = s.bndInMax := rfl
@[simp] theorem adcAnswered_bndOutMin (r : RawSample) (s : State) :
    (adcAnswered r s).bndOutMin = s.bndOutMin := rfl
@[simp] theorem adcAnswered_bndOutMax (r : RawSample) (s : State) :
    (adcAnswered r s).bndOutMax = s.bndOutMax := rfl
@[simp] theorem adcAnswered_bndValid (r : RawSample) (s : State) :
    (adcAnswered r s).bndValid = s.bndValid := rfl
@[simp] theorem adcAnswered_pc (r : RawSample) (s : State) : (adcAnswered r s).pc = s.pc := rfl
@[simp] theorem adcAnswered_runState (r : RawSample) (s : State) :
    (adcAnswered r s).runState = s.runState := rfl
@[simp] theorem adcAnswered_faultCode (r : RawSample) (s : State) :
    (adcAnswered r s).faultCode = s.faultCode := rfl
@[simp] theorem adcAnswered_faultPc (r : RawSample) (s : State) :
    (adcAnswered r s).faultPc = s.faultPc := rfl
@[simp] theorem adcAnswered_pwOor (r : RawSample) (s : State) :
    (adcAnswered r s).pwOor = s.pwOor := rfl
@[simp] theorem adcAnswered_pwmOut (r : RawSample) (s : State) :
    (adcAnswered r s).pwmOut = s.pwmOut := rfl
@[simp] theorem adcAnswered_adcReq (r : RawSample) (s : State) :
    (adcAnswered r s).adcReq = s.adcReq := rfl
@[simp] theorem adcAnswered_phase (r : RawSample) (s : State) :
    (adcAnswered r s).phase = .sampleSettle := rfl
@[simp] theorem adcAnswered_k (r : RawSample) (s : State) : (adcAnswered r s).k = s.k := rfl
@[simp] theorem adcAnswered_sum (r : RawSample) (s : State) :
    (adcAnswered r s).sum = s.sum + r.setWidth 14 := rfl
@[simp] theorem adcAnswered_curPin (r : RawSample) (s : State) :
    (adcAnswered r s).curPin = s.curPin := rfl
@[simp] theorem adcAnswered_frame (r : RawSample) (s : State) :
    (adcAnswered r s).frame = s.frame := rfl
@[simp] theorem adcAnswered_remaining (r : RawSample) (s : State) :
    (adcAnswered r s).remaining = s.build.ticks Config.sampleSettleUs := rfl
@[simp] theorem adcAnswered_adcPending (r : RawSample) (s : State) :
    (adcAnswered r s).adcPending = false := rfl
@[simp] theorem adcAnswered_rom (r : RawSample) (s : State) : (adcAnswered r s).rom = s.rom := rfl
@[simp] theorem adcAnswered_build (r : RawSample) (s : State) :
    (adcAnswered r s).build = s.build := rfl
@[simp] theorem adcAnswered_adc (r : RawSample) (s : State) : (adcAnswered r s).adc = s.adc := rfl
@[simp] theorem adcAnswered_resets (r : RawSample) (s : State) :
    (adcAnswered r s).resets = s.resets := rfl
@[simp] theorem adcAnswered_rstN (r : RawSample) (s : State) :
    (adcAnswered r s).rstN = s.rstN := rfl
@[simp] theorem adcAnswered_dispatched (r : RawSample) (s : State) :
    (adcAnswered r s).dispatched = s.dispatched := rfl
@[simp] theorem adcAnswered_now (r : RawSample) (s : State) : (adcAnswered r s).now = s.now := rfl
@[simp] theorem adcAnswered_trace (r : RawSample) (s : State) :
    (adcAnswered r s).trace = s.trace := rfl

/-! ### complete -/

@[simp] theorem complete_S (s : State) : (complete s).S = s.S := rfl
@[simp] theorem complete_sValid (s : State) : (complete s).sValid = s.sValid := rfl
@[simp] theorem complete_A (s : State) : (complete s).A = s.A := rfl
@[simp] theorem complete_W (s : State) : (complete s).W = s.W := rfl
@[simp] theorem complete_bndInMin (s : State) : (complete s).bndInMin = s.bndInMin := rfl
@[simp] theorem complete_bndInMax (s : State) : (complete s).bndInMax = s.bndInMax := rfl
@[simp] theorem complete_bndOutMin (s : State) : (complete s).bndOutMin = s.bndOutMin := rfl
@[simp] theorem complete_bndOutMax (s : State) : (complete s).bndOutMax = s.bndOutMax := rfl
@[simp] theorem complete_bndValid (s : State) : (complete s).bndValid = s.bndValid := rfl
@[simp] theorem complete_pc (s : State) : (complete s).pc = s.pc + 1 := rfl
@[simp] theorem complete_runState (s : State) : (complete s).runState = s.runState := rfl
@[simp] theorem complete_faultCode (s : State) : (complete s).faultCode = s.faultCode := rfl
@[simp] theorem complete_faultPc (s : State) : (complete s).faultPc = s.faultPc := rfl
@[simp] theorem complete_pwOor (s : State) : (complete s).pwOor = s.pwOor := rfl
@[simp] theorem complete_pwmOut (s : State) : (complete s).pwmOut = s.pwmOut := rfl
@[simp] theorem complete_adcReq (s : State) : (complete s).adcReq = s.adcReq := rfl
@[simp] theorem complete_phase (s : State) : (complete s).phase = .fetch := rfl
@[simp] theorem complete_k (s : State) : (complete s).k = s.k := rfl
@[simp] theorem complete_sum (s : State) : (complete s).sum = s.sum := rfl
@[simp] theorem complete_curPin (s : State) : (complete s).curPin = s.curPin := rfl
@[simp] theorem complete_frame (s : State) : (complete s).frame = s.frame := rfl
@[simp] theorem complete_remaining (s : State) : (complete s).remaining = 0 := rfl
@[simp] theorem complete_adcPending (s : State) : (complete s).adcPending = s.adcPending := rfl
@[simp] theorem complete_rom (s : State) : (complete s).rom = s.rom := rfl
@[simp] theorem complete_build (s : State) : (complete s).build = s.build := rfl
@[simp] theorem complete_adc (s : State) : (complete s).adc = s.adc := rfl
@[simp] theorem complete_resets (s : State) : (complete s).resets = s.resets := rfl
@[simp] theorem complete_rstN (s : State) : (complete s).rstN = s.rstN := rfl
@[simp] theorem complete_dispatched (s : State) : (complete s).dispatched = 0 := rfl
@[simp] theorem complete_now (s : State) : (complete s).now = s.now := rfl
@[simp] theorem complete_trace (s : State) : (complete s).trace = s.trace := rfl

/-! ### faultEntry -/

@[simp] theorem faultEntry_S (c : FaultCode) (s : State) : (faultEntry c s).S = s.S := rfl
@[simp] theorem faultEntry_sValid (c : FaultCode) (s : State) :
    (faultEntry c s).sValid = s.sValid := rfl
@[simp] theorem faultEntry_A (c : FaultCode) (s : State) : (faultEntry c s).A = s.A := rfl
@[simp] theorem faultEntry_W (c : FaultCode) (s : State) : (faultEntry c s).W = s.W := rfl
@[simp] theorem faultEntry_bndInMin (c : FaultCode) (s : State) :
    (faultEntry c s).bndInMin = s.bndInMin := rfl
@[simp] theorem faultEntry_bndInMax (c : FaultCode) (s : State) :
    (faultEntry c s).bndInMax = s.bndInMax := rfl
@[simp] theorem faultEntry_bndOutMin (c : FaultCode) (s : State) :
    (faultEntry c s).bndOutMin = s.bndOutMin := rfl
@[simp] theorem faultEntry_bndOutMax (c : FaultCode) (s : State) :
    (faultEntry c s).bndOutMax = s.bndOutMax := rfl
@[simp] theorem faultEntry_bndValid (c : FaultCode) (s : State) :
    (faultEntry c s).bndValid = s.bndValid := rfl
@[simp] theorem faultEntry_pc (c : FaultCode) (s : State) : (faultEntry c s).pc = s.pc := rfl
@[simp] theorem faultEntry_runState (c : FaultCode) (s : State) :
    (faultEntry c s).runState = .faulted := rfl
@[simp] theorem faultEntry_faultCode (c : FaultCode) (s : State) :
    (faultEntry c s).faultCode = c := rfl
@[simp] theorem faultEntry_faultPc (c : FaultCode) (s : State) :
    (faultEntry c s).faultPc = s.pc := rfl
@[simp] theorem faultEntry_pwOor (c : FaultCode) (s : State) :
    (faultEntry c s).pwOor = s.pwOor := rfl
@[simp] theorem faultEntry_pwmOut (c : FaultCode) (s : State) : (faultEntry c s).pwmOut = 0 := rfl
@[simp] theorem faultEntry_adcReq (c : FaultCode) (s : State) :
    (faultEntry c s).adcReq = s.adcReq := rfl
@[simp] theorem faultEntry_phase (c : FaultCode) (s : State) :
    (faultEntry c s).phase = .fetch := rfl
@[simp] theorem faultEntry_k (c : FaultCode) (s : State) : (faultEntry c s).k = 0 := rfl
@[simp] theorem faultEntry_sum (c : FaultCode) (s : State) : (faultEntry c s).sum = 0 := rfl
@[simp] theorem faultEntry_curPin (c : FaultCode) (s : State) : (faultEntry c s).curPin = 0 := rfl
@[simp] theorem faultEntry_frame (c : FaultCode) (s : State) : (faultEntry c s).frame = 0 := rfl
@[simp] theorem faultEntry_remaining (c : FaultCode) (s : State) :
    (faultEntry c s).remaining = 0 := rfl
@[simp] theorem faultEntry_adcPending (c : FaultCode) (s : State) :
    (faultEntry c s).adcPending = false := rfl
@[simp] theorem faultEntry_rom (c : FaultCode) (s : State) : (faultEntry c s).rom = s.rom := rfl
@[simp] theorem faultEntry_build (c : FaultCode) (s : State) :
    (faultEntry c s).build = s.build := rfl
@[simp] theorem faultEntry_adc (c : FaultCode) (s : State) : (faultEntry c s).adc = s.adc := rfl
@[simp] theorem faultEntry_resets (c : FaultCode) (s : State) :
    (faultEntry c s).resets = s.resets := rfl
@[simp] theorem faultEntry_rstN (c : FaultCode) (s : State) : (faultEntry c s).rstN = s.rstN := rfl
@[simp] theorem faultEntry_dispatched (c : FaultCode) (s : State) :
    (faultEntry c s).dispatched = s.dispatched := rfl
@[simp] theorem faultEntry_now (c : FaultCode) (s : State) : (faultEntry c s).now = s.now := rfl
@[simp] theorem faultEntry_trace (c : FaultCode) (s : State) :
    (faultEntry c s).trace = dropEdges s := rfl

/-! ### resetAction -/

@[simp] theorem resetAction_S (s : State) : (resetAction s).S = 0 := rfl
@[simp] theorem resetAction_sValid (s : State) : (resetAction s).sValid = false := rfl
@[simp] theorem resetAction_A (s : State) : (resetAction s).A = 0 := rfl
@[simp] theorem resetAction_W (s : State) : (resetAction s).W = 0 := rfl
@[simp] theorem resetAction_bndInMin (s : State) : (resetAction s).bndInMin = 0 := rfl
@[simp] theorem resetAction_bndInMax (s : State) : (resetAction s).bndInMax = 0 := rfl
@[simp] theorem resetAction_bndOutMin (s : State) : (resetAction s).bndOutMin = 0 := rfl
@[simp] theorem resetAction_bndOutMax (s : State) : (resetAction s).bndOutMax = 0 := rfl
@[simp] theorem resetAction_bndValid (s : State) : (resetAction s).bndValid = false := rfl
@[simp] theorem resetAction_pc (s : State) : (resetAction s).pc = 0 := rfl
@[simp] theorem resetAction_runState (s : State) : (resetAction s).runState = .reset := rfl
@[simp] theorem resetAction_faultCode (s : State) : (resetAction s).faultCode = .none := rfl
@[simp] theorem resetAction_faultPc (s : State) : (resetAction s).faultPc = 0 := rfl
@[simp] theorem resetAction_pwOor (s : State) : (resetAction s).pwOor = false := rfl
@[simp] theorem resetAction_pwmOut (s : State) : (resetAction s).pwmOut = 0 := rfl
@[simp] theorem resetAction_adcReq (s : State) : (resetAction s).adcReq = false := rfl
@[simp] theorem resetAction_phase (s : State) : (resetAction s).phase = .fetch := rfl
@[simp] theorem resetAction_k (s : State) : (resetAction s).k = 0 := rfl
@[simp] theorem resetAction_sum (s : State) : (resetAction s).sum = 0 := rfl
@[simp] theorem resetAction_curPin (s : State) : (resetAction s).curPin = 0 := rfl
@[simp] theorem resetAction_frame (s : State) : (resetAction s).frame = 0 := rfl
@[simp] theorem resetAction_remaining (s : State) : (resetAction s).remaining = 0 := rfl
@[simp] theorem resetAction_adcPending (s : State) : (resetAction s).adcPending = false := rfl
@[simp] theorem resetAction_rom (s : State) : (resetAction s).rom = s.rom := rfl
@[simp] theorem resetAction_build (s : State) : (resetAction s).build = s.build := rfl
@[simp] theorem resetAction_adc (s : State) : (resetAction s).adc = s.adc := rfl
@[simp] theorem resetAction_resets (s : State) : (resetAction s).resets = s.resets := rfl
@[simp] theorem resetAction_rstN (s : State) : (resetAction s).rstN = s.rstN := rfl
@[simp] theorem resetAction_dispatched (s : State) : (resetAction s).dispatched = 0 := rfl
@[simp] theorem resetAction_now (s : State) : (resetAction s).now = s.now := rfl
@[simp] theorem resetAction_trace (s : State) : (resetAction s).trace = dropEdges s := rfl

/-! ### resetRelease -/

@[simp] theorem resetRelease_S (s : State) : (resetRelease s).S = s.S := rfl
@[simp] theorem resetRelease_sValid (s : State) : (resetRelease s).sValid = s.sValid := rfl
@[simp] theorem resetRelease_A (s : State) : (resetRelease s).A = s.A := rfl
@[simp] theorem resetRelease_W (s : State) : (resetRelease s).W = s.W := rfl
@[simp] theorem resetRelease_bndInMin (s : State) : (resetRelease s).bndInMin = s.bndInMin := rfl
@[simp] theorem resetRelease_bndInMax (s : State) : (resetRelease s).bndInMax = s.bndInMax := rfl
@[simp] theorem resetRelease_bndOutMin (s : State) :
    (resetRelease s).bndOutMin = s.bndOutMin := rfl
@[simp] theorem resetRelease_bndOutMax (s : State) :
    (resetRelease s).bndOutMax = s.bndOutMax := rfl
@[simp] theorem resetRelease_bndValid (s : State) : (resetRelease s).bndValid = s.bndValid := rfl
@[simp] theorem resetRelease_pc (s : State) : (resetRelease s).pc = s.pc := rfl
@[simp] theorem resetRelease_runState (s : State) : (resetRelease s).runState = .run := rfl
@[simp] theorem resetRelease_faultCode (s : State) :
    (resetRelease s).faultCode = s.faultCode := rfl
@[simp] theorem resetRelease_faultPc (s : State) : (resetRelease s).faultPc = s.faultPc := rfl
@[simp] theorem resetRelease_pwOor (s : State) : (resetRelease s).pwOor = s.pwOor := rfl
@[simp] theorem resetRelease_pwmOut (s : State) : (resetRelease s).pwmOut = s.pwmOut := rfl
@[simp] theorem resetRelease_adcReq (s : State) : (resetRelease s).adcReq = s.adcReq := rfl
@[simp] theorem resetRelease_phase (s : State) : (resetRelease s).phase = s.phase := rfl
@[simp] theorem resetRelease_k (s : State) : (resetRelease s).k = s.k := rfl
@[simp] theorem resetRelease_sum (s : State) : (resetRelease s).sum = s.sum := rfl
@[simp] theorem resetRelease_curPin (s : State) : (resetRelease s).curPin = s.curPin := rfl
@[simp] theorem resetRelease_frame (s : State) : (resetRelease s).frame = s.frame := rfl
@[simp] theorem resetRelease_remaining (s : State) :
    (resetRelease s).remaining = s.remaining := rfl
@[simp] theorem resetRelease_adcPending (s : State) :
    (resetRelease s).adcPending = s.adcPending := rfl
@[simp] theorem resetRelease_rom (s : State) : (resetRelease s).rom = s.rom := rfl
@[simp] theorem resetRelease_build (s : State) : (resetRelease s).build = s.build := rfl
@[simp] theorem resetRelease_adc (s : State) : (resetRelease s).adc = s.adc := rfl
@[simp] theorem resetRelease_resets (s : State) : (resetRelease s).resets = s.resets := rfl
@[simp] theorem resetRelease_rstN (s : State) : (resetRelease s).rstN = s.rstN := rfl
@[simp] theorem resetRelease_dispatched (s : State) : (resetRelease s).dispatched = 0 := rfl
@[simp] theorem resetRelease_now (s : State) : (resetRelease s).now = 0 := rfl
@[simp] theorem resetRelease_trace (s : State) : (resetRelease s).trace = [] := rfl

/-! ### dispatchDone -/

@[simp] theorem dispatchDone_S (s : State) : (dispatchDone s).S = s.S := rfl
@[simp] theorem dispatchDone_sValid (s : State) : (dispatchDone s).sValid = s.sValid := rfl
@[simp] theorem dispatchDone_A (s : State) : (dispatchDone s).A = s.A := rfl
@[simp] theorem dispatchDone_W (s : State) : (dispatchDone s).W = s.W := rfl
@[simp] theorem dispatchDone_bndInMin (s : State) : (dispatchDone s).bndInMin = s.bndInMin := rfl
@[simp] theorem dispatchDone_bndInMax (s : State) : (dispatchDone s).bndInMax = s.bndInMax := rfl
@[simp] theorem dispatchDone_bndOutMin (s : State) :
    (dispatchDone s).bndOutMin = s.bndOutMin := rfl
@[simp] theorem dispatchDone_bndOutMax (s : State) :
    (dispatchDone s).bndOutMax = s.bndOutMax := rfl
@[simp] theorem dispatchDone_bndValid (s : State) : (dispatchDone s).bndValid = s.bndValid := rfl
@[simp] theorem dispatchDone_pc (s : State) : (dispatchDone s).pc = s.pc := rfl
@[simp] theorem dispatchDone_runState (s : State) : (dispatchDone s).runState = s.runState := rfl
@[simp] theorem dispatchDone_faultCode (s : State) :
    (dispatchDone s).faultCode = s.faultCode := rfl
@[simp] theorem dispatchDone_faultPc (s : State) : (dispatchDone s).faultPc = s.faultPc := rfl
@[simp] theorem dispatchDone_pwOor (s : State) : (dispatchDone s).pwOor = s.pwOor := rfl
@[simp] theorem dispatchDone_pwmOut (s : State) : (dispatchDone s).pwmOut = s.pwmOut := rfl
@[simp] theorem dispatchDone_adcReq (s : State) :
    (dispatchDone s).adcReq =
      (s.adcReq && decide (s.build.dispatchCycles - s.dispatched = 0)) := rfl
@[simp] theorem dispatchDone_phase (s : State) : (dispatchDone s).phase = s.phase := rfl
@[simp] theorem dispatchDone_k (s : State) : (dispatchDone s).k = s.k := rfl
@[simp] theorem dispatchDone_sum (s : State) : (dispatchDone s).sum = s.sum := rfl
@[simp] theorem dispatchDone_curPin (s : State) : (dispatchDone s).curPin = s.curPin := rfl
@[simp] theorem dispatchDone_frame (s : State) : (dispatchDone s).frame = s.frame := rfl
@[simp] theorem dispatchDone_remaining (s : State) :
    (dispatchDone s).remaining = s.remaining := rfl
@[simp] theorem dispatchDone_adcPending (s : State) :
    (dispatchDone s).adcPending = s.adcPending := rfl
@[simp] theorem dispatchDone_rom (s : State) : (dispatchDone s).rom = s.rom := rfl
@[simp] theorem dispatchDone_build (s : State) : (dispatchDone s).build = s.build := rfl
@[simp] theorem dispatchDone_adc (s : State) : (dispatchDone s).adc = s.adc := rfl
@[simp] theorem dispatchDone_resets (s : State) : (dispatchDone s).resets = s.resets := rfl
@[simp] theorem dispatchDone_rstN (s : State) : (dispatchDone s).rstN = s.rstN := rfl
@[simp] theorem dispatchDone_dispatched (s : State) : (dispatchDone s).dispatched = 0 := rfl
@[simp] theorem dispatchDone_now (s : State) :
    (dispatchDone s).now = s.now + (s.build.dispatchCycles - s.dispatched) := rfl
@[simp] theorem dispatchDone_trace (s : State) : (dispatchDone s).trace = s.trace := rfl

/-! ### storeMapping -/

@[simp] theorem storeMapping_S (a b c d : Word16) (s : State) :
    (storeMapping a b c d s).S = s.S := rfl
@[simp] theorem storeMapping_sValid (a b c d : Word16) (s : State) :
    (storeMapping a b c d s).sValid = s.sValid := rfl
@[simp] theorem storeMapping_A (a b c d : Word16) (s : State) :
    (storeMapping a b c d s).A =
      BitVec.ofInt 16 (mapValue s.S.toInt a.toInt b.toInt c.toInt d.toInt) := rfl
@[simp] theorem storeMapping_W (a b c d : Word16) (s : State) :
    (storeMapping a b c d s).W = s.W := rfl
@[simp] theorem storeMapping_bndInMin (a b c d : Word16) (s : State) :
    (storeMapping a b c d s).bndInMin = a := rfl
@[simp] theorem storeMapping_bndInMax (a b c d : Word16) (s : State) :
    (storeMapping a b c d s).bndInMax = b := rfl
@[simp] theorem storeMapping_bndOutMin (a b c d : Word16) (s : State) :
    (storeMapping a b c d s).bndOutMin = c := rfl
@[simp] theorem storeMapping_bndOutMax (a b c d : Word16) (s : State) :
    (storeMapping a b c d s).bndOutMax = d := rfl
@[simp] theorem storeMapping_bndValid (a b c d : Word16) (s : State) :
    (storeMapping a b c d s).bndValid = true := rfl
@[simp] theorem storeMapping_pc (a b c d : Word16) (s : State) :
    (storeMapping a b c d s).pc = s.pc := rfl
@[simp] theorem storeMapping_runState (a b c d : Word16) (s : State) :
    (storeMapping a b c d s).runState = s.runState := rfl
@[simp] theorem storeMapping_faultCode (a b c d : Word16) (s : State) :
    (storeMapping a b c d s).faultCode = s.faultCode := rfl
@[simp] theorem storeMapping_faultPc (a b c d : Word16) (s : State) :
    (storeMapping a b c d s).faultPc = s.faultPc := rfl
@[simp] theorem storeMapping_pwOor (a b c d : Word16) (s : State) :
    (storeMapping a b c d s).pwOor = s.pwOor := rfl
@[simp] theorem storeMapping_pwmOut (a b c d : Word16) (s : State) :
    (storeMapping a b c d s).pwmOut = s.pwmOut := rfl
@[simp] theorem storeMapping_adcReq (a b c d : Word16) (s : State) :
    (storeMapping a b c d s).adcReq = s.adcReq := rfl
@[simp] theorem storeMapping_phase (a b c d : Word16) (s : State) :
    (storeMapping a b c d s).phase = s.phase := rfl
@[simp] theorem storeMapping_k (a b c d : Word16) (s : State) :
    (storeMapping a b c d s).k = s.k := rfl
@[simp] theorem storeMapping_sum (a b c d : Word16) (s : State) :
    (storeMapping a b c d s).sum = s.sum := rfl
@[simp] theorem storeMapping_curPin (a b c d : Word16) (s : State) :
    (storeMapping a b c d s).curPin = s.curPin := rfl
@[simp] theorem storeMapping_frame (a b c d : Word16) (s : State) :
    (storeMapping a b c d s).frame = s.frame := rfl
@[simp] theorem storeMapping_remaining (a b c d : Word16) (s : State) :
    (storeMapping a b c d s).remaining = s.remaining := rfl
@[simp] theorem storeMapping_adcPending (a b c d : Word16) (s : State) :
    (storeMapping a b c d s).adcPending = s.adcPending := rfl
@[simp] theorem storeMapping_rom (a b c d : Word16) (s : State) :
    (storeMapping a b c d s).rom = s.rom := rfl
@[simp] theorem storeMapping_build (a b c d : Word16) (s : State) :
    (storeMapping a b c d s).build = s.build := rfl
@[simp] theorem storeMapping_adc (a b c d : Word16) (s : State) :
    (storeMapping a b c d s).adc = s.adc := rfl
@[simp] theorem storeMapping_resets (a b c d : Word16) (s : State) :
    (storeMapping a b c d s).resets = s.resets := rfl
@[simp] theorem storeMapping_rstN (a b c d : Word16) (s : State) :
    (storeMapping a b c d s).rstN = s.rstN := rfl
@[simp] theorem storeMapping_dispatched (a b c d : Word16) (s : State) :
    (storeMapping a b c d s).dispatched = s.dispatched := rfl
@[simp] theorem storeMapping_now (a b c d : Word16) (s : State) :
    (storeMapping a b c d s).now = s.now := rfl
@[simp] theorem storeMapping_trace (a b c d : Word16) (s : State) :
    (storeMapping a b c d s).trace = s.trace := rfl

/-! ### storeWidth -/

@[simp] theorem storeWidth_S (w : Int) (s : State) : (storeWidth w s).S = s.S := rfl
@[simp] theorem storeWidth_sValid (w : Int) (s : State) : (storeWidth w s).sValid = s.sValid := rfl
@[simp] theorem storeWidth_A (w : Int) (s : State) : (storeWidth w s).A = s.A := rfl
@[simp] theorem storeWidth_W (w : Int) (s : State) : (storeWidth w s).W = BitVec.ofInt 16 w := rfl
@[simp] theorem storeWidth_bndInMin (w : Int) (s : State) :
    (storeWidth w s).bndInMin = s.bndInMin := rfl
@[simp] theorem storeWidth_bndInMax (w : Int) (s : State) :
    (storeWidth w s).bndInMax = s.bndInMax := rfl
@[simp] theorem storeWidth_bndOutMin (w : Int) (s : State) :
    (storeWidth w s).bndOutMin = s.bndOutMin := rfl
@[simp] theorem storeWidth_bndOutMax (w : Int) (s : State) :
    (storeWidth w s).bndOutMax = s.bndOutMax := rfl
@[simp] theorem storeWidth_bndValid (w : Int) (s : State) :
    (storeWidth w s).bndValid = s.bndValid := rfl
@[simp] theorem storeWidth_pc (w : Int) (s : State) : (storeWidth w s).pc = s.pc := rfl
@[simp] theorem storeWidth_runState (w : Int) (s : State) :
    (storeWidth w s).runState = s.runState := rfl
@[simp] theorem storeWidth_faultCode (w : Int) (s : State) :
    (storeWidth w s).faultCode = s.faultCode := rfl
@[simp] theorem storeWidth_faultPc (w : Int) (s : State) :
    (storeWidth w s).faultPc = s.faultPc := rfl
@[simp] theorem storeWidth_pwOor (w : Int) (s : State) :
    (storeWidth w s).pwOor = pwOorAfter s.pwOor w := rfl
@[simp] theorem storeWidth_pwmOut (w : Int) (s : State) : (storeWidth w s).pwmOut = s.pwmOut := rfl
@[simp] theorem storeWidth_adcReq (w : Int) (s : State) : (storeWidth w s).adcReq = s.adcReq := rfl
@[simp] theorem storeWidth_phase (w : Int) (s : State) : (storeWidth w s).phase = s.phase := rfl
@[simp] theorem storeWidth_k (w : Int) (s : State) : (storeWidth w s).k = s.k := rfl
@[simp] theorem storeWidth_sum (w : Int) (s : State) : (storeWidth w s).sum = s.sum := rfl
@[simp] theorem storeWidth_curPin (w : Int) (s : State) : (storeWidth w s).curPin = s.curPin := rfl
@[simp] theorem storeWidth_frame (w : Int) (s : State) : (storeWidth w s).frame = s.frame := rfl
@[simp] theorem storeWidth_remaining (w : Int) (s : State) :
    (storeWidth w s).remaining = s.remaining := rfl
@[simp] theorem storeWidth_adcPending (w : Int) (s : State) :
    (storeWidth w s).adcPending = s.adcPending := rfl
@[simp] theorem storeWidth_rom (w : Int) (s : State) : (storeWidth w s).rom = s.rom := rfl
@[simp] theorem storeWidth_build (w : Int) (s : State) : (storeWidth w s).build = s.build := rfl
@[simp] theorem storeWidth_adc (w : Int) (s : State) : (storeWidth w s).adc = s.adc := rfl
@[simp] theorem storeWidth_resets (w : Int) (s : State) : (storeWidth w s).resets = s.resets := rfl
@[simp] theorem storeWidth_rstN (w : Int) (s : State) : (storeWidth w s).rstN = s.rstN := rfl
@[simp] theorem storeWidth_dispatched (w : Int) (s : State) :
    (storeWidth w s).dispatched = s.dispatched := rfl
@[simp] theorem storeWidth_now (w : Int) (s : State) : (storeWidth w s).now = s.now := rfl
@[simp] theorem storeWidth_trace (w : Int) (s : State) : (storeWidth w s).trace = s.trace := rfl

end Updates

end Sys2Proof.Machine
end

