-- ==== Sys2Proof/Laws/Ops.lean ====
section
/-! SUPPORT. For each shared operation, once, what it can do: proofs about the commands cite these
lemmas and do not unfold the operations. -/

namespace Sys2Proof.Machine

/-! ### The reset input -/

/-- Whether a reset falls by a tick depends on the script alone. -/
theorem resetBy_congr {s t : State} (h : t.resets = s.resets) (n : Nat) :
    t.resetBy n = s.resetBy n := by
  simp [State.resetBy, h]

/-- An earlier tick is undisturbed when a later one is. -/
theorem resetBy_mono {s : State} {m n : Nat} (hmn : m ≤ n) (h : s.resetBy n = false) :
    s.resetBy m = false := by
  unfold State.resetBy at *
  split at h
  · rfl
  · simp only [decide_eq_false_iff_not] at *
    omega

/-- With no pulse to come no tick is disturbed. -/
theorem resetBy_of_no_resets {s : State} (h : s.resets = []) (n : Nat) : s.resetBy n = false := by
  simp [State.resetBy, h]

/-- A pulse arrives, or there is none and nothing happens. -/
theorem takeReset_cases (s : State) :
    (s.resets = [] ∧ takeReset s = s) ∨
      ∃ r rest, s.resets = r :: rest ∧
        takeReset s =
          { resetAction { s with now := max s.now r.tick } with
            resets := rest
            rstN := r.released
            adc := if s.adcPending then s.adc.tail else s.adc } := by
  cases h : s.resets with
  | nil => exact .inl ⟨rfl, by simp [takeReset, h]⟩
  | cons r rest => exact .inr ⟨r, rest, rfl, by simp [takeReset, h]⟩

/-- A reset that arrives leaves the reset values. -/
theorem takeReset_holdsResetValues {s : State} (h : s.resets ≠ []) :
    (takeReset s).runState = .reset ∧ HoldsResetValues (takeReset s) := by
  obtain ⟨h0, -⟩ | ⟨r, rest, -, ht⟩ := takeReset_cases s
  · exact absurd h0 h
  · rw [ht]; exact ⟨rfl, rfl⟩

/-- Nothing resets the ROM and the board. -/
theorem takeReset_configuration (s : State) : sameConfiguration s (takeReset s) := by
  obtain ⟨-, ht⟩ | ⟨r, rest, -, ht⟩ := takeReset_cases s <;> rw [ht] <;> exact ⟨rfl, rfl⟩

/-! ### The command at pc -/

/-- The command at pc depends on the ROM and the pc alone. -/
theorem commandAtPc_congr {s t : State} (h1 : t.rom = s.rom) (h2 : t.pc = s.pc) :
    commandAtPc t = commandAtPc s := by simp [commandAtPc, h1, h2]

/-- The operand in a phase depends on the ROM, the pc and the phase alone. -/
theorem operandInPhase_congr {s t : State} (h1 : t.rom = s.rom) (h2 : t.pc = s.pc)
    (h3 : t.phase = s.phase) : operandInPhase t = operandInPhase s := by
  simp [operandInPhase, commandAtPc, h1, h2, h3]

/-- The operand in a phase of the command at pc. -/
theorem operandInPhase_of_command {s : State} {i : Instr} (hc : commandAtPc s = some i) :
    operandInPhase s = phaseOperand s.phase i := by simp [operandInPhase, hc]

/-- A phase of SAMPLE is a phase of a SAMPLE at pc. -/
theorem sample_of_operand {s : State} {op : PinId}
    (hp : s.phase = .sampleRead ∨ s.phase = .sampleSettle) (ho : operandInPhase s = some op) :
    commandAtPc s = some .sample := by
  unfold operandInPhase at ho
  cases hc : commandAtPc s with
  | none => simp [hc] at ho
  | some i => obtain hp | hp := hp <;> cases i <;> simp_all [phaseOperand]

/-- A phase of EMIT is a phase of an EMIT at pc, and the operand is its pin. -/
theorem emit_of_operand {s : State} {op : PinId} (hp : s.phase = .emitHigh ∨ s.phase = .emitLow)
    (ho : operandInPhase s = some op) :
    commandAtPc s = some (.emitA op) ∨ ∃ v, commandAtPc s = some (.emitImm op v) := by
  unfold operandInPhase at ho
  cases hc : commandAtPc s with
  | none => simp [hc] at ho
  | some i => obtain hp | hp := hp <;> cases i <;> simp_all [phaseOperand]

/-- A phase of INIT is a phase of an INIT at pc, and the operand is its end pin. -/
theorem init_of_operand {s : State} {op : PinId}
    (hp : s.phase = .initSettle ∨ s.phase = .initHigh ∨ s.phase = .initLow)
    (ho : operandInPhase s = some op) : commandAtPc s = some (.init op) := by
  unfold operandInPhase at ho
  cases hc : commandAtPc s with
  | none => simp [hc] at ho
  | some i => obtain hp | hp | hp := hp <;> cases i <;> simp_all [phaseOperand]

/-- What a fetch gives stands at pc. -/
theorem commandAtPc_of_fetch {s : State} {i : Instr} (h : fetch s = .ok i) :
    commandAtPc s = some i := by
  unfold fetch at h
  unfold commandAtPc
  split at h <;> [cases h; split at h] <;> simp_all

/-! ### Running on -/

/-- Undisturbed, a run to a tick does its action there. -/
theorem runTo_of_undisturbed {s : State} {t : Nat} (h : s.undisturbedTo t) (act : State → State) :
    runTo t act s = act (elapse (t - s.now) s) := by
  simp [runTo, show s.resetBy t = false from h]

/-- The wait of a phase ends after `remaining` ticks. -/
theorem advance_wait {s : State} (op : PinId) (hr : s.runState = .run) (hf : s.phase ≠ .fetch)
    (hs : s.phase ≠ .sampleRead) :
    advance op s =
      some (runTo (s.now + s.remaining) (fun t => waitEnded op { t with remaining := 0 }) s) := by
  unfold advance
  rw [hr]
  split <;> simp_all

/-- A pending read takes its answer when it comes. -/
theorem advance_read {s : State} (op : PinId) {a : AdcAnswer} {rest : List AdcAnswer}
    (hr : s.runState = .run) (hp : s.phase = .sampleRead) (ha : s.adc = a :: rest) :
    advance op s =
      some (runTo (s.now + (a.wait + 1)) (fun t => adcAnswered a.value { t with adc := rest }) s) := by
  simp [advance, hr, hp, ha]

/-- A read with no answer to come and no reset to come waits. -/
theorem advance_unanswered {s : State} (op : PinId) (hp : s.phase = .sampleRead) (ha : s.adc = [])
    (hn : s.resets = []) : advance op s = none := by
  unfold advance
  rw [hp]
  split <;> simp_all

/-- Between commands nothing advances. -/
theorem advance_fetch {s : State} (op : PinId) (hp : s.phase = .fetch) : advance op s = none := by
  unfold advance
  rw [hp]
  split <;> simp_all

/-- Out of RUN nothing advances. -/
theorem advance_not_run {s : State} (op : PinId) (hr : s.runState ≠ .run) : advance op s = none := by
  unfold advance
  split <;> simp_all

/-- Where nothing advances in RUN, no command is in execution or its read has no answer to come. -/
theorem advance_none_cases {op : PinId} {s : State} (h : advance op s = none) (hr : s.runState = .run) :
    s.phase = .fetch ∨ s.WaitsForAnswer := by
  by_cases hf : s.phase = .fetch
  · exact .inl hf
  · refine .inr ?_
    by_cases hs : s.phase = .sampleRead
    · refine ⟨hr, hs, ?_⟩
      unfold advance at h
      rw [hr, hs] at h
      cases ha : s.adc <;> simp_all
    · rw [advance_wait op hr hf hs] at h
      cases h

/-- What an advance can do, in RUN inside a command: take a reset, take an answer, or end a wait. -/
theorem advance_cases {op : PinId} {s s' : State} (h : advance op s = some s') :
    s.runState = .run ∧ s.phase ≠ .fetch ∧
      ((s.resets ≠ [] ∧ s' = takeReset s) ∨
        (s.phase = .sampleRead ∧ ∃ a rest, s.adc = a :: rest ∧
          s' = adcAnswered a.value { elapse (a.wait + 1) s with adc := rest }) ∨
        (s.phase ≠ .sampleRead ∧
          s' = waitEnded op { elapse s.remaining s with remaining := 0 })) := by
  have hrun : s.runState = .run := by
    by_contra hr
    rw [advance_not_run op hr] at h
    cases h
  have hphase : s.phase ≠ .fetch := by
    intro hp
    rw [advance_fetch op hp] at h
    cases h
  have hreset : ∀ t, s.resetBy t = true → s.resets ≠ [] := by
    intro t ht he
    rw [resetBy_of_no_resets he] at ht
    cases ht
  refine ⟨hrun, hphase, ?_⟩
  by_cases hread : s.phase = .sampleRead
  · cases ha : s.adc with
    | cons a rest =>
      rw [advance_read op hrun hread ha, Option.some.injEq] at h
      unfold runTo at h
      split at h
      · exact .inl ⟨hreset _ ‹_›, h.symm⟩
      · exact .inr (.inl ⟨hread, a, rest, rfl, by rw [← h, Nat.add_sub_cancel_left]⟩)
    | nil =>
      by_cases hn : s.resets = []
      · rw [advance_unanswered op hread ha hn] at h
        cases h
      · refine .inl ⟨hn, ?_⟩
        unfold advance at h
        rw [hrun, hread] at h
        simpa [ha, hn] using h.symm
  · rw [advance_wait op hrun hphase hread, Option.some.injEq] at h
    unfold runTo at h
    split at h
    · exact .inl ⟨hreset _ ‹_›, h.symm⟩
    · exact .inr (.inr ⟨hread, by rw [← h, Nat.add_sub_cancel_left]⟩)

@[simp] theorem runOn_zero (op : PinId) (s : State) : runOn op 0 s = s := rfl

/-- Nothing runs on from a state that does not advance. -/
theorem runOn_of_stuck {op : PinId} {s : State} (h : advance op s = none) (n : Nat) :
    runOn op n s = s := by
  cases n <;> simp [runOn, h]

/-- One wait of a run. -/
theorem runOn_succ {op : PinId} {s s' : State} (h : advance op s = some s') (n : Nat) :
    runOn op (n + 1) s = runOn op n s' := by
  simp [runOn, h]

/-- Packaged once: what every advance keeps, a command that runs on keeps. -/
theorem runOn_keeps {op : PinId} {P : State → Prop}
    (hP : ∀ s s', P s → advance op s = some s' → P s') :
    ∀ (n : Nat) (s : State), P s → P (runOn op n s)
  | 0, _, h => h
  | n + 1, s, h => by
    cases ha : advance op s with
    | none => simpa [runOn, ha] using h
    | some s' => simpa [runOn, ha] using runOn_keeps hP n s' (hP s s' h ha)

/-- What every advance keeps, `finish` keeps. -/
theorem finish_keeps {op : PinId} {P : State → Prop}
    (hP : ∀ s s', P s → advance op s = some s' → P s') {s : State} (h : P s) : P (finish op s) :=
  runOn_keeps hP maxWaits s h

/-- Between commands there is nothing to finish. -/
theorem finish_of_fetch {s : State} (op : PinId) (hp : s.phase = .fetch) : finish op s = s :=
  runOn_of_stuck (advance_fetch op hp) _

/-- Out of RUN there is nothing to finish. -/
theorem finish_of_not_run {s : State} (op : PinId) (hr : s.runState ≠ .run) : finish op s = s :=
  runOn_of_stuck (advance_not_run op hr) _

/-! ### The commands and the step -/

/-- Every command is its first action, then its waits (44_sequencer.md R181). -/
theorem exec_eq_finish (i : Instr) (s : State) :
    exec i s = .next (finish (waitOperand i) (firstAction i s)) := by
  have hphase : ∀ t : State, t.phase = .fetch → finish 0 t = t := fun t => finish_of_fetch 0
  cases i with
  | sample => rfl
  | emitA pin => rfl
  | emitImm pin imm => rfl
  | init endPin => rfl
  | map a b c d =>
    change Host.Outcome.next (beginMap a b c d s) = .next (finish 0 (beginMap a b c d s))
    rw [hphase]
    unfold beginMap
    dsimp only
    split <;> rfl
  | lds imm =>
    change Host.Outcome.next (beginLds imm s) = .next (finish 0 (beginLds imm s))
    rw [hphase]; rfl
  | jmp t =>
    change Host.Outcome.next (beginJmp t s) = .next (finish 0 (beginJmp t s))
    rw [hphase]; rfl
  | halt =>
    change Host.Outcome.next (beginHalt s) = .next (finish 0 (beginHalt s))
    rw [hphase]; rfl

/-- Past the ROM the fetch raises PC_RANGE (R180). -/
theorem fetch_past_rom {s : State} (h : s.rom.length ≤ s.pc.toNat) : fetch s = .error .pcRange := by
  simp [fetch, romRead, List.getElem?_eq_none h]

/-- The fetch of an ILLEGAL word raises ILLEGAL_CMD (R180). -/
theorem fetch_illegal {s : State} {w : CommandWord} {e : Illegal}
    (h : s.rom[s.pc.toNat]? = some w) (hd : decode w = .error e) : fetch s = .error .illegalCmd := by
  simp [fetch, romRead, h, hd]

/-- The fetch of a legal word gives its command (R180). -/
theorem fetch_command {s : State} {w : CommandWord} {i : Instr}
    (h : s.rom[s.pc.toNat]? = some w) (hd : decode w = .ok i) : fetch s = .ok i := by
  simp [fetch, romRead, h, hd]

/-- The fetch reads the ROM and the pc alone. -/
theorem fetch_congr {s t : State} (h1 : t.rom = s.rom) (h2 : t.pc = s.pc) : fetch t = fetch s := by
  simp [fetch, h1, h2]

/-- A step between two commands, undisturbed, dispatches and fetches (R180, R181). -/
theorem step_fetch {s : State} (hr : s.runState = .run) (hp : s.phase = .fetch)
    (hu : s.undisturbedTo s.dispatchEnd) : step s = fetchAndExec (dispatchDone s) := by
  have hb : s.resetBy s.dispatchEnd = false := hu
  simp [step, hr, stepRun, hp, hb]

/-- A step inside a command resumes it (R12 (c)). -/
theorem step_resume {s : State} {op : PinId} (hr : s.runState = .run) (hp : s.phase ≠ .fetch)
    (ho : operandInPhase s = some op) : step s = .next (finish op s) := by
  have hs : step s = stepRun s := by simp [step, hr]
  rw [hs]
  unfold stepRun
  split
  · contradiction
  · simp [ho]

/-- What a step can do. -/
theorem step_cases {s s' : State} (h : step s = .next s') :
    (s.runState = .reset ∧ s' = if s.rstN then resetRelease s else s) ∨
      ((s.runState = .halted ∨ s.runState = .faulted) ∧ s' = takeReset s) ∨
      (s.runState = .run ∧ s.phase = .fetch ∧ s.resetBy s.dispatchEnd = true ∧
        s' = takeReset s) ∨
      (s.runState = .run ∧ s.phase = .fetch ∧ s.resetBy s.dispatchEnd = false ∧
        ((∃ code, fetch (dispatchDone s) = .error code ∧ s' = faultEntry code (dispatchDone s)) ∨
          ∃ i, fetch (dispatchDone s) = .ok i ∧
            s' = finish (waitOperand i) (firstAction i (dispatchDone s)))) ∨
      (s.runState = .run ∧ s.phase ≠ .fetch ∧ ∃ op, operandInPhase s = some op ∧
        s' = finish op s) := by
  unfold step at h
  split at h
  next hr => cases h; exact .inl ⟨hr, rfl⟩
  next hr =>
    unfold stepRun at h
    split at h
    next hp =>
      split at h
      next hb => cases h; exact .inr (.inr (.inl ⟨hr, hp, hb, rfl⟩))
      next hb =>
        refine .inr (.inr (.inr (.inl ⟨hr, hp, by simpa using hb, ?_⟩)))
        unfold fetchAndExec at h
        split at h
        next code hc => cases h; exact .inl ⟨code, hc, rfl⟩
        next i hi =>
          rw [exec_eq_finish] at h
          cases h
          exact .inr ⟨i, hi, rfl⟩
    next hp =>
      split at h
      next op ho => cases h; exact .inr (.inr (.inr (.inr ⟨hr, hp, op, ho, rfl⟩)))
      next => cases h
  next hr => cases h; exact .inr (.inl ⟨.inl hr, rfl⟩)
  next hr => cases h; exact .inr (.inl ⟨.inr hr, rfl⟩)

/-! ### Several steps -/

@[simp] theorem stepsFrom_zero (s : State) : stepsFrom 0 s = some s := rfl

theorem stepsFrom_succ {s t : State} (h : step s = .next t) (n : Nat) :
    stepsFrom (n + 1) s = stepsFrom n t := by
  simp [stepsFrom, h]

/-- Several steps begin with one that gives a next state. -/
theorem stepsFrom_succ_cases {n : Nat} {s u : State} (h : stepsFrom (n + 1) s = some u) :
    ∃ t, step s = .next t ∧ stepsFrom n t = some u := by
  unfold stepsFrom at h
  split at h
  · exact ⟨_, ‹_›, h⟩
  · cases h
  · cases h

end Sys2Proof.Machine
end

