-- ==== Sys2Proof/Laws/PerInstr.lean ====
section
/-! SUPPORT. The statement made of every command: the opcode field of its word is the one of the
opcode map (30_encoding.md R79). -/

namespace Sys2Proof.Laws

/-- The opcode of a command in the table of R79. -/
def opcodeNumber : Instr → BitVec 4
  | .sample => 0x1
  | .map .. => 0x2
  | .emitA _ => 0x3
  | .emitImm .. => 0x3
  | .init _ => 0x4
  | .lds _ => 0x5
  | .jmp _ => 0x6
  | .halt => 0x7

/-- The word of the command carries the command's opcode in bits 63 to 60 (R71, R79). -/
def OpcodeOfEncoding.Statement (i : Instr) : Prop := opField (encode i) = opcodeNumber i

theorem OpcodeOfEncoding.sample : OpcodeOfEncoding.Statement .sample := by
  unfold Statement
  decide

theorem OpcodeOfEncoding.map (inMin inMax outMin outMax : Bound12) :
    OpcodeOfEncoding.Statement (.map inMin inMax outMin outMax) := by
  have h := encode_map_toNat inMin inMax outMin outMax
  have := inMin.isLt
  have := inMax.isLt
  have := outMin.isLt
  have := outMax.isLt
  exact field_eq _ 60 0x2#4 (by rw [h, BitVec.toNat_ofNat]; omega)

theorem OpcodeOfEncoding.emitA (pin : PinId) : OpcodeOfEncoding.Statement (.emitA pin) := by
  have h := encode_emitA_toNat pin
  have := pin.isLt
  exact field_eq _ 60 0x3#4 (by rw [h, BitVec.toNat_ofNat]; omega)

theorem OpcodeOfEncoding.emitImm (pin : PinId) (imm : Word16) :
    OpcodeOfEncoding.Statement (.emitImm pin imm) := by
  have h := encode_emitImm_toNat pin imm
  have := pin.isLt
  have := imm.isLt
  exact field_eq _ 60 0x3#4 (by rw [h, BitVec.toNat_ofNat]; omega)

theorem OpcodeOfEncoding.init (endPin : PinId) : OpcodeOfEncoding.Statement (.init endPin) := by
  have h := encode_init_toNat endPin
  have := endPin.isLt
  exact field_eq _ 60 0x4#4 (by rw [h, BitVec.toNat_ofNat]; omega)

theorem OpcodeOfEncoding.lds (imm : Word16) : OpcodeOfEncoding.Statement (.lds imm) := by
  have h := encode_lds_toNat imm
  have := imm.isLt
  exact field_eq _ 60 0x5#4 (by rw [h, BitVec.toNat_ofNat]; omega)

theorem OpcodeOfEncoding.jmp (target : Word16) : OpcodeOfEncoding.Statement (.jmp target) := by
  have h := encode_jmp_toNat target
  have := target.isLt
  exact field_eq _ 60 0x6#4 (by rw [h, BitVec.toNat_ofNat]; omega)

theorem OpcodeOfEncoding.halt : OpcodeOfEncoding.Statement .halt := by
  unfold Statement
  decide

end Sys2Proof.Laws
end

