-- ==== Sys2Proof/Laws/Waits.lean ====
section
/-! SUPPORT. A command between its waits: what each phase's end does, what a run over one wait is, in
`exec` and tick by tick, and what no wait changes. -/

namespace Sys2Proof.Machine

/-! ### Pins -/

/-- The levels of one pin's bit. -/
theorem pinBit_getLsbD {p : Nat} (hp : p < 256) (q : Nat) : (pinBit p).getLsbD q = decide (q = p) := by
  by_cases h : q = p
  · subst h; simp [pinBit, hp]
  · simp [pinBit, h]; omega

/-- With every pin low, a pin rises. -/
theorem pinWrite_rise {p : Nat} {s : State} (h : s.pwmOut = 0) :
    pinWrite p true s = { s with pwmOut := pinBit p, trace := .pin s.now p true :: s.trace } := by
  simp [pinWrite, h]

/-- The one high pin falls. -/
theorem pinWrite_fall {p : Nat} {s : State} (hp : p < 256) (h : s.pwmOut = pinBit p) :
    pinWrite p false s = { s with pwmOut := 0, trace := .pin s.now p false :: s.trace } := by
  have := pinBit_getLsbD hp p
  simp [pinWrite, h, this]

/-- With every pin low, driving a pin low changes nothing (20_memory.md R56). -/
theorem pinWrite_low {p : Nat} {s : State} (h : s.pwmOut = 0) : pinWrite p false s = s := by
  cases s; simp_all [pinWrite]

/-- No pin is high on an all-low output. -/
theorem highPins_zero : highPins 0 = [] := by simp [highPins]

/-- The pins of one pin's bit. -/
theorem highPins_pinBit {p : Nat} (hp : p < 256) : highPins (pinBit p) = [p] := by
  have hfilter : ∀ n : Nat,
      (List.range n).filter (fun q => decide (q = p)) = if p < n then [p] else [] := by
    intro n
    induction n with
    | zero => simp
    | succ n ih =>
      rw [List.range_succ, List.filter_append, ih]
      by_cases h : p < n
      · rw [if_pos h, if_pos (by omega)]
        simp [show n ≠ p by omega]
      · rw [if_neg h]
        by_cases h2 : n = p
        · simp [h2]
        · simp [h2, show ¬p < n + 1 by omega]
  unfold highPins
  rw [show (fun q => (pinBit p).getLsbD q) = fun q => decide (q = p) from funext (pinBit_getLsbD hp),
    hfilter, if_pos hp]

/-! ### The ends of the waits -/

/-- The end of SAMPLE's wait before its last read. -/
theorem sampleSettled_next {s : State} (h : s.k + 1 < 11) :
    sampleSettled s = adcRequest { s with k := s.k + 1 } := by
  unfold sampleSettled; exact if_pos h

/-- The end of SAMPLE's last wait. -/
theorem sampleSettled_last {s : State} (h : ¬s.k + 1 < 11) :
    sampleSettled s =
      complete { s with k := s.k + 1, S := sampleAverage s.sum, sValid := true } := by
  unfold sampleSettled; exact if_neg h

theorem waitEnded_sampleSettle {op : PinId} {s : State} (h : s.phase = .sampleSettle) :
    waitEnded op s = sampleSettled s := by unfold waitEnded; rw [h]

theorem waitEnded_emitHigh {op : PinId} {s : State} (h : s.phase = .emitHigh) :
    waitEnded op s = emitFall op s := by unfold waitEnded; rw [h]

theorem waitEnded_emitLow {op : PinId} {s : State} (h : s.phase = .emitLow) :
    waitEnded op s = complete s := by unfold waitEnded; rw [h]

theorem waitEnded_initSettle {op : PinId} {s : State} (h : s.phase = .initSettle) :
    waitEnded op s = initSettled op s := by unfold waitEnded; rw [h]

theorem waitEnded_initHigh {op : PinId} {s : State} (h : s.phase = .initHigh) :
    waitEnded op s = initFall s := by unfold waitEnded; rw [h]

theorem waitEnded_initLow {op : PinId} {s : State} (h : s.phase = .initLow) :
    waitEnded op s = initFrameEnd op s := by unfold waitEnded; rw [h]

/-- What the end of a wait leaves alone: every register but S and S_VALID, which SAMPLE writes at its
last one (40_sampler.md R100). -/
theorem waitEnded_keeps (op : PinId) (s : State) :
    ((waitEnded op s).runState = s.runState ∧ (waitEnded op s).pwOor = s.pwOor ∧
      (waitEnded op s).faultCode = s.faultCode ∧ (waitEnded op s).faultPc = s.faultPc ∧
      (waitEnded op s).W = s.W ∧ (waitEnded op s).A = s.A) ∧
    ((waitEnded op s).bndValid = s.bndValid ∧ (waitEnded op s).bndInMin = s.bndInMin ∧
      (waitEnded op s).bndInMax = s.bndInMax ∧ (waitEnded op s).bndOutMin = s.bndOutMin ∧
      (waitEnded op s).bndOutMax = s.bndOutMax) ∧
    ((waitEnded op s).rom = s.rom ∧ (waitEnded op s).build = s.build) ∧
    (s.phase ≠ .sampleSettle → (waitEnded op s).S = s.S ∧ (waitEnded op s).sValid = s.sValid) ∧
    (s.phase ≠ .sampleSettle → s.phase ≠ .sampleRead →
      (waitEnded op s).phase ≠ .sampleSettle ∧ (waitEnded op s).phase ≠ .sampleRead) := by
  unfold waitEnded
  split
  all_goals try unfold sampleSettled
  all_goals try unfold emitFall
  all_goals try unfold initSettled
  all_goals try unfold initFrameEnd
  all_goals try dsimp only
  all_goals try split
  all_goals try split
  all_goals simp_all [initRise, initFall]

/-- The end of a wait moves the pc by one exactly when it ends the command (44_sequencer.md R182). -/
theorem waitEnded_pc (op : PinId) (s : State) (hf : s.phase ≠ .fetch) :
    (waitEnded op s).pc = if (waitEnded op s).phase = .fetch then s.pc + 1 else s.pc := by
  unfold waitEnded
  split
  all_goals try unfold sampleSettled
  all_goals try unfold emitFall
  all_goals try unfold initSettled
  all_goals try unfold initFrameEnd
  all_goals try dsimp only
  all_goals try split
  all_goals try split
  all_goals simp_all [initRise, initFall]

/-! ### Runs -/

/-- An undisturbed tick stays undisturbed earlier, and under another state with the same script. -/
theorem resetBy_of {s t : State} {n m : Nat} (hu : s.resetBy m = false) (h : t.resets = s.resets)
    (hn : n ≤ m) : t.resetBy n = false := by
  rw [resetBy_congr h]; exact resetBy_mono hn hu

/-- Time passes with no request going on. -/
theorem elapse_of_no_request {s : State} (h : s.adcReq = false) (n : Nat) :
    elapse n s = { s with now := s.now + n } := by
  simp [elapse, h]

/-- A completion on the tick of a first action moves the pc alone. -/
theorem complete_of_ready {s : State} (h1 : s.phase = .fetch) (h2 : s.remaining = 0)
    (h3 : s.dispatched = 0) : complete s = { s with pc := s.pc + 1 } := by
  cases s; simp_all [complete]

/-- A run is two runs. -/
theorem runOn_add {op : PinId} :
    ∀ (m n : Nat) (s : State), runOn op (m + n) s = runOn op n (runOn op m s)
  | 0, n, s => by simp
  | m + 1, n, s => by
    rw [show m + 1 + n = (m + n) + 1 by omega]
    cases h : advance op s with
    | none => rw [runOn_of_stuck h, runOn_of_stuck h, runOn_of_stuck h]
    | some s' => rw [runOn_succ h, runOn_succ h]; exact runOn_add m n s'

/-- A run over one undisturbed wait. -/
theorem runOn_wait {op : PinId} {s : State} {n : Nat} (hr : s.runState = .run) (hf : s.phase ≠ .fetch)
    (hs : s.phase ≠ .sampleRead) (hq : s.adcReq = false)
    (hu : s.resetBy (s.now + s.remaining) = false) :
    runOn op (n + 1) s =
      runOn op n (waitEnded op { s with now := s.now + s.remaining, remaining := 0 }) := by
  have ha : advance op s =
      some (waitEnded op { s with now := s.now + s.remaining, remaining := 0 }) := by
    rw [advance_wait op hr hf hs, runTo_of_undisturbed hu, elapse_of_no_request hq]
    simp
  exact runOn_succ ha n

/-- A run over a wait that a reset cuts ends with the reset. -/
theorem runOn_reset {op : PinId} {s : State} {n : Nat} (hr : s.runState = .run) (hf : s.phase ≠ .fetch)
    (hs : s.phase ≠ .sampleRead) (hu : s.resetBy (s.now + s.remaining) = true) :
    runOn op (n + 1) s = takeReset s := by
  rw [runOn_succ (advance_wait op hr hf hs)]
  unfold runTo
  rw [if_pos hu]
  have hne : s.resets ≠ [] := by intro h; rw [resetBy_of_no_resets h] at hu; cases hu
  exact runOn_of_stuck (advance_not_run _ (by simp [(takeReset_holdsResetValues hne).1])) _

/-- A command that stops or faults at once has nothing to finish. -/
theorem finish_faultEntry (op : PinId) (code : FaultCode) (s : State) :
    finish op (faultEntry code s) = faultEntry code s := finish_of_fetch op rfl

/-- Both forms of EMIT are one first action on one pin with one angle (42_pulse.md R140). -/
theorem exec_emit {i : Instr} {s : State} {pin : PinId} {angle : Int}
    (h : emitOperands i s = some (pin, angle)) :
    exec i s = .next (finish pin (beginEmit pin angle s)) := by
  cases i <;> simp [emitOperands] at h <;> obtain ⟨rfl, rfl⟩ := h <;> rfl

/-- The first action of an EMIT whose checks pass: W and PW_OOR, then the rise (R140). -/
theorem beginEmit_of_no_fault {s : State} {pin : PinId} {angle : Int} {w : Nat}
    (hn : emitFault s (pinOperand pin) angle = none)
    (hw : (w : Int) = pulseWidth angle s.bndOutMin.toInt s.bndOutMax.toInt) :
    beginEmit pin angle s =
      emitRise pin
        { s with
          W := BitVec.ofNat 16 w
          pwOor := s.pwOor || decide (w < 535 ∨ 2350 < w) } := by
  unfold beginEmit
  rw [hn]
  have hof : BitVec.ofInt 16 (w : Int) = BitVec.ofNat 16 w := by
    apply BitVec.eq_of_toInt_eq; simp
  refine congrArg (emitRise pin) ?_
  rw [← hw]
  simp only [storeWidth, pwOorAfter, outsideSafeRange, hof, Config.minPwUs, Config.maxPwUs]
  norm_cast

/-- What a fetch raises is a fault (60_exceptions.md R200). -/
theorem fetch_error_ne_none {s : State} {code : FaultCode} (h : fetch s = .error code) :
    code ≠ .none := by
  unfold fetch at h
  split at h <;> [skip; split at h] <;> cases h <;> simp

/-! ### Ticks -/

/-- The ticks of two lists of port levels, one after the other. -/
theorem ticks_append (ps qs : List InputPorts) (s : State) :
    ticks (ps ++ qs) s = ticks qs (ticks ps s) := by
  simp [ticks]

/-- A tick in RUN with the reset input high. -/
theorem tick_of_run {p : InputPorts} {s : State} (hp : p.rstN = true) (hr : s.runState = .run) :
    tick p s = tickRun p (elapse 1 s) := by
  simp [tick, hp, hr]

/-- A tick inside a wait (20_memory.md R57). -/
theorem tickRun_wait {p : InputPorts} {s : State} (hf : s.phase ≠ .fetch) (hs : s.phase ≠ .sampleRead) :
    tickRun p s =
      if s.remaining ≤ 1 then waitEnded ((operandInPhase s).getD 0) { s with remaining := 0 }
      else { s with remaining := s.remaining - 1 } := by
  unfold tickRun
  split <;> first | contradiction | rfl

end Sys2Proof.Machine
end

