-- ==== Sys2Proof/Tests/Slice0.lean ====
section
/-! SUPPORT. Tests. Every expected value is the spec's own: words from 30_encoding.md and
95_test_vectors.md section 2.6, results from the vectors of 95_test_vectors.md section 2, written out
by hand. Each runs one step. After them, the states and operands that meet the hypotheses of the
statements for the provers. -/

namespace Sys2Proof.Tests

open Sys2Proof.Machine

-- One test after another: each `decide +kernel` waits for the kernel, and all at once they hold a
-- thread each.
set_option Elab.async false

/-! ### Decoding (95_test_vectors.md 2.6, 30_encoding.md R83) -/

theorem test_decode_sample : decode 0x1000000000000000 = .ok .sample := by decide +kernel

theorem test_decode_map_loop :
    decode 0x21FF3FF0000B4000 = .ok (.map 511 1023 0 180) := by decide +kernel

theorem test_decode_map_negative :
    decode 0x2F9C064FF600A000 = .ok (.map (-100) 100 (-10) 10) := by decide +kernel

theorem test_decode_emit_a : decode 0x3090000000000000 = .ok (.emitA 9) := by decide +kernel

theorem test_decode_emit_imm :
    decode 0x309800000000FFF6 = .ok (.emitImm 9 (-10)) := by decide +kernel

theorem test_decode_init : decode 0x4090000000000000 = .ok (.init 9) := by decide +kernel

theorem test_decode_lds : decode 0x500000000000FFFB = .ok (.lds (-5)) := by decide +kernel

theorem test_decode_jmp : decode 0x6000000000000001 = .ok (.jmp 1) := by decide +kernel

theorem test_decode_halt : decode 0x7000000000000000 = .ok .halt := by decide +kernel

/-- The illegal words of 95_test_vectors.md 2.6, in its order. -/
theorem test_decode_illegal :
    (decode 0x0000000000000000 = .error .reservedOpcode ∧
      decode 0x8000000000000000 = .error .reservedOpcode ∧
      decode 0xF000000000000000 = .error .reservedOpcode ∧
      decode 0x1000000000000001 = .error .reservedBits ∧
      decode 0x2000000000000001 = .error .reservedBits ∧
      decode 0x3090000000000005 = .error .emitImmediate) ∧
    (decode 0x3000010000000000 = .error .reservedBits ∧
      decode 0x4000000000000001 = .error .reservedBits ∧
      decode 0x5000000000010000 = .error .reservedBits ∧
      decode 0x6800000000000000 = .error .reservedBits ∧
      decode 0x7000000000000001 = .error .reservedBits) := by decide +kernel

theorem test_encode_examples :
    encode (.map 511 1023 0 180) = 0x21FF3FF0000B4000 ∧
      encode (.emitA 9) = 0x3090000000000000 ∧ encode (.jmp 1) = 0x6000000000000001 := by
  decide +kernel

/-- The default ROM's words for the vectors' board (95_test_vectors.md P1). -/
theorem test_boot_rom :
    bootRom Config.Build.vectors =
      [0x4090000000000000, 0x1000000000000000, 0x21FF3FF0000B4000, 0x3090000000000000,
        0x6000000000000001] := by decide +kernel

/-- The byte order of a ROM image (95_test_vectors.md 2.6). -/
theorem test_rom_image :
    wordBytes 0x21FF3FF0000B4000 = [0x00, 0x40, 0x0B, 0x00, 0xF0, 0x3F, 0xFF, 0x21] ∧
      romOfBytes [0x00, 0x40, 0x0B, 0x00, 0xF0, 0x3F, 0xFF, 0x21] = some [0x21FF3FF0000B4000] := by
  decide +kernel

theorem test_decode_table_word :
    decodeTableWord 64 0x500000000000FFFB = some (.lds (-5)) ∧ decodeTableWord 64 0 = none := by
  decide +kernel

/-! ### The build-time checks (R83, R7, R233): an ill-formed term for each -/

theorem smoke_map_bound_range :
    AsmCmd.wellFormed (.map 2048 0 0 0) = false ∧ AsmCmd.wellFormed (.map 0 (-2049) 0 0) = false ∧
      AsmCmd.wellFormed (.map 0 0 2048 0) = false ∧ AsmCmd.wellFormed (.map 0 0 0 2048) = false ∧
      AsmCmd.wellFormed (.map (-2048) 2047 0 0) = true := by decide

theorem smoke_pin_range :
    AsmCmd.wellFormed (.emitA 256) = false ∧ AsmCmd.wellFormed (.emitImm (-1) 0) = false ∧
      AsmCmd.wellFormed (.init 256) = false ∧ AsmCmd.wellFormed (.cycle 256) = false ∧
      AsmCmd.wellFormed (.emitA 255) = true := by decide

theorem smoke_immediate_range :
    AsmCmd.wellFormed (.emitImm 0 32768) = false ∧ AsmCmd.wellFormed (.lds (-32769)) = false ∧
      AsmCmd.wellFormed (.lds 32767) = true := by decide

theorem smoke_target_range :
    AsmCmd.wellFormed (.jmp (.index 65536)) = false ∧
      AsmCmd.wellFormed (.jmp (.index 65535)) = true := by decide

theorem smoke_build_parameters :
    ({ Config.Build.vectors with numPins := 0 } : Config.Build).wellFormed = false ∧
      ({ Config.Build.vectors with numPins := 257 } : Config.Build).wellFormed = false ∧
      ({ Config.Build.vectors with clkHz := 0 } : Config.Build).wellFormed = false ∧
      ({ Config.Build.vectors with clkHz := 1500000 } : Config.Build).wellFormed = false ∧
      ({ Config.Build.vectors with servoPin := 16 } : Config.Build).bootPinsExist = false ∧
      ({ Config.Build.vectors with pinRangeEnd := 16 } : Config.Build).bootPinsExist = false := by
  decide

theorem smoke_rom_order :
    samplesAndMapsFirst [.lds 0, .emitA 9] = false ∧
      samplesAndMapsFirst [.map 0 1 0 1] = false ∧
      samplesAndMapsFirst [.jmp 2, .sample, .map 0 1 0 1] = false ∧
      initBeforeSample [.lds 0, .sample] = false ∧ romDepthOk 0 = false ∧
      romDepthOk 65536 = false := by decide

theorem test_boot_program_passes :
    bootChecks Config.Build.vectors (bootProgram Config.Build.vectors) = true := by decide +kernel

/-! ### One step of each command (95_test_vectors.md section 2) -/

/-- The vectors' machine after reset release, in RUN. -/
def ready : State := { State.reset with runState := .run }

/-- With S = `v`, as after an LDS. -/
def sampled (v : Word16) : State := { ready with S := v, sValid := true }

/-- With the output bounds `a` and `b` stored, as after a MAP. -/
def mapped (a b : Word16) : State := { ready with bndOutMin := a, bndOutMax := b, bndValid := true }

/-- What a meaning's next state shows under `f`. -/
def after {α : Type} (f : State → α) (o : Host.Outcome State Fault Refusal) : Option α :=
  match o with
  | .next t => some (f t)
  | .fault _ => none
  | .refused _ => none

/-- Eleven answers of `v`, one tick each. -/
def answers (v : RawSample) : List AdcAnswer := List.replicate 11 ⟨0, v⟩

/-- 1023 × 11 gives S = 1125, and the whole takes 11011 ticks (2.1). -/
theorem test_sample_maximum :
    after (fun t => (t.S, t.sValid, t.pc, t.now)) (exec .sample { ready with adc := answers 1023 })
      = some (1125, true, 1, 11011) := by decide +kernel

/-- Ten reads of 1023, then none: the SAMPLE waits for its eleventh answer (R212). -/
theorem test_sample_waits :
    after (fun t => (t.S, t.sValid, t.pc, t.phase, t.k))
        (exec .sample { ready with adc := List.replicate 10 ⟨0, 1023⟩ })
      = some (0, false, 0, .sampleRead, 10) := by decide +kernel

theorem test_lds_minimum :
    after (fun t => (t.S, t.sValid, t.pc)) (exec (.lds 0x8000) ready) = some (-32768, true, 1) := by
  decide +kernel

/-- v = 768 with the loop's bounds: 90, not rounded to 91 (2.3). -/
theorem test_map_truncates :
    after (fun t => (t.A, t.bndInMin, t.bndInMax, t.bndOutMin, t.bndOutMax, t.bndValid))
        (exec (.map 511 1023 0 180) (sampled 768)) = some (90, 511, 1023, 0, 180, true) := by
  decide +kernel

/-- v = −5 with bounds −100, 100, −10, 10 gives −1; v = 5 = in_min = in_max faults (2.3). -/
theorem test_map_negative_and_div0 :
    after (fun t => t.A) (exec (.map (-100) 100 (-10) 10) (sampled (-5))) = some (-1) ∧
      after (fun t => (t.runState, t.faultCode, t.A, t.bndValid)) (exec (.map 5 5 0 10) (sampled 5))
        = some (.faulted, .mapDiv0, 0, false) := by decide +kernel

/-- Angle −10 with bounds 0, 180 on pin 9: W = 435, PW_OOR, edges at 0 and 435, done at 20000 (2.4). -/
theorem test_emit_imm_below :
    after (fun t => (t.W, t.pwOor, t.now, t.trace, t.pc)) (exec (.emitImm 9 (-10)) (mapped 0 180))
      = some (435, true, 20000, [.pin 435 9 false, .pin 0 9 true], 1) := by decide +kernel

/-- Angles −54 and 1931 fault; angle −535 with bounds 0, 1815 gives a frame with no edge (2.4). -/
theorem test_emit_imm_limits :
    after (fun t => t.faultCode) (exec (.emitImm 9 (-54)) (mapped 0 180)) = some .pwNegative ∧
      after (fun t => t.faultCode) (exec (.emitImm 9 1931) (mapped 0 180)) = some .pwOverrun ∧
      after (fun t => (t.W, t.trace, t.now)) (exec (.emitImm 9 (-535)) (mapped 0 1815))
        = some (0, [], 20000) := by decide +kernel

/-- A = 90 gives 1442 µs, not the neutral 1500 (2.4, 90_conflicts.md C4). -/
theorem test_emit_a :
    after (fun t => (t.W, t.pwOor, t.trace)) (exec (.emitA 9) { mapped 0 180 with A := 90 })
      = some (1442, false, [.pin 1442 9 false, .pin 0 9 true]) := by decide +kernel

/-- A pin beyond the board is reported before the missing MAP (2.4). -/
theorem test_emit_a_fault_order :
    after (fun t => t.faultCode) (exec (.emitA 16) ready) = some .badPin ∧
      after (fun t => t.faultCode) (exec (.emitA 9) ready) = some .boundsUnset ∧
      after (fun t => t.faultCode) (exec (.emitA 9) (mapped 7 7)) = some .emitDiv0 := by
  decide +kernel

/-- INIT 9: 150 frames on pin 9, done at 5 000 000, its last fall at 4 981 500 (2.5). -/
theorem test_init_one_pin :
    after (fun t => (t.now, t.trace.length, t.trace.head?, t.pwmOut, t.W)) (exec (.init 9) ready)
      = some (5000000, 300, some (.pin 4981500 9 false), 0, 0) := by decide +kernel

/-- INIT 8 only settles; INIT 16 faults at once (2.5). -/
theorem test_init_empty_and_bad :
    after (fun t => (t.now, t.trace, t.pc)) (exec (.init 8) ready) = some (2000000, [], 1) ∧
      after (fun t => (t.now, t.faultCode, t.faultPc)) (exec (.init 16) ready)
        = some (0, .badPin, 0) := by decide +kernel

theorem test_jmp_out_of_range :
    after (fun t => (t.pc, t.runState)) (exec (.jmp 0xFFFF) ready) = some (65535, .run) ∧
      after (fun t => (t.runState, t.faultCode, t.faultPc)) (step { ready with pc := 65535 })
        = some (.faulted, .pcRange, 65535) := by decide +kernel

theorem test_halt :
    after (fun t => (t.runState, t.pc)) (exec .halt { ready with pc := 1 }) = some (.halted, 1) := by
  decide +kernel

/-! ### Fetch, reset and the reset input -/

/-- A blank ROM word faults ILLEGAL_CMD (2.6). -/
theorem test_step_illegal :
    after (fun t => (t.runState, t.faultCode, t.faultPc)) (step { ready with rom := [0] })
      = some (.faulted, .illegalCmd, 0) := by decide +kernel

theorem test_step_fetches :
    after (fun t => t.S) (step (State.reset.withFetchWord 64 0x50000000000002FF)) = some 767 := by
  decide +kernel

theorem test_reset_release :
    after (fun t => (t.runState, t.pc)) (step State.reset) = some (.run, 0) := by decide +kernel

/-- Reset at tick 1000 of EMIT 9, #90 leaves a runt pulse of 1000 ticks (2.4, R238). -/
theorem test_reset_in_frame :
    after (fun t => (t.runState, t.trace, t.W, t.bndValid, t.pwmOut))
        (exec (.emitImm 9 90) { mapped 0 180 with resets := [⟨1000, true⟩] })
      = some (.reset, [.pin 1000 9 false, .pin 0 9 true], 0, false, 0) := by decide +kernel

/-- One tick of the clocked machine: an answer is taken only while a read is pending (R55, U20). -/
theorem test_tick_answer :
    (tick ⟨true, true, 7⟩ (firstAction .sample ready)).sum = 7 ∧
      (tick ⟨true, true, 7⟩ ready).sum = 0 := by decide +kernel

/-! ### The assembler (30_encoding.md R83, R84) -/

/-- `top: MAP 511, 0x3FF, 0, 180 ; loop` -/
theorem test_parse_line :
    parseLine ['t', 'o', 'p', ':', ' ', 'M', 'A', 'P', ' ', '5', '1', '1', ',', ' ', '0', 'x', '3',
        'F', 'F', ',', '0', ',', '1', '8', '0', ' ', ';', 'l']
      = some ⟨[['t', 'o', 'p']], some (.map 511 1023 0 180)⟩ := by decide +kernel

/-- A CYCLE takes three words, so the label after it has value 3; and an operand out of range is
refused. -/
theorem test_assemble_cycle :
    assemble [['C', 'Y', 'C', 'L', 'E', ' ', '9'], ['x', ':', 'J', 'M', 'P', ' ', 'x']]
      = some [.sample, .map 511 1023 0 180, .emitA 9, .jmp 3] ∧
    assemble [['L', 'D', 'S', ' ', '#', '3', '2', '7', '6', '8']] = none := by decide +kernel


/-! ### Witnesses: for each statement with hypotheses, states and operands that meet them -/

theorem ready_readyAt : ready.readyAt := ⟨rfl, rfl, rfl, rfl, rfl, rfl⟩

theorem sampled_readyAt (v : Word16) : (sampled v).readyAt := ⟨rfl, rfl, rfl, rfl, rfl, rfl⟩

theorem mapped_readyAt (a b : Word16) : (mapped a b).readyAt := ⟨rfl, rfl, rfl, rfl, rfl, rfl⟩

/-- In RUN at the word of `i`. -/
def atCommand (i : Instr) : State := { ready with rom := [encode i] }

/-- In the low time of a frame of EMIT 9, A, with 5 ticks left. -/
def inLow : State := { atCommand (.emitA 9) with phase := .emitLow, remaining := 5 }

/-- In the high time of a frame of EMIT 9, A, with 535 ticks left. -/
def inHigh : State :=
  { atCommand (.emitA 9) with
    phase := .emitHigh, remaining := 535, pwmOut := pinBit 9, W := 535, bndValid := true,
    bndOutMax := 180, trace := [.pin 0 9 true] }

/-- A SAMPLE waiting for its third answer. -/
def inRead : State :=
  { atCommand .sample with phase := .sampleRead, adcPending := true, k := 2, sum := 2046 }

/-- After a fault. -/
def stopped : State := faultEntry .badPin ready

/-- In reset, with the reset input still low. -/
def heldInReset : State := { State.reset with rstN := false }

/-- The reset input high, and no answer. -/
def quiet : InputPorts := ⟨true, false, 0⟩

/-- IllegalWordsAreExactlyTheReserved, SequencerStepFetchesAndExecutes and StepRunsTheDecodedCommand: a
blank word, the first index beyond the ROM, and a command. -/
theorem witness_fetch_states :
    (({ ready with rom := [0] } : State).undisturbedTo { ready with rom := [0] }.dispatchEnd ∧
      romRead [0] 0 = some (0 : CommandWord) ∧ decode 0 = .error .reservedOpcode) ∧
    (ready.rom.length ≤ ({ ready with pc := 5 } : State).pc.toNat ∧
      ready.undisturbedTo ready.dispatchEnd ∧
      ready.rom[ready.pc.toNat]? = some (encode (.init 9)) ∧
      decode (encode (.init 9)) = .ok (.init 9)) := by
  refine ⟨⟨rfl, ?_, ?_⟩, ?_, rfl, ?_, ?_⟩ <;> decide +kernel

/-- SequencerStepFetchesAndExecutes, OnlyResetLeavesAStop: a state in each of the run states. -/
theorem witness_run_states :
    (ready.runState = .run ∧ ready.phase = .fetch) ∧
    (({ ready with runState := .halted } : State).runState = .halted ∧ stopped.runState = .faulted) ∧
    (heldInReset.runState = .reset ∧ heldInReset.rstN = false) ∧
    (State.reset.runState = .reset ∧ State.reset.rstN = true) := by decide +kernel

/-- The invariant, as StepRunsTheDecodedCommand and HaltStopsTheSequencer assume it, between commands. -/
theorem witness_ready_inv : ready.Inv := by
  refine ⟨?_, ?_, ?_, ?_, ?_, rfl, ?_, ?_, ?_, ?_, trivial, ?_, ?_, ?_, ?_, ?_, ?_, ?_⟩
  all_goals first
    | decide +kernel
    | exact fun h => absurd h (by decide +kernel)

/-- The invariant in reset, as ReleaseStartsAtRomIndexZero and StepReleasesTheReset assume it. -/
theorem witness_reset_inv :
    heldInReset.Inv ∧ ({ State.reset with rom := [0] } : State).Inv := by
  constructor
  all_goals refine ⟨?_, ?_, ?_, ?_, ?_, rfl, ?_, ?_, ?_, ?_, trivial, ?_, ?_, ?_, ?_, ?_, ?_,
    fun _ => rfl⟩
  all_goals first
    | decide +kernel
    | exact fun h => absurd h (by decide +kernel)

/-- The invariant in the middle of a frame: EveryStepKeepsTheInvariant, EveryClockMoveKeepsTheInvariant,
StepNeverStopsInAReachableState, AtMostOnePinIsHigh. -/
theorem witness_inHigh_inv : inHigh.Inv := by
  refine ⟨?_, ?_, ?_, ?_, ?_, ⟨9, ?_, ?_, rfl⟩, ?_, ?_, ?_, ?_, trivial, ?_, ?_, ?_, ?_, ?_, ?_, ?_⟩
  all_goals first
    | decide +kernel
    | exact fun h => absurd h (by decide +kernel)

/-- The invariant after a fault, as StatusPortsShowTheState assumes it. -/
theorem witness_stopped_inv : stopped.Inv := by
  refine ⟨?_, ?_, ?_, ?_, ?_, rfl, ?_, ?_, ?_, ?_, trivial, ?_, ?_, ?_, ?_, ?_, ?_, ?_⟩
  all_goals first
    | decide +kernel
    | exact fun h => absurd h (by decide +kernel)

/-- The statements about every next state of a step: a command, a command resumed, a stop, a reset. -/
theorem witness_steps :
    (∃ t, step ready = .next t ∧ t.runState = .run) ∧ (∃ t, step inHigh = .next t ∧ t.runState = .run) ∧
    (∃ t, step stopped = .next t) ∧
    ∃ t, step { ready with resets := [⟨1000, true⟩] } = .next t ∧ t.runState = .reset :=
  ⟨⟨_, rfl, by decide +kernel⟩, ⟨_, rfl, by decide +kernel⟩, ⟨_, rfl⟩, ⟨_, rfl, by decide +kernel⟩⟩

/-- SequencerStepFetchesAndExecutes inside a command: a frame that goes on, with another ROM that agrees at
pc, and a SAMPLE that waits. -/
theorem witness_resume :
    (inHigh.Inv ∧ inHigh.runState = .run ∧ inHigh.phase ≠ .fetch ∧
      (inHigh.rom ++ [0])[inHigh.pc.toNat]? = inHigh.rom[inHigh.pc.toNat]?) ∧
    (∃ t, step inHigh = .next t ∧ t.runState = .run ∧ t.phase = .fetch) ∧
    ∃ t, step inRead = .next t ∧ t.runState = .run ∧ t.phase = .sampleRead :=
  ⟨⟨witness_inHigh_inv, rfl, by decide +kernel, by decide +kernel⟩,
    ⟨_, rfl, by decide +kernel, by decide +kernel⟩, ⟨_, rfl, by decide +kernel, by decide +kernel⟩⟩

/-- RomImageIsLittleEndian, AssemblerNeverTruncates and CycleExpandsToTheLoopBody: each clause, at the
ends of its ranges. -/
theorem witness_assembler :
    (AsmCmd.wellFormed (.emitA 256) = false ∧ (0 : Nat) < 8 ∧ (7 : Nat) < 8) ∧
    (assembleCmd [] (.map (-2048) 2047 0 0) = some [.map 0x800 0x7FF 0 0] ∧
      assembleCmd [] (.emitA 255) = some [.emitA 255] ∧
      assembleCmd [] (.emitImm 0 (-32768)) = some [.emitImm 0 0x8000] ∧
      assembleCmd [] (.init 0) = some [.init 0] ∧
      assembleCmd [] (.lds 32767) = some [.lds 0x7FFF] ∧
      assembleCmd [] (.jmp (.index 65535)) = some [.jmp 0xFFFF]) := by decide +kernel

/-- DispatchTakesItsTicks: before the end of a dispatch of 2 ticks, and at it. -/
theorem witness_dispatch :
    let s : State := { ready with build := { Config.Build.vectors with dispatchCycles := 2 } }
    s.readyAt ∧ fetch s = .ok (.init 9) ∧ noResetOn [quiet, quiet] = true ∧
      [quiet].length < s.build.dispatchCycles ∧ [quiet, quiet].length = s.build.dispatchCycles := by
  refine ⟨⟨rfl, rfl, rfl, rfl, rfl, rfl⟩, ?_⟩
  decide +kernel

/-- FaultEntryWritesTheRecord and FaultsArePreciseAndFinal. -/
theorem witness_fault :
    (ready.pwmOut = 0 ∧ ready.resets = []) ∧
    (∃ t, exec (.emitA 16) ready = .next t ∧ t.runState = .faulted) ∧
    ∃ t, step stopped = .next t := ⟨⟨rfl, rfl⟩, ⟨_, rfl, by decide +kernel⟩, ⟨_, rfl⟩⟩

/-- StatusPortsShowTheState: a state for every value of RUNSTATE and FAULT_CODE. -/
theorem witness_status :
    (∀ r : RunState, r = .reset ∨ r = .run ∨ r = .halted ∨ r = .faulted →
      ({ ready with runState := r } : State).runState = r) ∧
    (∀ c : FaultCode, (faultEntry c ready).faultCode = c) := ⟨fun _ _ => rfl, fun _ => rfl⟩

/-- ResetActionClearsEverything: the reset input falls on a tick inside a frame. -/
theorem witness_reset_input :
    (⟨false, false, 0⟩ : InputPorts).rstN = false ∧ inHigh.Inv ∧ inHigh.adcPending = false :=
  ⟨rfl, witness_inHigh_inv, rfl⟩

/-- ReleaseStartsAtRomIndexZero and StepReleasesTheReset: the reset input low and high, the default
ROM's first word, and a blank word at index 0 (its invariant is in witness_reset_inv). -/
theorem witness_release :
    (State.reset.runState = .reset ∧ heldInReset.rstN = false ∧ State.reset.rstN = true) ∧
    (quiet.rstN = true ∧ noResetOn [] = true ∧
      ([] : List InputPorts).length = State.reset.build.dispatchCycles) ∧
    (ready.undisturbedTo ready.build.dispatchCycles ∧
      State.reset.rom[0]? = some (encode (.init 9)) ∧ decode (encode (.init 9)) = .ok (.init 9)) ∧
    decode 0 = .error .reservedOpcode := by
  refine ⟨⟨rfl, rfl, rfl⟩, ⟨rfl, rfl, rfl⟩, ⟨rfl, ?_, ?_⟩, ?_⟩ <;> decide +kernel

/-- ResetInsideAFrameCutsThePulse: a reset in the high time, at its last tick, at the frame's last tick,
and in a frame of width 0. -/
theorem witness_reset_in_frame :
    let s (t : Nat) (b : Word16) : State := { mapped 0 b with resets := [⟨t, true⟩] }
    ((s 1 180).readyAt ∧ (s 1 180).build.wellFormed = true ∧ (s 1 180).pwmOut = 0) ∧
    (emitOperands (.emitImm 9 90) (s 1 180) = some (9, 90) ∧ emitFault (s 1 180) 9 90 = none ∧
      pulseWidth 90 (s 1 180).bndOutMin.toInt (s 1 180).bndOutMax.toInt = (1442 : Nat)) ∧
    (emitFault (s 1 1815) 9 (-535) = none ∧
      pulseWidth (-535) (s 1 1815).bndOutMin.toInt (s 1 1815).bndOutMax.toInt = (0 : Nat)) ∧
    (s 1 180).now < 1 ∧ 1442 ≤ (s 1442 180).now + (s 1442 180).build.ticks 20000 ∧
    20000 ≤ (s 20000 180).now + (s 20000 180).build.ticks 20000 := by
  refine ⟨⟨⟨rfl, rfl, rfl, rfl, rfl, rfl⟩, ?_, rfl⟩, ⟨rfl, ?_⟩, ?_⟩ <;> decide +kernel

/-- ResetInsideASampleDiscardsTheSum: a reset on the last tick of a SAMPLE, and of one that is never
answered. -/
theorem witness_reset_in_sample :
    let s (as : List AdcAnswer) : State := { ready with adc := as, resets := [⟨11011, true⟩] }
    ((s []).readyAt ∧ (s (answers 1023)).readyAt ∧ (s []).now < 11011) ∧
    (11 ≤ (s (answers 1023)).adc.length ∧
      11011 ≤ (s (answers 1023)).now +
        sampleTicks (s (answers 1023)).build ((s (answers 1023)).adc.take 11)) ∧
    ¬11 ≤ (s []).adc.length := by
  refine ⟨⟨⟨rfl, rfl, rfl, rfl, rfl, rfl⟩, ⟨rfl, rfl, rfl, rfl, rfl, rfl⟩, ?_⟩, ?_⟩ <;>
    decide +kernel

/-- ResetInsideAnInitCutsTheFrame: a reset on the last tick of the settle delay, on the first and the last
of the first frame, and on the last of the command. -/
theorem witness_reset_in_init :
    let s (t : Nat) : State := { ready with resets := [⟨t, true⟩] }
    ((s 2000000).readyAt ∧ (s 2000000).pwmOut = 0 ∧ (9 : PinId).toNat < (s 2000000).build.numPins ∧
      (s 2000000).now < 2000000) ∧
    (0 < 150 * initPinCount ready.build 9 ∧ 149 < 150 * initPinCount ready.build 9) ∧
    (let settled := ready.now + ready.build.ticks 2000000
     2000000 ≤ settled ∧
      (settled + ready.build.ticks (20000 * 0) < 2000001 ∧
        2020000 ≤ settled + ready.build.ticks (20000 * (0 + 1))) ∧
      settled + ready.build.ticks (20000 * 149) < 5000000 ∧
        5000000 ≤ settled + ready.build.ticks (20000 * (149 + 1))) := by
  refine ⟨⟨⟨rfl, rfl, rfl, rfl, rfl, rfl⟩, rfl, ?_⟩, ?_⟩ <;> decide +kernel

/-- LdsLoadsTheImmediate, JmpSetsThePc and HaltStopsTheSequencer: the tick of a first action, and the
least target beyond the ROM. -/
theorem witness_plain :
    ready.readyAt ∧ ready.Inv ∧ ready.rom.length ≤ (5 : Word16).toNat ∧
      ready.undisturbedTo (ready.now + ready.build.dispatchCycles) :=
  ⟨ready_readyAt, witness_ready_inv, by decide +kernel, rfl⟩

/-- MapClampsAndInterpolates: a state for each of its branches; MapDivZeroExactly: S at in_min = in_max. -/
theorem witness_map_branches :
    ready.sValid = false ∧ (sampled 5).sValid = true ∧
    (5 : Bound12).toInt < (6 : Bound12).toInt ∧
    ((sampled 5).S.toInt = (5 : Bound12).toInt ∧ (0 : Bound12).toInt ≤ (10 : Bound12).toInt) ∧
    (sampled 510).S.toInt < (511 : Bound12).toInt ∧ (1023 : Bound12).toInt < (sampled 1024).S.toInt := by
  decide +kernel

/-- The statements about a MAP that does not fault: at in_min, at in_max, with equal spans and with an
output span of 0. -/
theorem witness_map_results :
    (∃ t, exec (.map 511 1023 0 180) (sampled 511) = .next t ∧ t.runState = .run) ∧
    (∃ t, exec (.map 511 1023 0 180) (sampled 1023) = .next t ∧ t.runState = .run) ∧
    (∃ t, exec (.map 0 10 5 15) (sampled 10) = .next t ∧ t.runState = .run ∧
      (10 : Bound12).toInt - (0 : Bound12).toInt = (15 : Bound12).toInt - (5 : Bound12).toInt) ∧
    (∃ t, exec (.map 0 10 7 7) (sampled 0) = .next t ∧ t.runState = .run) ∧
    (sampled 511).S.toInt ≤ (sampled 1023).S.toInt ∧ (sampled 511).readyAt :=
  ⟨⟨_, rfl, by decide +kernel⟩, ⟨_, rfl, by decide +kernel⟩, ⟨_, rfl, by decide +kernel⟩,
    ⟨_, rfl, by decide +kernel⟩, by decide +kernel, sampled_readyAt 511⟩

/-- MapAgreesWithSinglePrecision: the ends of the input range in both branches. -/
theorem witness_single_precision :
    (∃ t, exec (.map 511 1023 0 180) (sampled 511) = .next t ∧ t.runState = .run) ∧
    (∃ t, exec (.map 511 1023 0 180) (sampled 1023) = .next t ∧ t.runState = .run) ∧
    (∃ t, exec (.map 0 1 5 6) (sampled 1) = .next t ∧ t.runState = .run) ∧
    ((511 : Bound12).toInt ≤ (sampled 511).S.toInt ∧ (sampled 1023).S.toInt ≤ (1023 : Bound12).toInt ∧
      (sampled 1).S.toInt ≤ (1 : Bound12).toInt) :=
  ⟨⟨_, rfl, by decide +kernel⟩, ⟨_, rfl, by decide +kernel⟩, ⟨_, rfl, by decide +kernel⟩,
    by decide +kernel⟩

/-- SampleAveragesElevenReads, SampleRange (every read 1023, every read 931) and
ClockedSampleRefinesExec. -/
theorem witness_sample :
    let s : State := { atCommand .sample with adc := answers 1023 }
    (s.readyAt ∧ s.adc = answers 1023 ++ [] ∧ (answers 1023).length = 11) ∧
    (s.undisturbedTo (s.now + sampleTicks s.build (answers 1023)) ∧ s.resets = [] ∧
      s.build.wellFormed = true ∧ commandAtPc s = some .sample) ∧
    (∃ t, exec .sample s = .next t ∧ t.runState = .run ∧ 1023 < t.S.toInt) ∧
    (∀ a ∈ answers 931, 931 ≤ a.value.toNat) ∧
    ∃ t, exec .sample { s with adc := answers 931 } = .next t ∧ t.runState = .run := by
  refine ⟨⟨⟨rfl, rfl, rfl, rfl, rfl, rfl⟩, rfl, rfl⟩, ⟨rfl, rfl, ?_, ?_⟩, ⟨_, rfl, ?_⟩, ?_,
    ⟨_, rfl, ?_⟩⟩ <;> decide +kernel

/-- SampleWaitsWithoutAnAnswer and WaitingSampleResumes: ten answers, and none (the invariant is in
witness_ready_inv). -/
theorem witness_waiting :
    let s : State := { atCommand .sample with adc := List.replicate 10 ⟨0, 1023⟩ }
    (s.readyAt ∧ s.adc.length < 11 ∧ s.resets = [] ∧ commandAtPc s = some .sample) ∧
    ((ready.adc.length : Nat) < 11) ∧
    ∃ t, exec .sample { s with adc := List.replicate 10 ⟨0, 1023⟩ } = .next t := by
  refine ⟨⟨⟨rfl, rfl, rfl, rfl, rfl, rfl⟩, ?_, rfl, ?_⟩, ?_, ⟨_, rfl⟩⟩ <;> decide +kernel

/-- EmitChecksInOrder: a state for each of its branches, in both forms of EMIT. -/
theorem witness_emit_branches :
    ((mapped 0 180).readyAt ∧ emitOperands (.emitA 9) (mapped 0 180) = some (9, 0) ∧
      emitOperands (.emitImm 9 5) (mapped 0 180) = some (9, 5)) ∧
    (ready.build.numPins ≤ (16 : PinId).toNat ∧ (15 : PinId).toNat < ready.build.numPins) ∧
    (ready.bndValid = false ∧ (mapped 7 7).bndOutMax = (mapped 7 7).bndOutMin) ∧
    (535 + Int.tdiv ((-54 - 0) * 1815) (180 - 0) < 0 ∧
      20000 < 535 + Int.tdiv ((1931 - 0) * 1815) (180 - 0)) := by
  refine ⟨⟨mapped_readyAt 0 180, rfl, rfl⟩, ?_⟩
  decide +kernel

/-- EmitDrivesOneFrame and ClockedEmitRefinesExec: the widths 0, 1442 and 20000. -/
theorem witness_emit_frame :
    let s (a b : Word16) (imm : Word16) : State :=
      { mapped a b with rom := [encode (.emitImm 9 imm)] }
    ((s 0 1815 0).readyAt ∧ (s 0 1815 0).build.wellFormed = true ∧ (s 0 1815 0).pwmOut = 0 ∧
      (9 : PinId).toNat < (s 0 1815 0).build.numPins ∧ (s 0 1815 0).bndValid = true ∧
      (s 0 1815 0).bndOutMax ≠ (s 0 1815 0).bndOutMin ∧ (s 0 1815 0).resets = []) ∧
    (535 + Int.tdiv ((-535 - 0) * 1815) (1815 - 0) = 0 ∧
      535 + Int.tdiv ((90 - 0) * 1815) (180 - 0) = 1442 ∧
      535 + Int.tdiv ((19465 - 0) * 1815) (1815 - 0) = 20000) ∧
    (commandAtPc (s 0 180 90) = some (.emitImm 9 90) ∧ emitFault (s 0 180 90) 9 90 = none ∧
      emitFault (s 0 1815 19465) 9 19465 = none ∧
      (s 0 180 90).undisturbedTo ((s 0 180 90).now + (s 0 180 90).build.ticks 20000)) := by
  refine ⟨⟨⟨rfl, rfl, rfl, rfl, rfl, rfl⟩, ?_⟩, ?_, ?_, ?_, ?_, rfl⟩ <;> decide +kernel

/-- Port levels for any number of ticks with the reset input high. -/
theorem witness_ports (n : Nat) :
    noResetOn (List.replicate n quiet) = true ∧ (List.replicate n quiet).length = n := by
  simp [noResetOn, quiet]

/-- EmitOfAnInRangeAngleIsSafe: both ends of the range. -/
theorem witness_in_range :
    ((0 : Int) < 180 ∧ (0 : Int) ≤ 0 ∧ (0 : Int) ≤ 180 ∧ (180 : Int) ≤ 180) ∧
    ((mapped 0 180).readyAt ∧ emitOperands (.emitImm 9 180) (mapped 0 180) = some (9, 180) ∧
      (mapped 0 180).bndValid = true ∧
      (mapped 0 180).bndOutMin.toInt < (mapped 0 180).bndOutMax.toInt) ∧
    (∃ t, exec (.emitImm 9 180) (mapped 0 180) = .next t ∧ t.runState = .run) ∧
    (∃ t, exec (.emitImm 16 0) (mapped 0 180) = .next t ∧ t.runState = .faulted) ∧
    inHigh.Inv ∧ inHigh.bndValid = true := by
  refine ⟨?_, ⟨mapped_readyAt 0 180, rfl, rfl, ?_⟩, ⟨_, rfl, ?_⟩, ⟨_, rfl, ?_⟩, witness_inHigh_inv, rfl⟩
  all_goals decide +kernel

/-- EmitScalesByTheLastMap: the EMIT at once after the MAP, and in both its forms after an LDS between. -/
theorem witness_map_emit :
    let s : State := { sampled 768 with rom := [0, encode (.lds 3), encode .halt] }
    ∃ t, exec (.map 511 1023 0 180) s = .next t ∧ t.runState = .run ∧ t.readyAt ∧
      (∃ v, exec (.emitImm 9 90) t = .next v ∧ v.runState = .run) ∧
      commandAtPc t = some (.lds 3) ∧
      ∃ u, stepsFrom 1 t = some u ∧ u.readyAt ∧ emitOperands (.emitA 9) u = some (9, u.A.toInt) ∧
        ∃ v, exec (.emitA 9) u = .next v ∧ v.runState = .run :=
  ⟨_, rfl, by decide +kernel, ⟨rfl, rfl, rfl, rfl, rfl, rfl⟩, ⟨_, rfl, by decide +kernel⟩,
    by decide +kernel, _, rfl, ⟨rfl, rfl, rfl, rfl, rfl, rfl⟩, rfl, _, rfl, by decide +kernel⟩

/-- InitChecksItsPinFirst, InitDrivesEveryPinOfTheRange and ClockedInitRefinesExec: the first pin beyond
the board, the last on it, an empty range and one of one pin. -/
theorem witness_init :
    (ready.build.numPins ≤ (16 : PinId).toNat ∧ (15 : PinId).toNat < ready.build.numPins) ∧
    ((atCommand (.init 15)).readyAt ∧ (atCommand (.init 15)).pwmOut = 0 ∧
      (atCommand (.init 15)).resets = [] ∧ commandAtPc (atCommand (.init 15)) = some (.init 15)) ∧
    (initPinCount ready.build 8 = 0 ∧ initPinCount ready.build 9 = 1 ∧
      initPinCount ready.build 15 = 7) ∧
    ready.undisturbedTo (ready.now + ready.build.ticks (2000000 + 3000000 * 7)) := by
  refine ⟨?_, ⟨⟨rfl, rfl, rfl, rfl, rfl, rfl⟩, rfl, rfl, ?_⟩, ?_, rfl⟩ <;> decide +kernel

/-- OnlyItsCommandsWriteARegister: a command of each kind that ends, and PW_OOR already set. -/
theorem witness_writes :
    (∃ t, exec .halt { ready with pwOor := true } = .next t ∧ t.runState ≠ .reset ∧
      t.runState ≠ .faulted) ∧
    emitOperands .halt ready = none := ⟨⟨_, rfl, by decide +kernel⟩, rfl⟩

/-- TraceTellsThePinLevels: a state in the middle of a frame, its rise in the trace. -/
theorem witness_trace : inHigh.TraceFaithful := by
  refine ⟨?_, ?_, ?_⟩
  · decide +kernel
  · simp [inHigh, eventTick]
  · simp [inHigh, eventTick]

/-- WaitsLastExactlyTheirTicks and StepAgreesFromInsideAWait: 4 and 5 ticks of a wait of 5. -/
theorem witness_wait :
    (inLow.runState = .run ∧ inLow.phase ≠ .fetch ∧ inLow.phase ≠ .sampleRead ∧
      inLow.adcReq = false ∧ noResetOn (List.replicate 5 quiet) = true) ∧
    (4 < inLow.remaining ∧ 5 = inLow.remaining ∧ 0 < inLow.remaining ∧ 1 < inLow.remaining) ∧
    (inLow.resets = [] ∧ quiet.rstN = true) := by decide +kernel

/-- AdcHandshake: the last settle wait before a request, two ticks without an answer, and a state with
no read pending. -/
theorem witness_handshake :
    (let s : State := { atCommand .sample with phase := .sampleSettle, k := 9, remaining := 2 }
     s.runState = .run ∧ s.phase = .sampleSettle ∧ s.k + 1 < 11 ∧ s.adcReq = false ∧
      [quiet, quiet].length = s.remaining ∧ 0 < s.remaining) ∧
    (inRead.runState = .run ∧ inRead.phase = .sampleRead ∧ inRead.adcPending = true ∧
      noResetOn [quiet, quiet] = true ∧ ([quiet, quiet].all fun p => !p.adcAck) = true ∧
      [quiet, quiet] ≠ []) ∧
    ready.adcPending = false := by decide +kernel

end Sys2Proof.Tests
end

namespace Sys2Proof.Machine

/-! ## The trace stays faithful (00_scope.md R13)

Each operation adds entries of the present tick in front of the trace, or none, and the entries it
adds are the levels it drives. -/

section Trace

theorem mem_highPins {levels : PinLevels} {p : Nat} :
    p ∈ highPins levels ↔ p < 256 ∧ levels.getLsbD p = true := by
  simp [highPins]

/-- What one pin's level is after another is driven, or itself (20_memory.md R56). -/
theorem pinLevel_pinWrite {p q : Nat} (hp : p < 256) (lvl : Bool) (s : State) :
    (pinWrite p lvl s).pinLevel q = if q = p then lvl else s.pinLevel q := by
  have hbit := pinBit_getLsbD hp q
  by_cases h : q = p
  · subst h
    cases lvl <;> simp [State.pinLevel, hbit]
  · cases lvl with
    | false => simpa [State.pinLevel, hbit, h] using BitVec.lt_of_getLsbD
    | true => simp [State.pinLevel, hbit, h]

/-- A falling edge decides its pin's level, and no other's. -/
theorem tracedLevel_falls (n p : Nat) (tr : List TraceEvent) :
    ∀ qs : List Nat, tracedLevel p (qs.map (fun q => .pin n q false) ++ tr) =
      if p ∈ qs then false else tracedLevel p tr
  | [] => by simp
  | q :: qs => by
    have ih := tracedLevel_falls n p tr qs
    by_cases h : q = p
    · simp [tracedLevel, h]
    · simp [tracedLevel, h, ih, Ne.symm h]

/-- New entries of one tick, not before the present one, keep the trace faithful when it then gives the
new levels. -/
theorem State.TraceFaithful.extend {s t : State} (h : s.TraceFaithful) {n : Nat} (es : List TraceEvent)
    (htrace : t.trace = es ++ s.trace) (htick : ∀ e ∈ es, eventTick e = n) (hs : s.now ≤ n)
    (ht : n ≤ t.now) (hlevels : ∀ p < 256, tracedLevel p t.trace = t.pinLevel p) :
    t.TraceFaithful where
  levels := hlevels
  ordered := by
    rw [htrace, List.map_append, List.pairwise_append]
    refine ⟨?_, h.ordered, ?_⟩
    · rw [List.map_congr_left htick, List.map_const']
      exact List.pairwise_replicate.mpr (.inr le_rfl)
    · simp only [List.mem_map]
      rintro _ ⟨e, he, rfl⟩ _ ⟨f, hf, rfl⟩
      have := htick e he
      have := h.past f hf
      omega
  past e he := by
    rw [htrace, List.mem_append] at he
    obtain he | he := he
    · exact (htick e he).trans_le ht
    · exact (h.past e he).trans (hs.trans ht)

/-- Faithfulness reads the pins, the trace and the time alone, and time may pass. -/
theorem State.TraceFaithful.of_same {s t : State} (h : s.TraceFaithful) (hpins : t.pwmOut = s.pwmOut)
    (htrace : t.trace = s.trace) (hnow : s.now ≤ t.now) : t.TraceFaithful :=
  h.extend [] htrace (by simp) le_rfl hnow fun p hp => by
    rw [htrace, h.levels p hp]; simp [State.pinLevel, hpins]

theorem State.TraceFaithful.elapse {s : State} (h : s.TraceFaithful) (n : Nat) :
    (Machine.elapse n s).TraceFaithful := h.of_same rfl rfl (Nat.le_add_right ..)

theorem State.TraceFaithful.complete {s : State} (h : s.TraceFaithful) :
    (Machine.complete s).TraceFaithful := h.of_same rfl rfl le_rfl

theorem State.TraceFaithful.beginWait {s : State} (h : s.TraceFaithful) (ph : Phase) (us : Nat) :
    (Machine.beginWait ph us s).TraceFaithful := h.of_same rfl rfl le_rfl

theorem State.TraceFaithful.adcRequest {s : State} (h : s.TraceFaithful) :
    (Machine.adcRequest s).TraceFaithful :=
  h.extend [.request s.now s.build.adcChannel] rfl (by simp [eventTick]) le_rfl le_rfl h.levels

/-- A pin write records its edge, and nothing when the pin has that level already (20_memory.md R56). -/
theorem State.TraceFaithful.pinWrite {s : State} (h : s.TraceFaithful) {p : Nat} (hp : p < 256)
    (lvl : Bool) : (Machine.pinWrite p lvl s).TraceFaithful := by
  by_cases hsame : s.pwmOut.getLsbD p = lvl
  · refine h.extend [] (by simp [hsame]) (by simp) le_rfl le_rfl fun q hq => ?_
    rw [pinLevel_pinWrite hp, pinWrite_trace, if_pos hsame, h.levels q hq]
    split
    next hqp => rw [hqp]; exact hsame
    next => rfl
  · refine h.extend [.pin s.now p lvl] (by simp [hsame]) (by simp [eventTick]) le_rfl le_rfl
      fun q hq => ?_
    rw [pinLevel_pinWrite hp, pinWrite_trace, if_neg hsame, ← h.levels q hq]
    simp [tracedLevel, eq_comm]

/-- Every pin driven low at once, at a tick `n` not before the present one: the falling edges of the pins
that were high (60_exceptions.md R202, 70_reset_and_hazards.md R238). -/
theorem State.TraceFaithful.allLow {s t : State} (h : s.TraceFaithful) {n : Nat} (hn : s.now ≤ n)
    (hpins : t.pwmOut = 0) (htrace : t.trace = dropEdges { s with now := n }) (hnow : n ≤ t.now) :
    t.TraceFaithful := by
  refine h.extend _ htrace (by simp [eventTick]) hn hnow fun p hp => ?_
  have hlow : p ∉ highPins s.pwmOut → tracedLevel p s.trace = false := by
    intro hmem
    rw [h.levels p hp]
    simpa [mem_highPins, hp, State.pinLevel] using hmem
  rw [htrace, dropEdges, tracedLevel_falls]
  simpa [State.pinLevel, hpins] using hlow

theorem State.TraceFaithful.faultEntry {s : State} (h : s.TraceFaithful) (code : FaultCode) :
    (Machine.faultEntry code s).TraceFaithful := h.allLow le_rfl rfl rfl le_rfl

theorem State.TraceFaithful.takeReset {s : State} (h : s.TraceFaithful) :
    (Machine.takeReset s).TraceFaithful := by
  obtain ⟨-, ht⟩ | ⟨r, rest, -, ht⟩ := takeReset_cases s
  · rwa [ht]
  · rw [ht]; exact h.allLow (le_max_left s.now r.tick) rfl rfl le_rfl

theorem State.TraceFaithful.initRise {s : State} (h : s.TraceFaithful) :
    (Machine.initRise s).TraceFaithful := (h.pinWrite s.curPin.isLt true).beginWait _ _

theorem State.TraceFaithful.emitFall {s : State} (h : s.TraceFaithful) (pin : PinId) :
    (Machine.emitFall pin s).TraceFaithful := by
  have hfall := h.pinWrite pin.isLt false
  unfold Machine.emitFall
  dsimp only
  split
  · exact hfall.complete
  · exact hfall.beginWait _ _

/-- The end of a wait keeps the trace faithful, whatever the phase. -/
theorem State.TraceFaithful.waitEnded {s : State} {op : PinId} (h : s.TraceFaithful) :
    (Machine.waitEnded op s).TraceFaithful := by
  cases hp : s.phase with
  | fetch => simpa [Machine.waitEnded, hp] using h
  | sampleRead => simpa [Machine.waitEnded, hp] using h
  | sampleSettle =>
    rw [waitEnded_sampleSettle hp]
    by_cases hk : s.k + 1 < 11
    · rw [sampleSettled_next hk]
      exact .adcRequest (h.of_same rfl rfl le_rfl)
    · rw [sampleSettled_last hk]; exact h.of_same rfl rfl le_rfl
  | emitHigh => rw [waitEnded_emitHigh hp]; exact h.emitFall op
  | emitLow => rw [waitEnded_emitLow hp]; exact h.complete
  | initSettle =>
    rw [waitEnded_initSettle hp]
    unfold initSettled
    split
    · exact h.complete
    · exact .initRise (h.of_same rfl rfl le_rfl)
  | initHigh =>
    rw [waitEnded_initHigh hp]
    exact (h.pinWrite s.curPin.isLt false).beginWait _ _
  | initLow =>
    rw [waitEnded_initLow hp]
    unfold initFrameEnd
    split
    · exact .initRise (h.of_same rfl rfl le_rfl)
    · split
      · exact .initRise (h.of_same rfl rfl le_rfl)
      · exact h.of_same rfl rfl le_rfl

theorem State.TraceFaithful.advance {s s' : State} {op : PinId} (h : s.TraceFaithful)
    (ha : Machine.advance op s = some s') : s'.TraceFaithful := by
  obtain ⟨-, -, ⟨-, rfl⟩ | ⟨-, a, rest, -, rfl⟩ | ⟨-, rfl⟩⟩ := advance_cases ha
  · exact h.takeReset
  · exact (h.elapse (a.wait + 1)).of_same rfl rfl le_rfl
  · exact .waitEnded ((h.elapse s.remaining).of_same rfl rfl le_rfl)

theorem State.TraceFaithful.finish {s : State} (h : s.TraceFaithful) (op : PinId) :
    (Machine.finish op s).TraceFaithful :=
  finish_keeps (P := State.TraceFaithful) (fun _ _ hs ha => hs.advance ha) h

theorem State.TraceFaithful.beginEmit {s : State} (h : s.TraceFaithful) (pin : PinId) (angle : Int) :
    (Machine.beginEmit pin angle s).TraceFaithful := by
  have hrise : ∀ {t : State}, t.TraceFaithful → (emitRise pin t).TraceFaithful := by
    intro t ht
    unfold emitRise
    split
    · exact ht.emitFall pin
    · exact (ht.pinWrite pin.isLt true).beginWait _ _
  unfold Machine.beginEmit
  split
  · exact h.faultEntry _
  · exact hrise (h.of_same rfl rfl le_rfl)

/-- The first action of every command keeps the trace faithful. -/
theorem State.TraceFaithful.firstAction {s : State} (h : s.TraceFaithful) (i : Instr) :
    (Machine.firstAction i s).TraceFaithful := by
  cases i with
  | sample => exact .adcRequest (h.of_same rfl rfl le_rfl)
  | map a b c d =>
    change (beginMap a b c d s).TraceFaithful
    unfold beginMap
    dsimp only
    split
    · exact h.faultEntry _
    · exact h.of_same rfl rfl le_rfl
  | emitA pin => exact h.beginEmit pin _
  | emitImm pin imm => exact h.beginEmit pin _
  | init endPin =>
    change (beginInit endPin s).TraceFaithful
    unfold beginInit
    split
    · exact h.faultEntry _
    · exact h.beginWait _ _
  | lds imm => exact h.of_same rfl rfl le_rfl
  | jmp target => exact h.of_same rfl rfl le_rfl
  | halt => exact h.of_same rfl rfl le_rfl

/-- A release starts an empty trace, and every pin is low then: RESET holds the reset values (R231). -/
theorem resetRelease_traceFaithful {s : State} (hv : HoldsResetValues s) :
    (resetRelease s).TraceFaithful := by
  have hpins : s.pwmOut = 0 := congrArg State.pwmOut hv
  exact ⟨fun p _ => by simp [tracedLevel, State.pinLevel, hpins], by simp, by simp⟩

end Trace

/-- Settles O50: every operation a step is made of keeps the trace faithful; the invariant is needed at
the release alone. -/
theorem traceTellsThePinLevels : Obligations.TraceTellsThePinLevels := by
  intro s t hinv h hstep
  obtain ⟨hr, rfl⟩ | ⟨-, rfl⟩ | ⟨-, -, -, rfl⟩ | ⟨-, -, -, hfetch⟩ | ⟨-, -, op, -, rfl⟩ :=
    step_cases hstep
  · split
    · exact resetRelease_traceFaithful (hinv.in_reset hr)
    · exact h
  · exact h.takeReset
  · exact h.takeReset
  · have hdone : (dispatchDone s).TraceFaithful :=
      h.of_same rfl rfl (Nat.le_add_right ..)
    obtain ⟨code, -, rfl⟩ | ⟨i, -, rfl⟩ := hfetch
    · exact hdone.faultEntry code
    · exact (hdone.firstAction i).finish _
  · exact h.finish op

/-! ## A step always gives a next state -/

/-- Fetch and execute never stop the machine: a fetch fault is a next state, and so is every command. -/
theorem fetchAndExec_next (s : State) : ∃ t, fetchAndExec s = .next t := by
  unfold fetchAndExec
  split
  · exact ⟨_, rfl⟩
  · exact ⟨_, exec_eq_finish _ s⟩

/-- Settles O48: the one stop, in RUN inside a command, needs a phase that is none of the command's at
pc, which the invariant excludes. -/
theorem stepNeverStopsInAReachableState : Obligations.StepNeverStopsInAReachableState := by
  intro s hinv
  cases hr : s.runState with
  | reset => exact ⟨_, by simp only [step, hr]; rfl⟩
  | halted => exact ⟨_, by simp only [step, hr]; rfl⟩
  | faulted => exact ⟨_, by simp only [step, hr]; rfl⟩
  | run =>
    by_cases hp : s.phase = .fetch
    · by_cases hb : s.resetBy s.dispatchEnd = true
      · exact ⟨takeReset s, by simp [step, hr, stepRun, hp, hb]⟩
      · rw [step_fetch hr hp (by simpa [State.undisturbedTo] using hb)]
        exact fetchAndExec_next _
    · obtain ⟨-, hop⟩ := hinv.in_execution hp
      obtain ⟨op, ho⟩ := Option.isSome_iff_exists.mp hop
      exact ⟨_, step_resume hr hp ho⟩

/-! ## A SAMPLE whose answers come late (00_scope.md R12 (c))

The answers still to come can be appended to the script before or after any number of the waits of a
SAMPLE, and no SAMPLE uses up the waits `finish` allows. -/

section LateAnswers

/-- `s` with more answers at the end of the converter's script. -/
def withAnswers (more : List AdcAnswer) (s : State) : State := { s with adc := s.adc ++ more }

/-- A SAMPLE before its eleventh settle wait is over, or the state it completes in, with no reset to
come. -/
def InSample (s : State) : Prop :=
  s.resets = [] ∧
    (s.phase = .fetch ∨ (s.phase = .sampleRead ∨ s.phase = .sampleSettle) ∧ s.k < 11)

/-- The waits a SAMPLE in execution still has before it: two for each read. -/
def sampleWaitsLeft (s : State) : Nat :=
  match s.phase with
  | .sampleRead => 2 * (11 - s.k)
  | .sampleSettle => 2 * (11 - s.k) - 1
  | .fetch => 0
  | .emitHigh => 0
  | .emitLow => 0
  | .initSettle => 0
  | .initHigh => 0
  | .initLow => 0

theorem sampleWaitsLeft_le (s : State) : sampleWaitsLeft s ≤ 22 := by
  unfold sampleWaitsLeft
  split <;> omega

/-- What an advance of a SAMPLE can do with no reset to come: take an answer, or end a settle wait. -/
theorem advance_sample_cases {op : PinId} {s s' : State} (hs : InSample s)
    (h : advance op s = some s') :
    s.resets = [] ∧ s.runState = .run ∧ s.k < 11 ∧
      ((s.phase = .sampleRead ∧ ∃ a rest, s.adc = a :: rest ∧
          s' = adcAnswered a.value { elapse (a.wait + 1) s with adc := rest }) ∨
        (s.phase = .sampleSettle ∧ s' = sampleSettled { elapse s.remaining s with remaining := 0 })) := by
  obtain ⟨hn, hphase⟩ := hs
  obtain ⟨hr, hf, hcases⟩ := advance_cases h
  obtain ⟨hphase, hk⟩ := hphase.resolve_left hf
  refine ⟨hn, hr, hk, ?_⟩
  obtain ⟨hne, -⟩ | hread | ⟨hread, hended⟩ := hcases
  · exact absurd hn hne
  · exact .inl hread
  · have hsettle := hphase.resolve_left hread
    rw [waitEnded_sampleSettle (by simpa using hsettle)] at hended
    exact .inr ⟨hsettle, hended⟩

/-- Every advance of a SAMPLE is one wait less. -/
theorem advance_sample_waitsLeft {op : PinId} {s s' : State} (hs : InSample s)
    (h : advance op s = some s') : InSample s' ∧ sampleWaitsLeft s' < sampleWaitsLeft s := by
  obtain ⟨hn, -, hk, ⟨hp, a, rest, -, rfl⟩ | ⟨hp, rfl⟩⟩ := advance_sample_cases hs h
  · refine ⟨⟨hn, .inr ⟨.inr rfl, hk⟩⟩, ?_⟩
    simp only [sampleWaitsLeft, hp, adcAnswered_phase, adcAnswered_k, elapse_k]
    omega
  · by_cases hlast : s.k + 1 < 11
    · rw [sampleSettled_next (by exact hlast)]
      refine ⟨⟨hn, .inr ⟨.inl rfl, hlast⟩⟩, ?_⟩
      simp only [sampleWaitsLeft, hp, adcRequest_phase, adcRequest_k, elapse_k]
      omega
    · rw [sampleSettled_last (by exact hlast)]
      refine ⟨⟨hn, .inl rfl⟩, ?_⟩
      simp only [sampleWaitsLeft, hp, complete_phase]
      omega

/-- With fuel for the waits left, a SAMPLE runs on until nothing advances. -/
theorem runOn_sample_stuck {op : PinId} :
    ∀ (n : Nat) (s : State), InSample s → sampleWaitsLeft s ≤ n →
      advance op (runOn op n s) = none := by
  intro n
  induction n with
  | zero =>
    intro s hs hn
    by_contra hne
    obtain ⟨s', ha⟩ := Option.ne_none_iff_exists'.mp hne
    have := (advance_sample_waitsLeft hs ha).2
    omega
  | succ n ih =>
    intro s hs hn
    cases ha : advance op s with
    | none => rwa [runOn_of_stuck ha]
    | some s' =>
      obtain ⟨hs', hlt⟩ := advance_sample_waitsLeft hs ha
      rw [runOn_succ ha]
      exact ih s' hs' (by omega)

/-- `finish` runs a SAMPLE until nothing advances. -/
theorem finish_sample_stuck {op : PinId} {s : State} (hs : InSample s) :
    advance op (finish op s) = none :=
  runOn_sample_stuck maxWaits s hs ((sampleWaitsLeft_le s).trans (by decide))

/-- The waits of `finish` do not run out in a SAMPLE, so one wait may be passed before it. -/
theorem finish_advance {op : PinId} {s s' : State} (hs : InSample s) (h : advance op s = some s') :
    finish op s = finish op s' := by
  have hstuck : advance op (runOn op (maxWaits - 1) s') = none := by
    obtain ⟨hs', -⟩ := advance_sample_waitsLeft hs h
    exact runOn_sample_stuck _ s' hs' ((sampleWaitsLeft_le s').trans (by decide))
  have hfuel : maxWaits = (maxWaits - 1) + 1 := by decide
  calc finish op s = runOn op (maxWaits - 1) s' := by rw [finish, hfuel, runOn_succ h]; rfl
    _ = runOn op 1 (runOn op (maxWaits - 1) s') := (runOn_of_stuck hstuck 1).symm
    _ = finish op s' := by rw [finish, hfuel, runOn_add]; rfl

/-- The end of a settle wait does not look at the script. -/
theorem sampleSettled_withAnswers (more : List AdcAnswer) (s : State) :
    sampleSettled (withAnswers more s) = withAnswers more (sampleSettled s) := by
  by_cases hk : s.k + 1 < 11
  · rw [sampleSettled_next hk, sampleSettled_next (s := withAnswers more s) hk]; rfl
  · rw [sampleSettled_last hk, sampleSettled_last (s := withAnswers more s) hk]; rfl

/-- An advance of a SAMPLE takes the first answer only, so more may be appended before or after it. -/
theorem advance_withAnswers {op : PinId} {s s' : State} (hs : InSample s) (h : advance op s = some s')
    (more : List AdcAnswer) : advance op (withAnswers more s) = some (withAnswers more s') := by
  obtain ⟨hn, hr, -, ⟨hp, a, rest, ha, rfl⟩ | ⟨hp, rfl⟩⟩ := advance_sample_cases hs h
  · have hmore : (withAnswers more s).adc = a :: (rest ++ more) := by simp [withAnswers, ha]
    rw [advance_read op (s := withAnswers more s) hr hp hmore,
      runTo_of_undisturbed (resetBy_of_no_resets (s := withAnswers more s) hn _),
      show (withAnswers more s).now = s.now from rfl, Nat.add_sub_cancel_left]
    rfl
  · have hf : s.phase ≠ .fetch := by simp [hp]
    have hread : s.phase ≠ .sampleRead := by simp [hp]
    rw [advance_wait op (s := withAnswers more s) hr hf hread,
      runTo_of_undisturbed (resetBy_of_no_resets (s := withAnswers more s) hn _), Nat.add_sub_cancel_left,
      waitEnded_sampleSettle (by exact hp), ← sampleSettled_withAnswers]
    rfl

theorem InSample.withAnswers {s : State} (hs : InSample s) (more : List AdcAnswer) :
    InSample (withAnswers more s) := hs

/-- Late answers are as good as early ones: a SAMPLE that has run on and is then given more answers runs
on to where it would have got with all of them from the start. -/
theorem finish_withAnswers {op : PinId} (more : List AdcAnswer) (s : State) (hs : InSample s) :
    finish op (withAnswers more (finish op s)) = finish op (withAnswers more s) := by
  induction hw : sampleWaitsLeft s using Nat.strong_induction_on generalizing s with
  | h w ih =>
    cases ha : advance op s with
    | none => rw [show finish op s = s from runOn_of_stuck ha _]
    | some s' =>
      obtain ⟨hs', hlt⟩ := advance_sample_waitsLeft hs ha
      rw [finish_advance hs ha, ih _ (hw ▸ hlt) s' hs' rfl,
        finish_advance (hs.withAnswers more) (advance_withAnswers hs ha more)]

/-- A SAMPLE of the command at `s.pc` that cannot complete: fewer answers are to come than it has reads
to take. -/
def ShortOfAnswers (s t : State) : Prop :=
  t.resets = [] ∧ t.runState = .run ∧ t.rom = s.rom ∧ t.pc = s.pc ∧
    (t.phase = .sampleRead ∧ t.k + t.adc.length < 11 ∨
      t.phase = .sampleSettle ∧ t.k + 1 + t.adc.length < 11)

theorem ShortOfAnswers.inSample {s t : State} (h : ShortOfAnswers s t) : InSample t := by
  obtain ⟨hn, -, -, -, ⟨hp, hk⟩ | ⟨hp, hk⟩⟩ := h
  · exact ⟨hn, .inr ⟨.inl hp, by omega⟩⟩
  · exact ⟨hn, .inr ⟨.inr hp, by omega⟩⟩

/-- A SAMPLE short of answers stays so: each read takes one answer. -/
theorem ShortOfAnswers.advance {op : PinId} {s t t' : State} (h : ShortOfAnswers s t)
    (ha : Machine.advance op t = some t') : ShortOfAnswers s t' := by
  obtain ⟨-, -, -, hcases⟩ := advance_sample_cases h.inSample ha
  obtain ⟨hn, hr, hrom, hpc, hshort⟩ := h
  obtain ⟨hp, a, rest, hadc, rfl⟩ | ⟨hp, rfl⟩ := hcases
  · refine ⟨hn, hr, hrom, hpc, .inr ⟨rfl, ?_⟩⟩
    simp only [hp, hadc, List.length_cons, reduceCtorEq, false_and, or_false, true_and] at hshort
    simp only [adcAnswered_k, adcAnswered_adc, elapse_k]
    omega
  · simp only [hp, reduceCtorEq, false_and, false_or, true_and] at hshort
    rw [sampleSettled_next (by exact (show t.k + 1 < 11 by omega))]
    exact ⟨hn, hr, hrom, hpc, .inl ⟨rfl, hshort⟩⟩

/-- A SAMPLE short of answers ends waiting for one (60_exceptions.md R212). -/
theorem ShortOfAnswers.finish {op : PinId} {s t : State} (h : ShortOfAnswers s t) :
    (Machine.finish op t).WaitsForAnswer ∧ (Machine.finish op t).rom = s.rom ∧
      (Machine.finish op t).pc = s.pc := by
  have hend : ShortOfAnswers s (Machine.finish op t) :=
    finish_keeps (P := ShortOfAnswers s) (fun _ _ hs ha => hs.advance ha) h
  have hstuck := finish_sample_stuck (op := op) h.inSample
  obtain ⟨-, hr, hrom, hpc, hphase⟩ := hend
  refine ⟨(advance_none_cases hstuck hr).resolve_left ?_, hrom, hpc⟩
  obtain ⟨hp, -⟩ | ⟨hp, -⟩ := hphase <;> simp [hp]

/-- A waiting SAMPLE that is given answers resumes with them (00_scope.md R12 (c)). -/
theorem step_of_waiting {t : State} (hw : t.WaitsForAnswer) (hc : commandAtPc t = some .sample)
    (more : List AdcAnswer) :
    step { t with adc := more } = .next (finish 0 (withAnswers more t)) := by
  obtain ⟨hr, hp, hadc, -⟩ := hw
  have heq : { t with adc := more } = withAnswers more t := by simp [withAnswers, hadc]
  have hop : operandInPhase (withAnswers more t) = some 0 :=
    (operandInPhase_of_command (s := withAnswers more t) hc).trans
      (congrArg (phaseOperand · .sample) hp)
  have hf : t.phase ≠ .fetch := by simp [hp]
  rw [heq, step_resume (s := withAnswers more t) hr hf hop]

end LateAnswers

/-- Settles O35: the SAMPLE stands waiting in a read, the step resumes it, and late answers are as good
as early ones. -/
theorem waitingSampleResumes : Obligations.WaitingSampleResumes := by
  rintro s t as more ⟨hr, -⟩ hn hlen hc ht
  have hshort : ShortOfAnswers s (beginSample { s with adc := as }) :=
    ⟨hn, hr, rfl, rfl, .inl ⟨rfl, by simpa [beginSample] using hlen⟩⟩
  have hfinish : finish 0 (beginSample { s with adc := as }) = t :=
    Host.Outcome.next.inj ((exec_eq_finish .sample { s with adc := as }).symm.trans ht)
  obtain ⟨hwaits, hrom, hpc⟩ := hfinish ▸ hshort.finish (op := 0)
  calc step { t with adc := more }
      = .next (finish 0 (withAnswers more t)) :=
        step_of_waiting hwaits ((commandAtPc_congr hrom hpc).trans hc) more
    _ = .next (finish 0 (withAnswers more (beginSample { s with adc := as }))) := by
        rw [← hfinish, finish_withAnswers more _ hshort.inSample]
    _ = exec .sample { s with adc := as ++ more } := rfl

end Sys2Proof.Machine

namespace Sys2Proof.Machine

/-! ## The invariant is kept (10_state.md R21 to R32)

In RUN the invariant is two parts: what the registers and the fault record hold, and what the phase of
the command in execution says of the pins, the read and the counters. Every action of a command keeps
both, and a fault, a HALT and a reset take them to a state at rest. -/

section Invariant

/-- R22, R24: what the invariant says of A and the bounds. -/
def MappingInv (s : State) : Prop :=
  (s.bndValid = true →
    s.bndInMin.toInt ≤ s.bndInMax.toInt ∧ s.bndOutMin.toInt ≤ s.bndOutMax.toInt) ∧
  (s.bndValid = true → s.bndOutMin.toInt ≤ s.A.toInt ∧ s.A.toInt ≤ s.bndOutMax.toInt) ∧
  (s.bndValid = false →
    s.A = 0 ∧ s.bndInMin = 0 ∧ s.bndInMax = 0 ∧ s.bndOutMin = 0 ∧ s.bndOutMax = 0)

/-- R21 to R24: what the invariant says of the registers. -/
def RegistersInv (s : State) : Prop :=
  MappingInv s ∧ (s.sValid = false → s.S = 0) ∧ s.W.toNat ≤ Config.refreshUs

/-- R27: what the invariant says of the fault record. -/
def FaultRecordInv (s : State) : Prop :=
  (s.runState = .faulted ↔ s.faultCode ≠ .none) ∧ (s.runState = .faulted → s.faultPc = s.pc) ∧
    (s.faultCode = .none → s.faultPc = 0)

/-- RUN, with no fault on record and the registers as the invariant has them. -/
def Running (s : State) : Prop :=
  s.runState = .run ∧ s.faultCode = .none ∧ s.faultPc = 0 ∧ RegistersInv s

/-- No conversion is requested or pending (20_memory.md R55). -/
def NoRead (s : State) : Prop := s.adcReq = false ∧ s.adcPending = false

/-- The pin and frame of an INIT to `endPin` (10_state.md R32, 43_init.md R160). -/
def FrameInRange (endPin : PinId) (s : State) : Prop :=
  endPin.toNat < s.build.numPins ∧ s.build.pinControlMin.toNat ≤ s.curPin.toNat ∧
    s.curPin.toNat ≤ endPin.toNat ∧ s.frame < Config.initFrames

/-- What the invariant says in each phase (R31, R32), `op` the operand of the command in execution. -/
def PhaseInv (op : PinId) (s : State) : Prop :=
  match s.phase with
  | .fetch => NoRead s ∧ s.pwmOut = 0 ∧ s.remaining = 0
  | .sampleRead =>
    operandInPhase s = some op ∧ s.adcPending = true ∧ s.pwmOut = 0 ∧
      s.k < Config.sampleReads ∧ s.sum.toNat ≤ 1023 * s.k
  | .sampleSettle =>
    operandInPhase s = some op ∧ NoRead s ∧ s.pwmOut = 0 ∧
      s.k < Config.sampleReads ∧ s.sum.toNat ≤ 1023 * (s.k + 1)
  | .emitHigh =>
    operandInPhase s = some op ∧ NoRead s ∧ s.pwmOut = pinBit op.toNat ∧ op.toNat < s.build.numPins
  | .emitLow => operandInPhase s = some op ∧ NoRead s ∧ s.pwmOut = 0
  | .initSettle =>
    operandInPhase s = some op ∧ NoRead s ∧ s.pwmOut = 0 ∧ op.toNat < s.build.numPins
  | .initHigh =>
    operandInPhase s = some op ∧ NoRead s ∧ s.pwmOut = pinBit s.curPin.toNat ∧ FrameInRange op s
  | .initLow => operandInPhase s = some op ∧ NoRead s ∧ s.pwmOut = 0 ∧ FrameInRange op s

/-! ### The invariant and its parts -/

theorem State.Inv.registersInv {s : State} (h : s.Inv) : RegistersInv s :=
  ⟨⟨h.bounds_ordered, h.angle_in_bounds, h.unmapped_zero⟩, h.unsampled_zero, h.width_fits⟩

theorem State.Inv.faultRecordInv {s : State} (h : s.Inv) : FaultRecordInv s :=
  ⟨h.fault_record, h.fault_pc, h.no_fault_pc⟩

theorem State.Inv.running {s : State} (h : s.Inv) (hr : s.runState = .run) : Running s := by
  have hcode : s.faultCode = .none := by
    by_contra hne
    cases hr.symm.trans (h.fault_record.mpr hne)
  exact ⟨hr, hcode, h.no_fault_pc hcode, h.registersInv⟩

/-- Outside a read no conversion is requested or pending. -/
theorem State.Inv.noRead {s : State} (h : s.Inv) (hp : s.phase ≠ .sampleRead) : NoRead s :=
  ⟨Bool.eq_false_iff.mpr fun hq => hp (h.request_in_read hq),
    Bool.eq_false_iff.mpr fun hq => hp (h.pending.mp hq)⟩

theorem FrameInRange.of_operand {op : PinId} {s : State} (ho : operandInPhase s = some op) :
    InitFrameInRange s → FrameInRange op s := by
  rintro ⟨e, he, hframe⟩
  cases he.symm.trans ho
  exact hframe

/-- The phase part of the invariant, for the operand of the command in execution. -/
theorem State.Inv.phaseInv {op : PinId} {s : State} (h : s.Inv)
    (ho : s.phase ≠ .fetch → operandInPhase s = some op) : PhaseInv op s := by
  have hpins := h.pins
  have hcounts := h.sample_counts
  have hread := h.noRead
  unfold PhaseInv
  unfold PinsAsPhase at hpins
  unfold SampleCounts at hcounts
  cases hp : s.phase <;> simp only [hp] at hpins hcounts hread ho ⊢
  case fetch => exact ⟨hread (by simp), hpins, h.no_wait_between hp⟩
  case sampleRead => exact ⟨ho (by simp), h.pending.mpr hp, hpins, hcounts⟩
  case sampleSettle => exact ⟨ho (by simp), hread (by simp), hpins, hcounts⟩
  case emitHigh =>
    obtain ⟨p, hop, hlt, hhigh⟩ := hpins
    cases hop.symm.trans (ho (by simp))
    exact ⟨hop, hread (by simp), hhigh, hlt⟩
  case emitLow => exact ⟨ho (by simp), hread (by simp), hpins⟩
  case initSettle =>
    obtain ⟨e, hop, hlt⟩ := h.init_settle hp
    cases hop.symm.trans (ho (by simp))
    exact ⟨hop, hread (by simp), hpins, hlt⟩
  case initHigh =>
    exact ⟨ho (by simp), hread (by simp), hpins, .of_operand (ho (by simp)) (h.init_high hp)⟩
  case initLow =>
    exact ⟨ho (by simp), hread (by simp), hpins, .of_operand (ho (by simp)) (h.init_low hp)⟩

theorem State.Inv.exists_phaseInv {s : State} (h : s.Inv) : ∃ op, PhaseInv op s := by
  by_cases hp : s.phase = .fetch
  · exact ⟨0, h.phaseInv fun hf => absurd hp hf⟩
  · obtain ⟨op, ho⟩ := Option.isSome_iff_exists.mp (h.in_execution hp).2
    exact ⟨op, h.phaseInv fun _ => ho⟩

theorem PhaseInv.operand {op : PinId} {s : State} (h : PhaseInv op s) (hp : s.phase ≠ .fetch) :
    operandInPhase s = some op := by
  unfold PhaseInv at h
  cases hph : s.phase <;> simp only [hph] at h hp
  case fetch => contradiction
  all_goals exact h.1

/-- The parts make the invariant: a command is in execution in RUN only, and in RESET the state holds
the reset values. -/
theorem PhaseInv.inv {op : PinId} {s : State} (h : PhaseInv op s) (hregs : RegistersInv s)
    (hrec : FaultRecordInv s) (hrun : s.phase ≠ .fetch → s.runState = .run)
    (hreset : s.runState = .reset → HoldsResetValues s) : s.Inv := by
  obtain ⟨⟨hord, hangle, hzero⟩, hsample, hwidth⟩ := hregs
  obtain ⟨hfault, hpc, hnone⟩ := hrec
  have hop := h.operand
  unfold PhaseInv at h
  refine
    { bounds_ordered := hord, angle_in_bounds := hangle, unmapped_zero := hzero
      unsampled_zero := hsample, width_fits := hwidth
      pins := ?pins, in_execution := fun hf => ⟨hrun hf, by simp [hop hf]⟩
      pending := ?pending, request_in_read := ?request, no_wait_between := ?wait
      sample_counts := ?counts, init_high := ?high, init_low := ?low, init_settle := ?settle
      fault_record := hfault, fault_pc := hpc, no_fault_pc := hnone, in_reset := hreset }
  case pins =>
    unfold PinsAsPhase
    cases hp : s.phase <;> simp_all
  case pending => cases hp : s.phase <;> simp_all [NoRead]
  case request => cases hp : s.phase <;> simp_all [NoRead]
  case wait =>
    intro hp
    simp only [hp] at h
    exact h.2.2
  case counts =>
    unfold SampleCounts
    cases hp : s.phase <;> simp_all
  all_goals
    intro hp
    simp only [hp] at h
    obtain ⟨ho, -, -, hrange⟩ := h
    exact ⟨op, ho, hrange⟩

/-- In RUN, with no fault on record, the phase part is what is left to show. -/
theorem Running.inv {op : PinId} {s : State} (hs : Running s) (h : PhaseInv op s) : s.Inv := by
  obtain ⟨hr, hcode, hpc, hregs⟩ := hs
  exact h.inv hregs ⟨by simp [hr, hcode], by simp [hr], fun _ => hpc⟩ (fun _ => hr) (by simp [hr])

/-- With no command in execution, in whatever run state. -/
theorem inv_of_rest {s : State} (hf : s.phase = .fetch) (hread : NoRead s) (hpins : s.pwmOut = 0)
    (hw : s.remaining = 0) (hregs : RegistersInv s) (hrec : FaultRecordInv s)
    (hreset : s.runState = .reset → HoldsResetValues s) : s.Inv :=
  PhaseInv.inv (op := 0) (by simp [PhaseInv, hf, hread, hpins, hw]) hregs hrec (absurd hf) hreset

/-- The reset values meet the invariant (70_reset_and_hazards.md R231). -/
theorem HoldsResetValues.inv {s : State} (h : HoldsResetValues s) : s.Inv := by
  rw [h]
  refine inv_of_rest rfl ⟨rfl, rfl⟩ rfl rfl ?_ ?_ fun _ => rfl
  · exact ⟨⟨by simp [State.resetWith], by simp [State.resetWith], by simp [State.resetWith]⟩,
      by simp [State.resetWith], by simp [State.resetWith]⟩
  · exact ⟨by simp [State.resetWith], by simp [State.resetWith], by simp [State.resetWith]⟩

/-! ### Faults and resets -/

theorem faultEntry_inv {s : State} {code : FaultCode} (hregs : RegistersInv s) (hq : s.adcReq = false)
    (hcode : code ≠ .none) : (faultEntry code s).Inv :=
  inv_of_rest rfl ⟨hq, rfl⟩ rfl rfl hregs ⟨by simp [hcode], by simp, by simp [hcode]⟩ (by simp)

theorem resetAction_inv (s : State) : (resetAction s).Inv :=
  HoldsResetValues.inv rfl

/-- A reset came, and left its values (70_reset_and_hazards.md R231). -/
def WasReset (s : State) : Prop := s.runState = .reset ∧ HoldsResetValues s

/-- The next pulse of the reset input, if there is one. -/
theorem takeReset_eq_or_wasReset (s : State) : takeReset s = s ∨ WasReset (takeReset s) := by
  by_cases hn : s.resets = []
  · exact .inl (by simp [takeReset, hn])
  · exact .inr (takeReset_holdsResetValues hn)

theorem State.Inv.takeReset {s : State} (h : s.Inv) : (Machine.takeReset s).Inv := by
  obtain ht | ⟨-, hv⟩ := takeReset_eq_or_wasReset s
  · rwa [ht]
  · exact hv.inv

/-! ### The actions of the commands -/

/-- A command in execution: RUN and the phase part together. -/
def RunInv (op : PinId) (s : State) : Prop := Running s ∧ PhaseInv op s

/-- RUN, with no read going on and every pin low: a command may begin or end. -/
def Idle (s : State) : Prop := Running s ∧ NoRead s ∧ s.pwmOut = 0

theorem Idle.inv {s : State} (h : Idle s) (hf : s.phase = .fetch) (hw : s.remaining = 0) : s.Inv := by
  obtain ⟨hs, hn, hpins⟩ := h
  exact hs.inv (op := 0) (by simp [PhaseInv, hf, hn, hpins, hw])

/-- The phases of EMIT take the same operand. -/
theorem phaseOperand_emit (i : Instr) : phaseOperand .emitLow i = phaseOperand .emitHigh i := by
  cases i <;> rfl

/-- The phases of SAMPLE take the same operand. -/
theorem phaseOperand_sample (i : Instr) :
    phaseOperand .sampleSettle i = phaseOperand .sampleRead i := by
  cases i <;> rfl

/-- The phases of INIT take the same operand. -/
theorem phaseOperand_init (i : Instr) :
    phaseOperand .initHigh i = phaseOperand .initSettle i ∧
      phaseOperand .initLow i = phaseOperand .initSettle i := by
  cases i <;> exact ⟨rfl, rfl⟩

/-- Two phases that take the same operand: the command stays at pc while its phase changes. -/
theorem operandInPhase_of_phase {s t : State} {op : PinId} (ho : operandInPhase s = some op)
    (hc : commandAtPc t = commandAtPc s)
    (hp : ∀ i, phaseOperand t.phase i = phaseOperand s.phase i) : operandInPhase t = some op := by
  rw [← ho, operandInPhase, operandInPhase, hc]
  exact congrArg _ (funext hp)

theorem complete_runInv (op : PinId) {s : State} (h : Idle s) : RunInv op (complete s) := by
  obtain ⟨hs, hn, hpins⟩ := h
  exact ⟨hs, show NoRead s ∧ s.pwmOut = 0 ∧ 0 = 0 from ⟨hn, hpins, rfl⟩⟩

/-- The pin of a frame falls: every pin is low then (10_state.md R31). -/
theorem pinWrite_false_low {p : PinId} {s : State} (h : s.pwmOut = 0 ∨ s.pwmOut = pinBit p.toNat) :
    (pinWrite p.toNat false s).pwmOut = 0 := by
  obtain h | h := h
  · rw [pinWrite_low h, h]
  · rw [pinWrite_fall p.isLt h]

theorem emitFall_runInv {op : PinId} {s : State} (hs : Running s) (hn : NoRead s)
    (hpins : s.pwmOut = 0 ∨ s.pwmOut = pinBit op.toNat)
    (ho : operandInPhase { s with phase := .emitLow } = some op) : RunInv op (emitFall op s) := by
  have hlow := pinWrite_false_low hpins
  unfold emitFall
  dsimp only
  split
  · exact complete_runInv op ⟨hs, hn, hlow⟩
  · exact ⟨hs, show _ ∧ NoRead s ∧ _ from ⟨ho, hn, hlow⟩⟩

theorem initRise_runInv {op : PinId} {s : State} (hs : Running s) (hn : NoRead s)
    (hpins : s.pwmOut = 0) (ho : operandInPhase { s with phase := .initHigh } = some op)
    (hframe : FrameInRange op s) : RunInv op (initRise s) := by
  have hhigh : (pinWrite s.curPin.toNat true s).pwmOut = pinBit s.curPin.toNat := by
    rw [pinWrite_rise hpins]
  exact ⟨hs, show _ ∧ NoRead s ∧ _ ∧ FrameInRange op s from ⟨ho, hn, hhigh, hframe⟩⟩

/-- A sum of reads stays within 1023 for each of them when one is added (00_scope.md R8). -/
theorem sum_add_read_le {k : Nat} {v : BitVec 14} (r : RawSample) (hk : k < Config.sampleReads)
    (h : v.toNat ≤ 1023 * k) : (v + r.setWidth 14).toNat ≤ 1023 * (k + 1) := by
  have hr := r.isLt
  rw [sum_add_read v r hk h]
  omega

theorem adcAnswered_runInv {op : PinId} {s : State} (r : RawSample) (hs : Running s)
    (h : PhaseInv op s) (hp : s.phase = .sampleRead) (hq : s.adcReq = false) :
    RunInv op (adcAnswered r s) := by
  have ho : operandInPhase (adcAnswered r s) = some op :=
    operandInPhase_of_phase (h.operand (by simp [hp])) rfl (by simpa [hp] using phaseOperand_sample)
  simp only [PhaseInv, hp] at h
  obtain ⟨-, -, hpins, hk, hsum⟩ := h
  exact ⟨hs, show _ ∧ NoRead (adcAnswered r s) ∧ s.pwmOut = 0 ∧ s.k < Config.sampleReads ∧ _ from
    ⟨ho, ⟨hq, rfl⟩, hpins, hk, sum_add_read_le r hk hsum⟩⟩

theorem sampleSettled_runInv {op : PinId} {s : State} (hs : Running s) (h : PhaseInv op s)
    (hp : s.phase = .sampleSettle) : RunInv op (sampleSettled s) := by
  simp only [PhaseInv, hp] at h
  obtain ⟨ho, hn, hpins, hk, hsum⟩ := h
  by_cases hlast : s.k + 1 < 11
  · have ho' : operandInPhase { s with phase := .sampleRead } = some op :=
      operandInPhase_of_phase ho rfl (by simp [hp, phaseOperand_sample])
    rw [sampleSettled_next hlast]
    exact ⟨hs, show _ ∧ true = true ∧ s.pwmOut = 0 ∧ s.k + 1 < Config.sampleReads ∧ _ from
      ⟨ho', rfl, hpins, hlast, hsum⟩⟩
  · obtain ⟨hr, hcode, hpc, hmap, -, hwidth⟩ := hs
    rw [sampleSettled_last hlast]
    exact complete_runInv op ⟨⟨hr, hcode, hpc, hmap, by simp, hwidth⟩, hn, hpins⟩

theorem initFrames_pos : 0 < Config.initFrames := by decide

theorem initSettled_runInv {op : PinId} {s : State} (hs : Running s) (h : PhaseInv op s)
    (hp : s.phase = .initSettle) : RunInv op (initSettled op s) := by
  simp only [PhaseInv, hp] at h
  obtain ⟨ho, hn, hpins, hlt⟩ := h
  unfold initSettled
  split
  next => exact complete_runInv op ⟨hs, hn, hpins⟩
  next hle =>
    exact initRise_runInv hs hn hpins
      (operandInPhase_of_phase ho rfl (by simp [hp, phaseOperand_init]))
      ⟨hlt, le_rfl, Nat.le_of_not_lt hle, initFrames_pos⟩

theorem initFrameEnd_runInv {op : PinId} {s : State} (hs : Running s) (h : PhaseInv op s)
    (hp : s.phase = .initLow) : RunInv op (initFrameEnd op s) := by
  simp only [PhaseInv, hp] at h
  obtain ⟨ho, hn, hpins, hlt, hmin, hmax, -⟩ := h
  have ho' : operandInPhase { s with phase := .initHigh } = some op :=
    operandInPhase_of_phase ho rfl (by simp [hp, phaseOperand_init])
  unfold initFrameEnd
  split
  next hframe => exact initRise_runInv hs hn hpins ho' ⟨hlt, hmin, hmax, hframe⟩
  next =>
    split
    next hpin =>
      have hpin : s.curPin.toNat < op.toNat := hpin
      have hnext : (s.curPin + 1).toNat = s.curPin.toNat + 1 := by
        have := op.isLt
        simp [BitVec.toNat_add]
        omega
      exact initRise_runInv hs hn hpins ho'
        ⟨hlt, by simp only [hnext]; omega, by simp only [hnext]; omega, initFrames_pos⟩
    next => exact complete_runInv op ⟨hs, hn, hpins⟩

/-- The end of every wait keeps the invariant. -/
theorem waitEnded_runInv {op : PinId} {s : State} (hs : Running s) (h : PhaseInv op s) :
    RunInv op (waitEnded op s) := by
  have hphase := h
  cases hp : s.phase <;> simp only [PhaseInv, hp] at hphase
  case fetch => simpa [waitEnded, hp] using ⟨hs, h⟩
  case sampleRead => simpa [waitEnded, hp] using ⟨hs, h⟩
  case sampleSettle => rw [waitEnded_sampleSettle hp]; exact sampleSettled_runInv hs h hp
  case emitHigh =>
    obtain ⟨ho, hn, hpins, -⟩ := hphase
    rw [waitEnded_emitHigh hp]
    exact emitFall_runInv hs hn (.inr hpins)
      (operandInPhase_of_phase ho rfl (by simp [hp, phaseOperand_emit]))
  case emitLow =>
    obtain ⟨-, hn, hpins⟩ := hphase
    rw [waitEnded_emitLow hp]
    exact complete_runInv op ⟨hs, hn, hpins⟩
  case initSettle => rw [waitEnded_initSettle hp]; exact initSettled_runInv hs h hp
  case initHigh =>
    obtain ⟨ho, hn, hpins, hframe⟩ := hphase
    have ho' : operandInPhase { s with phase := .initLow } = some op :=
      operandInPhase_of_phase ho rfl (by simp [hp, phaseOperand_init])
    rw [waitEnded_initHigh hp]
    exact ⟨hs, show _ ∧ NoRead s ∧ _ ∧ FrameInRange op s from
      ⟨ho', hn, pinWrite_false_low (.inr hpins), hframe⟩⟩
  case initLow => rw [waitEnded_initLow hp]; exact initFrameEnd_runInv hs h hp

/-- Time passes and a wait counts down inside a command. -/
theorem PhaseInv.elapse {op : PinId} {s : State} (h : PhaseInv op s) (hf : s.phase ≠ .fetch)
    (n r : Nat) : PhaseInv op { Machine.elapse n s with remaining := r } := by
  have ho : operandInPhase { Machine.elapse n s with remaining := r } = some op := h.operand hf
  have hread : NoRead s → NoRead (Machine.elapse n s) := fun hn => ⟨by simp [hn.1], hn.2⟩
  unfold PhaseInv at h ⊢
  cases hp : s.phase <;> simp only [hp, elapse_phase] at h hf ho ⊢
  case fetch => contradiction
  case sampleRead => exact ⟨ho, h.2⟩
  all_goals exact ⟨ho, hread h.2.1, h.2.2⟩

/-! ### Running on -/

/-- The invariant, in a command whose operand is `op`, or in none. -/
def InvWith (op : PinId) (s : State) : Prop :=
  s.Inv ∧ (s.phase ≠ .fetch → operandInPhase s = some op)

theorem RunInv.invWith {op : PinId} {s : State} (h : RunInv op s) : InvWith op s :=
  ⟨h.1.inv h.2, h.2.operand⟩

theorem invWith_of_rest {op : PinId} {s : State} (h : s.Inv) (hf : s.phase = .fetch) : InvWith op s :=
  ⟨h, absurd hf⟩

theorem InvWith.advance {op : PinId} {s s' : State} (h : InvWith op s)
    (ha : Machine.advance op s = some s') : InvWith op s' := by
  obtain ⟨hinv, ho⟩ := h
  obtain ⟨hr, hf, hcases⟩ := advance_cases ha
  have hs := hinv.running hr
  have hp := hinv.phaseInv ho
  obtain ⟨hne, rfl⟩ | ⟨hread, a, rest, -, rfl⟩ | ⟨-, rfl⟩ := hcases
  · have hv := (takeReset_holdsResetValues hne).2
    exact invWith_of_rest hv.inv (congrArg State.phase hv)
  · exact (adcAnswered_runInv (s := { Machine.elapse (a.wait + 1) s with adc := rest }) a.value hs
      (hp.elapse hf (a.wait + 1) s.remaining) hread (by simp)).invWith
  · exact (waitEnded_runInv (s := { Machine.elapse s.remaining s with remaining := 0 }) hs
      (hp.elapse hf _ _)).invWith

theorem InvWith.finish {op : PinId} {s : State} (h : InvWith op s) : (Machine.finish op s).Inv :=
  (finish_keeps (P := InvWith op) (fun _ _ hs ha => hs.advance ha) h).1

/-! ### First actions -/

/-- A check of MAP never gives the code of no fault (60_exceptions.md R200); nor do the other two. -/
theorem mapFault_ne_none {s : State} {a b c d : Int} {code : FaultCode}
    (h : mapFault s a b c d = some code) : code ≠ .none := by
  rintro rfl
  unfold mapFault at h
  split_ifs at h <;> cases h

theorem emitFault_ne_none {s : State} {pin : Nat} {angle : Int} {code : FaultCode}
    (h : emitFault s pin angle = some code) : code ≠ .none := by
  rintro rfl
  unfold emitFault at h
  split_ifs at h <;> cases h

theorem initFault_ne_none {s : State} {endPin : Nat} {code : FaultCode}
    (h : initFault s endPin = some code) : code ≠ .none := by
  rintro rfl
  unfold initFault at h
  split_ifs at h
  cases h

theorem Idle.faultEntry_inv {s : State} (h : Idle s) {code : FaultCode} (hcode : code ≠ .none) :
    (faultEntry code s).Inv := by
  obtain ⟨⟨-, -, -, hregs⟩, hn, -⟩ := h
  exact Machine.faultEntry_inv hregs hn.1 hcode

/-- A MAP whose checks pass keeps the bounds ordered and A within them (41_mapper.md R122). -/
theorem storeMapping_mappingInv {s : State} {a b c d : Bound12}
    (h : mapFault s (boundOperand a).toInt (boundOperand b).toInt (boundOperand c).toInt
      (boundOperand d).toInt = none) :
    MappingInv (storeMapping (boundOperand a) (boundOperand b) (boundOperand c) (boundOperand d) s) := by
  obtain ⟨-, hin, hout, -⟩ := mapFault_eq_none h
  obtain ⟨hlow, hhigh⟩ := mapValue_bounds h
  have hc := boundOperand_range c
  have hd := boundOperand_range d
  have hA := toInt_ofInt16 (r := mapValue s.S.toInt (boundOperand a).toInt (boundOperand b).toInt
    (boundOperand c).toInt (boundOperand d).toInt) (by omega) (by omega)
  refine ⟨fun _ => ⟨hin, hout⟩, fun _ => ?_, fun hv => by simp at hv⟩
  simp only [storeMapping_A, storeMapping_bndOutMin, storeMapping_bndOutMax, hA]
  exact ⟨hlow, hhigh⟩

theorem beginMap_inv {s : State} (h : Idle s) (a b c d : Bound12) :
    (beginMap a b c d s).Inv := by
  unfold beginMap
  dsimp only
  split
  next code hcode => exact h.faultEntry_inv (mapFault_ne_none hcode)
  next hnone =>
    obtain ⟨⟨hr, hcode, hpc, -, hregs⟩, hn, hpins⟩ := h
    have hs : Running (storeMapping (boundOperand a) (boundOperand b) (boundOperand c)
        (boundOperand d) s) := ⟨hr, hcode, hpc, storeMapping_mappingInv hnone, hregs⟩
    exact (complete_runInv 0 ⟨hs, hn, hpins⟩).invWith.1

/-- A width that fits the frame is stored as it is. -/
theorem storeWidth_running {s : State} (hs : Running s) {w : Int} (h0 : 0 ≤ w) (h1 : w ≤ 20000) :
    Running (storeWidth w s) := by
  obtain ⟨hr, hcode, hpc, hmap, hsample, -⟩ := hs
  refine ⟨hr, hcode, hpc, hmap, hsample, ?_⟩
  simp only [storeWidth_W, BitVec.toNat_ofInt, Config.refreshUs]
  omega

/-- A frame begins on a pin of the board, with every pin low (42_pulse.md R140, R144). -/
theorem emitRise_runInv {s : State} {pin : PinId} (hs : Running s) (hn : NoRead s)
    (hpins : s.pwmOut = 0) (hlt : pin.toNat < s.build.numPins)
    (hhigh : operandInPhase { s with phase := .emitHigh } = some pin) :
    RunInv pin (emitRise pin s) := by
  unfold emitRise
  split
  · exact emitFall_runInv hs hn (.inl hpins)
      (operandInPhase_of_phase hhigh rfl phaseOperand_emit)
  · have hbit : (pinWrite pin.toNat true s).pwmOut = pinBit pin.toNat := by
      rw [pinWrite_rise hpins]
    exact ⟨hs, show _ ∧ NoRead s ∧ _ ∧ pin.toNat < s.build.numPins from ⟨hhigh, hn, hbit, hlt⟩⟩

theorem beginEmit_invWith {s : State} {pin : PinId} (h : Idle s) (angle : Int)
    (hhigh : operandInPhase { s with phase := .emitHigh } = some pin) :
    InvWith pin (beginEmit pin angle s) := by
  unfold beginEmit
  split
  next code hcode => exact invWith_of_rest (h.faultEntry_inv (emitFault_ne_none hcode)) rfl
  next hnone =>
    obtain ⟨hlt, -, -, h0, h1⟩ := emitFault_eq_none hnone
    obtain ⟨hs, hn, hpins⟩ := h
    exact (emitRise_runInv (storeWidth_running hs h0 h1) hn hpins hlt hhigh).invWith

theorem beginInit_invWith {s : State} {endPin : PinId} (h : Idle s)
    (hsettle : operandInPhase { s with phase := .initSettle } = some endPin) :
    InvWith endPin (beginInit endPin s) := by
  unfold beginInit
  split
  next code hcode => exact invWith_of_rest (h.faultEntry_inv (initFault_ne_none hcode)) rfl
  next hnone =>
    have hlt : endPin.toNat < s.build.numPins :=
      Nat.lt_of_not_le fun hle => by simp [initFault, pinOperand, hle] at hnone
    obtain ⟨hs, hn, hpins⟩ := h
    exact RunInv.invWith ⟨hs, show _ ∧ NoRead s ∧ s.pwmOut = 0 ∧ _ from ⟨hsettle, hn, hpins, hlt⟩⟩

theorem beginSample_invWith {s : State} (h : Idle s) (hc : commandAtPc s = some .sample) :
    InvWith 0 (beginSample s) := by
  obtain ⟨hs, -, hpins⟩ := h
  have ho : operandInPhase (beginSample s) = some 0 := operandInPhase_of_command (i := .sample) hc
  exact RunInv.invWith ⟨hs, show _ ∧ true = true ∧ s.pwmOut = 0 ∧ 0 < Config.sampleReads ∧ 0 ≤ 0 from
    ⟨ho, rfl, hpins, by decide, le_rfl⟩⟩

/-- The first action of the command at pc keeps the invariant. -/
theorem firstAction_invWith {i : Instr} {s : State} (h : Idle s)
    (hc : commandAtPc s = some i) : InvWith (waitOperand i) (firstAction i s) := by
  have hop : ∀ ph, operandInPhase { s with phase := ph } = phaseOperand ph i := fun ph =>
    operandInPhase_of_command (s := { s with phase := ph }) hc
  cases i with
  | sample => exact beginSample_invWith h hc
  | map a b c d => exact invWith_of_rest (beginMap_inv h a b c d) (by
      change (beginMap a b c d s).phase = .fetch
      unfold beginMap
      dsimp only
      split <;> rfl)
  | emitA pin => exact beginEmit_invWith h _ (hop _)
  | emitImm pin imm => exact beginEmit_invWith h _ (hop _)
  | init endPin => exact beginInit_invWith h (hop _)
  | lds imm =>
    obtain ⟨⟨hr, hcode, hpc, hmap, -, hwidth⟩, hn, hpins⟩ := h
    exact (complete_runInv 0 (s := { s with S := _, sValid := true })
      ⟨⟨hr, hcode, hpc, hmap, by simp, hwidth⟩, hn, hpins⟩).invWith
  | jmp target =>
    obtain ⟨hs, hn, hpins⟩ := h
    exact RunInv.invWith ⟨hs, show NoRead s ∧ s.pwmOut = 0 ∧ 0 = 0 from ⟨hn, hpins, rfl⟩⟩
  | halt =>
    obtain ⟨⟨-, hcode, hpc, hregs⟩, hn, hpins⟩ := h
    refine invWith_of_rest (inv_of_rest rfl hn hpins rfl hregs ?_ (by simp [firstAction, beginHalt])) rfl
    exact ⟨by simp [firstAction, beginHalt, hcode], by simp [firstAction, beginHalt], fun _ => hpc⟩

/-! ### Steps and moves -/

/-- With no command in execution in RUN, nothing is going on. -/
theorem State.Inv.idle {s : State} (h : s.Inv) (hr : s.runState = .run) (hf : s.phase = .fetch) :
    Idle s := by
  have hp := h.phaseInv (op := 0) (absurd hf)
  simp only [PhaseInv, hf] at hp
  exact ⟨h.running hr, hp.1, hp.2.1⟩

theorem Idle.elapse {s : State} (h : Idle s) (n : Nat) : Idle (Machine.elapse n s) := by
  obtain ⟨hs, ⟨hq, ha⟩, hpins⟩ := h
  exact ⟨hs, ⟨by simp [hq], ha⟩, hpins⟩

/-- The fault of a fetch keeps the invariant (44_sequencer.md R180). -/
theorem Idle.fetchFault_inv {s : State} (h : Idle s) {code : FaultCode}
    (hc : fetch s = .error code) : (faultEntry code s).Inv := h.faultEntry_inv (fetch_error_ne_none hc)

/-- A release leaves RUN with the reset values (70_reset_and_hazards.md R232). -/
theorem resetRelease_inv {s : State} (h : HoldsResetValues s) : (resetRelease s).Inv := by
  have hs : Running (resetRelease s) :=
    ⟨rfl, congrArg State.faultCode h, congrArg State.faultPc h, h.inv.registersInv⟩
  have hn : NoRead s := ⟨congrArg State.adcReq h, congrArg State.adcPending h⟩
  exact Idle.inv ⟨hs, hn, congrArg State.pwmOut h⟩ (congrArg State.phase h)
    (congrArg State.remaining h)

end Invariant

/-- Settles O46: a release, a reset, a fetch fault, a command or the rest of one, each of which keeps
the invariant. -/
theorem everyStepKeepsTheInvariant : Obligations.EveryStepKeepsTheInvariant := by
  intro s t hinv hstep
  obtain ⟨hr, rfl⟩ | ⟨-, rfl⟩ | ⟨-, -, -, rfl⟩ | ⟨hr, hf, -, hfetch⟩ | ⟨-, -, op, ho, rfl⟩ :=
    step_cases hstep
  · split
    · exact resetRelease_inv (hinv.in_reset hr)
    · exact hinv
  · exact hinv.takeReset
  · exact hinv.takeReset
  · have hidle : Idle (dispatchDone s) := (hinv.idle hr hf).elapse _
    obtain ⟨code, hc, rfl⟩ | ⟨i, hi, rfl⟩ := hfetch
    · exact hidle.fetchFault_inv hc
    · exact (firstAction_invWith hidle (commandAtPc_of_fetch hi)).finish
  · exact InvWith.finish ⟨hinv, fun _ => ho⟩

section ClockedInvariant

/-- A first action on its tick keeps the invariant. -/
theorem fetchAct_inv {s : State} (h : Idle s) : (fetchAct s).Inv := by
  have hidle : Idle { s with dispatched := 0 } := h
  unfold fetchAct
  split
  next code hc => exact hidle.fetchFault_inv hc
  next i hi => exact (firstAction_invWith hidle (commandAtPc_of_fetch hi)).1

/-- In HALTED and FAULTED time passes and nothing else (10_state.md R26). -/
theorem State.Inv.elapse {s : State} (h : s.Inv) (hr : s.runState = .halted ∨ s.runState = .faulted)
    (n : Nat) : (Machine.elapse n s).Inv := by
  have hrun : s.runState ≠ .run := by obtain hr | hr := hr <;> simp [hr]
  have hreset : s.runState ≠ .reset := by obtain hr | hr := hr <;> simp [hr]
  have hf : s.phase = .fetch := by
    by_contra hp
    exact hrun (h.in_execution hp).1
  have hp := h.phaseInv (op := 0) (absurd hf)
  simp only [PhaseInv, hf] at hp
  obtain ⟨⟨hq, ha⟩, hpins, hw⟩ := hp
  exact inv_of_rest hf ⟨by simp [hq], ha⟩ hpins hw h.registersInv h.faultRecordInv (absurd · hreset)

/-- A tick in RUN keeps the invariant: in a dispatch, in a read and in a wait. -/
theorem tickRun_inv {op : PinId} {s : State} (p : InputPorts) (hs : Running s) (h : PhaseInv op s) :
    (tickRun p (Machine.elapse 1 s)).Inv := by
  by_cases hf : s.phase = .fetch
  · have htick : tickRun p (Machine.elapse 1 s) =
        { Machine.elapse 1 s with dispatched := s.dispatched + 1 } := by simp [tickRun, hf]
    simp only [PhaseInv, hf] at h
    obtain ⟨⟨-, ha⟩, hpins, hw⟩ := h
    rw [htick]
    exact Idle.inv ⟨hs, ⟨by simp, ha⟩, hpins⟩ hf hw
  have hwait := h.elapse hf 1
  by_cases hread : s.phase = .sampleRead
  · have htick : tickRun p (Machine.elapse 1 s) =
        if s.adcPending && p.adcAck then adcAnswered p.adcData (Machine.elapse 1 s)
        else Machine.elapse 1 s := by simp [tickRun, hread]
    rw [htick]
    split
    · exact (adcAnswered_runInv (s := Machine.elapse 1 s) p.adcData hs (hwait s.remaining) hread
        (by simp)).invWith.1
    · exact Running.inv (s := Machine.elapse 1 s) hs (hwait s.remaining)
  · have ho : operandInPhase (Machine.elapse 1 s) = some op := h.operand hf
    rw [tickRun_wait (by exact hf) (by exact hread), ho]
    split
    · exact (waitEnded_runInv (s := { Machine.elapse 1 s with remaining := 0 }) hs
        (hwait 0)).invWith.1
    · exact Running.inv (s := { Machine.elapse 1 s with remaining := s.remaining - 1 }) hs (hwait _)

theorem tick_inv {s : State} (p : InputPorts) (h : s.Inv) : (tick p s).Inv := by
  unfold tick
  split
  · split
    · exact h
    · exact resetAction_inv _
  · split
    next hr => exact resetRelease_inv (h.in_reset hr)
    next hr =>
      obtain ⟨op, hp⟩ := h.exists_phaseInv
      exact tickRun_inv p (h.running hr) hp
    next hr => exact h.elapse (.inl hr) 1
    next hr => exact h.elapse (.inr hr) 1

end ClockedInvariant

/-- Settles O47: a move is a first action or a tick, and each keeps the invariant. -/
theorem everyClockMoveKeepsTheInvariant : Obligations.EveryClockMoveKeepsTheInvariant := by
  intro p s hinv
  unfold clockStep
  split
  next hdue =>
    obtain ⟨-, hdue⟩ := Bool.and_eq_true_iff.mp hdue
    obtain ⟨hr, hf, -⟩ := of_decide_eq_true hdue
    exact fetchAct_inv (hinv.idle hr hf)
  next => exact tick_inv p hinv

end Sys2Proof.Machine

namespace Sys2Proof.Machine

/-! ## What a command leaves alone (10_state.md R21 to R28) -/

section Frames

/-- R22, R24: A and the bounds are those of `s`. -/
def KeepsMapping (s t : State) : Prop :=
  t.A = s.A ∧ t.bndValid = s.bndValid ∧ t.bndInMin = s.bndInMin ∧ t.bndInMax = s.bndInMax ∧
    t.bndOutMin = s.bndOutMin ∧ t.bndOutMax = s.bndOutMax

/-- R23, R28: W and PW_OOR are those of `s`. -/
def KeepsWidth (s t : State) : Prop := t.W = s.W ∧ t.pwOor = s.pwOor

/-- R27: the fault record is that of `s`. -/
def KeepsRecord (s t : State) : Prop := t.faultCode = s.faultCode ∧ t.faultPc = s.faultPc

/-- No SAMPLE is in execution, so S is not to be written (R21). -/
def NotSampling (s : State) : Prop := s.phase ≠ .sampleRead ∧ s.phase ≠ .sampleSettle

/-- R21: S and S_VALID are those of `s`, and no SAMPLE is in execution. -/
def KeepsSample (s t : State) : Prop := t.S = s.S ∧ t.sValid = s.sValid ∧ NotSampling t

/-- What waits leave alone. -/
def KeptByWaits (s t : State) : Prop :=
  t.runState = s.runState ∧ KeepsMapping s t ∧ KeepsWidth s t ∧ KeepsRecord s t ∧
    (NotSampling s → KeepsSample s t)

theorem KeptByWaits.refl (s : State) : KeptByWaits s s :=
  ⟨rfl, ⟨rfl, rfl, rfl, rfl, rfl, rfl⟩, ⟨rfl, rfl⟩, ⟨rfl, rfl⟩, fun h => ⟨rfl, rfl, h⟩⟩

theorem KeptByWaits.trans {s t u : State} (h1 : KeptByWaits s t) (h2 : KeptByWaits t u) :
    KeptByWaits s u := by
  simp_all [KeptByWaits, KeepsMapping, KeepsWidth, KeepsRecord, KeepsSample]

theorem waitEnded_keptByWaits (op : PinId) (s : State) : KeptByWaits s (waitEnded op s) := by
  obtain ⟨⟨hr, hoor, hcode, hpc, hW, hA⟩, ⟨hv, h1, h2, h3, h4⟩, -, hS, hph⟩ := waitEnded_keeps op s
  refine ⟨hr, ⟨hA, hv, h1, h2, h3, h4⟩, ⟨hW, hoor⟩, ⟨hcode, hpc⟩, fun ⟨hread, hsettle⟩ => ?_⟩
  exact ⟨(hS hsettle).1, (hS hsettle).2, (hph hsettle hread).2, (hph hsettle hread).1⟩

theorem advance_keptByWaits {op : PinId} {s s' : State} (h : advance op s = some s') :
    WasReset s' ∨ KeptByWaits s s' := by
  obtain ⟨-, -, ⟨hne, rfl⟩ | ⟨hread, a, rest, -, rfl⟩ | ⟨-, rfl⟩⟩ := advance_cases h
  · exact .inl (takeReset_holdsResetValues hne)
  · exact .inr ⟨rfl, ⟨rfl, rfl, rfl, rfl, rfl, rfl⟩, ⟨rfl, rfl⟩, ⟨rfl, rfl⟩, fun hn => absurd hread hn.1⟩
  · exact .inr (waitEnded_keptByWaits op { elapse s.remaining s with remaining := 0 })

/-- Once a reset has come nothing goes on. -/
theorem advance_of_wasReset {op : PinId} {s : State} (h : WasReset s) : advance op s = none :=
  advance_not_run op (by simp [h.1])

theorem finish_keptByWaits (op : PinId) (s : State) :
    WasReset (finish op s) ∨ KeptByWaits s (finish op s) := by
  refine finish_keeps (P := fun t => WasReset t ∨ KeptByWaits s t) (fun t t' ht ha => ?_)
    (.inr (.refl s))
  obtain ht | ht := ht
  · rw [advance_of_wasReset ht] at ha
    cases ha
  · exact (advance_keptByWaits ha).imp_right ht.trans

/-- What a command may write: S by SAMPLE and LDS, A and the bounds by MAP, W and PW_OOR by EMIT, the
fault record by a fault; PW_OOR is sticky. -/
def WritesOnlyItsOwn (i : Instr) (s t : State) : Prop :=
  ((i ≠ .sample ∧ ∀ imm, i ≠ .lds imm) → KeepsSample s t) ∧
  ((∀ a b c d, i ≠ .map a b c d) → KeepsMapping s t) ∧
  (emitOperands i s = none → KeepsWidth s t) ∧
  (t.runState ≠ .faulted → KeepsRecord s t) ∧
  (s.pwOor = true → t.pwOor = true)

theorem faultEntry_writesOnlyItsOwn (i : Instr) (code : FaultCode) (s : State) :
    WritesOnlyItsOwn i s (faultEntry code s) :=
  ⟨fun _ => ⟨rfl, rfl, by simp [NotSampling]⟩, fun _ => ⟨rfl, rfl, rfl, rfl, rfl, rfl⟩,
    fun _ => ⟨rfl, rfl⟩, fun hf => absurd rfl hf, id⟩

/-- Every register and the fault record are those of `s`, and no SAMPLE is in execution. -/
def KeepsRegisters (s t : State) : Prop :=
  KeepsSample s t ∧ KeepsMapping s t ∧ KeepsWidth s t ∧ KeepsRecord s t

theorem KeepsRegisters.writesOnlyItsOwn {s t : State} (i : Instr) (h : KeepsRegisters s t) :
    WritesOnlyItsOwn i s t := by
  obtain ⟨hS, hmap, hwidth, hrec⟩ := h
  exact ⟨fun _ => hS, fun _ => hmap, fun _ => hwidth, fun _ => hrec, fun hp => hwidth.2.trans hp⟩

theorem emitFall_keepsRegisters (pin : PinId) (s : State) : KeepsRegisters s (emitFall pin s) := by
  unfold emitFall
  dsimp only
  split <;> simp [KeepsRegisters, KeepsSample, NotSampling, KeepsMapping, KeepsWidth, KeepsRecord]

theorem emitRise_keepsRegisters (pin : PinId) (s : State) : KeepsRegisters s (emitRise pin s) := by
  unfold emitRise
  split
  · exact emitFall_keepsRegisters pin s
  · simp [KeepsRegisters, KeepsSample, NotSampling, KeepsMapping, KeepsWidth, KeepsRecord]

theorem beginInit_writesOnlyItsOwn (i : Instr) (endPin : PinId) (s : State) :
    WritesOnlyItsOwn i s (beginInit endPin s) := by
  unfold beginInit
  split
  · exact faultEntry_writesOnlyItsOwn i _ s
  · exact KeepsRegisters.writesOnlyItsOwn i
      (by simp [KeepsRegisters, KeepsSample, NotSampling, KeepsMapping, KeepsWidth, KeepsRecord])

/-- An EMIT writes W and PW_OOR, which stays set (10_state.md R28), before the frame. -/
theorem beginEmit_writesOnlyItsOwn {i : Instr} {s : State} {pin : PinId} {angle : Int}
    (hi : emitOperands i s = some (pin, angle)) : WritesOnlyItsOwn i s (beginEmit pin angle s) := by
  unfold beginEmit
  split
  · exact faultEntry_writesOnlyItsOwn i _ s
  · obtain ⟨hS, hmap, ⟨-, hoor⟩, hrec⟩ := emitRise_keepsRegisters pin
      (storeWidth (pulseWidth angle s.bndOutMin.toInt s.bndOutMax.toInt) s)
    exact ⟨fun _ => hS, fun _ => hmap, by simp [hi], fun _ => hrec,
      fun h => by simp [hoor, pwOorAfter, h]⟩

theorem firstAction_writesOnlyItsOwn (i : Instr) (s : State) :
    WritesOnlyItsOwn i s (firstAction i s) := by
  cases i with
  | sample =>
    exact ⟨by simp, fun _ => ⟨rfl, rfl, rfl, rfl, rfl, rfl⟩, fun _ => ⟨rfl, rfl⟩,
      fun _ => ⟨rfl, rfl⟩, id⟩
  | map a b c d =>
    change WritesOnlyItsOwn _ s (beginMap a b c d s)
    unfold beginMap
    dsimp only
    split
    · exact faultEntry_writesOnlyItsOwn _ _ s
    · exact ⟨fun _ => ⟨rfl, rfl, by simp [NotSampling]⟩, by simp, fun _ => ⟨rfl, rfl⟩,
        fun _ => ⟨rfl, rfl⟩, id⟩
  | emitA pin => exact beginEmit_writesOnlyItsOwn (i := .emitA pin) rfl
  | emitImm pin imm => exact beginEmit_writesOnlyItsOwn (i := .emitImm pin imm) rfl
  | init endPin => exact beginInit_writesOnlyItsOwn _ endPin s
  | lds imm =>
    exact ⟨by simp, fun _ => ⟨rfl, rfl, rfl, rfl, rfl, rfl⟩, fun _ => ⟨rfl, rfl⟩,
      fun _ => ⟨rfl, rfl⟩, id⟩
  | jmp target =>
    exact KeepsRegisters.writesOnlyItsOwn _ (by simp [firstAction, beginJmp, KeepsRegisters,
      KeepsSample, NotSampling, KeepsMapping, KeepsWidth, KeepsRecord])
  | halt =>
    exact KeepsRegisters.writesOnlyItsOwn _ (by simp [firstAction, beginHalt, KeepsRegisters,
      KeepsSample, NotSampling, KeepsMapping, KeepsWidth, KeepsRecord])

/-- After the first action the waits write nothing but a SAMPLE's S. -/
theorem WritesOnlyItsOwn.trans {i : Instr} {s t u : State} (h : WritesOnlyItsOwn i s t)
    (hw : KeptByWaits t u) : WritesOnlyItsOwn i s u := by
  obtain ⟨hS, hmap, hwidth, hrec, hsticky⟩ := h
  obtain ⟨hr, ⟨hA, hv, h1, h2, h3, h4⟩, ⟨hW, hoor⟩, ⟨hcode, hpc⟩, hsample⟩ := hw
  refine ⟨fun hi => ?_, fun hi => ?_, fun hi => ?_, fun hf => ?_, fun hp => hoor.trans (hsticky hp)⟩
  · obtain ⟨hS1, hS2, hn⟩ := hS hi
    obtain ⟨hS3, hS4, hn'⟩ := hsample hn
    exact ⟨hS3.trans hS1, hS4.trans hS2, hn'⟩
  · simpa only [KeepsMapping, hA, hv, h1, h2, h3, h4] using hmap hi
  · simpa only [KeepsWidth, hW, hoor] using hwidth hi
  · simpa only [KeepsRecord, hcode, hpc] using hrec (hr ▸ hf)

theorem emitRise_runState (pin : PinId) (s : State) : (emitRise pin s).runState = s.runState := by
  unfold emitRise emitFall
  dsimp only
  split_ifs <;> rfl

theorem beginEmit_runState (pin : PinId) (angle : Int) (s : State) :
    (beginEmit pin angle s).runState = s.runState ∨
      (beginEmit pin angle s).runState = .faulted := by
  unfold beginEmit
  split
  · exact .inr rfl
  · exact .inl (emitRise_runState pin _)

/-- A first action goes on in the present run state, or stops there. -/
theorem firstAction_runState (i : Instr) (s : State) :
    (firstAction i s).runState = s.runState ∨ (firstAction i s).runState = .faulted ∨
      (firstAction i s).runState = .halted := by
  cases i with
  | sample => exact .inl rfl
  | map a b c d =>
    change (beginMap a b c d s).runState = _ ∨ (beginMap a b c d s).runState = _ ∨ _
    unfold beginMap
    dsimp only
    split
    · exact .inr (.inl rfl)
    · exact .inl rfl
  | emitA pin => exact (beginEmit_runState pin _ s).imp_right .inl
  | emitImm pin imm => exact (beginEmit_runState pin _ s).imp_right .inl
  | init endPin =>
    change (beginInit endPin s).runState = _ ∨ (beginInit endPin s).runState = _ ∨ _
    unfold beginInit
    split
    · exact .inr (.inl rfl)
    · exact .inl rfl
  | lds imm => exact .inl rfl
  | jmp target => exact .inl rfl
  | halt => exact .inr (.inr rfl)

/-- A state with the reset values if it is in RESET: the one way there is the reset action (R231). -/
def ResetIsWhole (s : State) : Prop := s.runState = .reset → HoldsResetValues s

theorem takeReset_resetIsWhole {s : State} (h : s.runState ≠ .reset) : ResetIsWhole (takeReset s) := by
  obtain ht | ht := takeReset_eq_or_wasReset s
  · rw [ht]; exact fun hr => absurd hr h
  · exact fun _ => ht.2

theorem finish_resetIsWhole (op : PinId) {s : State} (h : s.runState ≠ .reset) :
    ResetIsWhole (finish op s) := by
  intro hr
  obtain hreset | ⟨hkept, -⟩ := finish_keptByWaits op s
  · exact hreset.2
  · exact absurd (hkept.symm.trans hr) h

end Frames

/-- Settles O43: the first action writes its own registers, and the waits after it S alone. -/
theorem onlyItsCommandsWriteARegister : Obligations.OnlyItsCommandsWriteARegister := by
  intro i s t h hne
  cases (exec_eq_finish i s).symm.trans h
  have hkept := (finish_keptByWaits (waitOperand i) (firstAction i s)).resolve_left
    fun hreset => hne hreset.1
  obtain ⟨hS, hrest⟩ := (firstAction_writesOnlyItsOwn i s).trans hkept
  exact ⟨fun hi => ⟨(hS hi).1, (hS hi).2.1⟩, hrest⟩

/-- Settles O18: a stop ends by the reset input alone, and no first action and no wait enters RESET but
by it. -/
theorem onlyResetLeavesAStop : Obligations.OnlyResetLeavesAStop := by
  constructor
  · intro s t hstop hstep
    have ht : t = takeReset s := by
      obtain hr | hr := hstop <;> simpa [step, hr, eq_comm] using hstep
    exact ht ▸ takeReset_eq_or_wasReset s
  · intro s t hne hstep
    obtain ⟨hr, -⟩ | ⟨-, rfl⟩ | ⟨-, -, -, rfl⟩ | ⟨hr, -, -, hfetch⟩ | ⟨-, -, op, -, rfl⟩ :=
      step_cases hstep
    · exact absurd hr hne
    · exact takeReset_resetIsWhole hne
    · exact takeReset_resetIsWhole hne
    · obtain ⟨code, -, rfl⟩ | ⟨i, -, rfl⟩ := hfetch
      · simp
      · refine finish_resetIsWhole _ ?_
        obtain h | h | h := firstAction_runState i (dispatchDone s) <;> simp [h, hr]
    · exact finish_resetIsWhole op hne

/-- R31: every pin is low, or a frame is in its high time on one pin of the board. -/
theorem State.Inv.pins_cases {s : State} (h : s.Inv) :
    s.pwmOut = 0 ∨
      (s.phase = .emitHigh ∨ s.phase = .initHigh) ∧
        ∃ p : PinId, s.pwmOut = pinBit p.toNat ∧ p.toNat < s.build.numPins := by
  obtain ⟨op, hp⟩ := h.exists_phaseInv
  unfold PhaseInv at hp
  cases hph : s.phase <;> simp only [hph] at hp
  case fetch => exact .inl hp.2.1
  case sampleRead => exact .inl hp.2.2.1
  case sampleSettle => exact .inl hp.2.2.1
  case emitHigh => exact .inr ⟨.inl rfl, op, hp.2.2⟩
  case emitLow => exact .inl hp.2.2
  case initSettle => exact .inl hp.2.2.1
  case initHigh =>
    obtain ⟨-, -, hpins, hlt, -, hmax, -⟩ := hp
    exact .inr ⟨.inr rfl, s.curPin, hpins, hmax.trans_lt hlt⟩
  case initLow => exact .inl hp.2.2.1

/-- Settles O49: the pins are one pin's bit, or all low. -/
theorem atMostOnePinIsHigh : Obligations.AtMostOnePinIsHigh := by
  intro s hinv
  obtain hlow | ⟨hphase, p, hpins, hlt⟩ := hinv.pins_cases
  · have hnone : ∀ q, s.pinLevel q = false := fun q => by simp [State.pinLevel, hlow]
    simp [hnone]
  · have honly : ∀ q, s.pinLevel q = true → q = p.toNat := fun q hq => by
      simpa [State.pinLevel, hpins, pinBit_getLsbD p.isLt] using hq
    refine ⟨fun q r hq hr => (honly q hq).trans (honly r hr).symm, fun q hq => honly q hq ▸ hlt,
      fun hemit hinit => ?_⟩
    exact absurd hphase (not_or.mpr ⟨hemit, hinit⟩)

/-! ## A wait in one jump or tick by tick (20_memory.md R57) -/

section InsideAWait

/-- In a phase of another command the step stops (log 9). -/
theorem step_of_no_operand {s : State} (hr : s.runState = .run) (hf : s.phase ≠ .fetch)
    (ho : operandInPhase s = none) : step s = .fault .phaseMismatch := by
  have hs : step s = stepRun s := by simp [step, hr]
  rw [hs]
  unfold stepRun
  split
  · contradiction
  · simp [ho]

/-- A step inside a command depends on the operand and the next advance alone. -/
theorem step_eq_of_advance_eq {s t : State} (hrs : s.runState = .run) (hfs : s.phase ≠ .fetch)
    (hrt : t.runState = .run) (hft : t.phase ≠ .fetch) (ho : operandInPhase t = operandInPhase s)
    (hs : ∀ op, ∃ u, advance op s = some u ∧ advance op t = some u) : step t = step s := by
  cases hop : operandInPhase s with
  | none => rw [step_of_no_operand hrs hfs hop, step_of_no_operand hrt hft (ho.trans hop)]
  | some op =>
    obtain ⟨u, hu, hv⟩ := hs op
    have hfuel : maxWaits = (maxWaits - 1) + 1 := by decide
    rw [step_resume hrs hfs hop, step_resume hrt hft (ho.trans hop), finish, finish, hfuel,
      runOn_succ hu, runOn_succ hv]

/-- The end of an undisturbed wait of at least one tick. -/
theorem advance_undisturbed_wait {s : State} (op : PinId) (hr : s.runState = .run)
    (hf : s.phase ≠ .fetch) (hread : s.phase ≠ .sampleRead) (hw : 0 < s.remaining)
    (hn : s.resets = []) :
    advance op s = some (waitEnded op
      { s with now := s.now + s.remaining, adcReq := false, remaining := 0 }) := by
  have hne : s.remaining ≠ 0 := by omega
  rw [advance_wait op hr hf hread, runTo_of_undisturbed (resetBy_of_no_resets hn _)]
  simp [elapse, hne]

/-- One tick of a wait that goes on (R57). -/
theorem tick_inside_wait {s : State} {p : InputPorts} (hr : s.runState = .run)
    (hf : s.phase ≠ .fetch) (hread : s.phase ≠ .sampleRead) (hw : 1 < s.remaining)
    (hp : p.rstN = true) :
    tick p s =
      { s with now := s.now + 1, adcReq := false, remaining := s.remaining - 1 } := by
  rw [tick_of_run hp hr, tickRun_wait (by exact hf) (by exact hread), if_neg (by simpa using hw)]
  simp [elapse]

end InsideAWait

/-- Settles O53: the ticks a wait has counted are ticks the jump to its end no longer makes. -/
theorem stepAgreesFromInsideAWait : Obligations.StepAgreesFromInsideAWait := by
  intro s p hr hf hread hw hn hp
  rw [tick_inside_wait hr hf hread hw hp]
  refine step_eq_of_advance_eq hr hf (by exact hr) (by exact hf) (operandInPhase_congr rfl rfl rfl)
    fun op => ⟨_, advance_undisturbed_wait op hr hf hread (by omega) hn, ?_⟩
  rw [advance_undisturbed_wait op (by exact hr) (by exact hf) (by exact hread) (by simp; omega)
    (by exact hn)]
  simp only [show s.now + 1 + (s.remaining - 1) = s.now + s.remaining by omega]

/-- Settles O13: the encodings are a case each, and the fault record of the invariant tells FAULTED. -/
theorem statusPortsShowTheState : Obligations.StatusPortsShowTheState := by
  intro s
  have hcode : (outputs s).stFaultCode ≠ 0 ↔ s.faultCode ≠ .none := by
    change faultCodeNumber s.faultCode ≠ 0 ↔ _
    cases s.faultCode <;> decide
  have hrun : (outputs s).stRunstate = 3 ↔ s.runState = .faulted := by
    change runStateCode s.runState = 3 ↔ _
    cases s.runState <;> decide
  refine ⟨⟨rfl, rfl, rfl, rfl, rfl, rfl⟩, ?_, ?_, fun hinv => ?_⟩
  · refine ⟨?_, ?_, ?_, ?_⟩ <;> intro h <;> simp [outputs, h, runStateCode]
  · refine ⟨?_, ?_, ?_, ?_, ?_, ?_, ?_, ?_, ?_, ?_, ?_⟩ <;> intro h <;>
      simp [outputs, h, faultCodeNumber]
  · exact hrun.trans (hinv.fault_record.trans hcode.symm)

end Sys2Proof.Machine

namespace Sys2Proof

/-! ## The ROM image (20_memory.md R52) -/

section RomImage

theorem romImage_cons (w : CommandWord) (rom : List CommandWord) :
    romImage (w :: rom) = wordBytes w ++ romImage rom := rfl

/-- Byte `j` of a word is its bits `8j+7 : 8j`. -/
theorem wordBytes_getElem? (w : CommandWord) {j : Nat} (hj : j < 8) :
    (wordBytes w)[j]? = some (w.extractLsb' (8 * j) 8) := by
  simp [wordBytes, hj]

theorem romImage_getElem? {j : Nat} (hj : j < 8) (rom : List CommandWord) (i : Nat) :
    (romImage rom)[8 * i + j]? = rom[i]?.map fun w => w.extractLsb' (8 * j) 8 := by
  induction rom generalizing i with
  | nil => simp [romImage]
  | cons w rom ih =>
    rw [romImage_cons]
    cases i with
    | zero =>
      rw [List.getElem?_append_left (by rw [wordBytes_length]; omega), Nat.mul_zero, Nat.zero_add,
        wordBytes_getElem? w hj]
      rfl
    | succ i =>
      rw [List.getElem?_append_right (by rw [wordBytes_length]; omega), wordBytes_length,
        show 8 * (i + 1) + j - 8 = 8 * i + j by omega, ih, List.getElem?_cons_succ]

/-- A word is its eight bytes put together again, the least significant last. -/
theorem append_bytes_eq (w : CommandWord) :
    w.extractLsb' 56 8 ++ w.extractLsb' 48 8 ++ w.extractLsb' 40 8 ++ w.extractLsb' 32 8 ++
      w.extractLsb' 24 8 ++ w.extractLsb' 16 8 ++ w.extractLsb' 8 8 ++ w.extractLsb' 0 8 = w := by
  apply BitVec.eq_of_toNat_eq
  simp only [append_toNat, field_toNat]
  have hlt := w.isLt
  omega

/-- The first word of an image is read back, then the rest. -/
theorem romOfBytes_wordBytes_append (w : CommandWord) (bytes : List Byte) :
    romOfBytes (wordBytes w ++ bytes) = (romOfBytes bytes).map (w :: ·) := by
  have hread : romOfBytes (wordBytes w ++ bytes) = (romOfBytes bytes).map
      ((w.extractLsb' 56 8 ++ w.extractLsb' 48 8 ++ w.extractLsb' 40 8 ++ w.extractLsb' 32 8 ++
        w.extractLsb' 24 8 ++ w.extractLsb' 16 8 ++ w.extractLsb' 8 8 ++ w.extractLsb' 0 8) :: ·) :=
    rfl
  rw [hread, append_bytes_eq]

theorem romOfBytes_romImage (rom : List CommandWord) : romOfBytes (romImage rom) = some rom := by
  induction rom with
  | nil => rfl
  | cons w rom ih => rw [romImage_cons, romOfBytes_wordBytes_append, ih, Option.map_some]

end RomImage

/-- Settles O5: the image of `w :: rom` is the eight bytes of `w` and then the image of `rom`, in
finding a byte and in reading the words back. -/
theorem romImageIsLittleEndian : Obligations.RomImageIsLittleEndian :=
  ⟨fun rom i _ hj => romImage_getElem? hj rom i, romOfBytes_romImage⟩

end Sys2Proof

namespace Sys2Proof.Machine

/-! ## The configuration is never written (20_memory.md R64) -/

section Configuration

theorem sameConfiguration.refl (s : State) : sameConfiguration s s := ⟨rfl, rfl⟩

theorem sameConfiguration.trans {s t u : State} (h1 : sameConfiguration s t)
    (h2 : sameConfiguration t u) : sameConfiguration s u := by
  obtain ⟨hrom1, hbuild1⟩ := h1
  obtain ⟨hrom2, hbuild2⟩ := h2
  exact ⟨hrom2.trans hrom1, hbuild2.trans hbuild1⟩

theorem waitEnded_configuration (op : PinId) (s : State) : sameConfiguration s (waitEnded op s) := by
  obtain ⟨-, -, hconf, -⟩ := waitEnded_keeps op s
  exact hconf

theorem emitFall_configuration (pin : PinId) (s : State) : sameConfiguration s (emitFall pin s) := by
  unfold emitFall
  dsimp only
  split <;> exact ⟨rfl, rfl⟩

theorem emitRise_configuration (pin : PinId) (s : State) : sameConfiguration s (emitRise pin s) := by
  unfold emitRise
  split
  · exact emitFall_configuration pin s
  · exact ⟨rfl, rfl⟩

theorem beginEmit_configuration (pin : PinId) (angle : Int) (s : State) :
    sameConfiguration s (beginEmit pin angle s) := by
  unfold beginEmit
  split
  · exact ⟨rfl, rfl⟩
  · exact emitRise_configuration pin
      (storeWidth (pulseWidth angle s.bndOutMin.toInt s.bndOutMax.toInt) s)

theorem beginMap_configuration (a b c d : Bound12) (s : State) :
    sameConfiguration s (beginMap a b c d s) := by
  unfold beginMap
  dsimp only
  split <;> exact ⟨rfl, rfl⟩

theorem beginInit_configuration (endPin : PinId) (s : State) :
    sameConfiguration s (beginInit endPin s) := by
  unfold beginInit
  split <;> exact ⟨rfl, rfl⟩

theorem firstAction_configuration (i : Instr) (s : State) :
    sameConfiguration s (firstAction i s) := by
  cases i with
  | sample => exact ⟨rfl, rfl⟩
  | map a b c d => exact beginMap_configuration a b c d s
  | emitA pin => exact beginEmit_configuration pin _ s
  | emitImm pin imm => exact beginEmit_configuration pin _ s
  | init endPin => exact beginInit_configuration endPin s
  | lds imm => exact ⟨rfl, rfl⟩
  | jmp target => exact ⟨rfl, rfl⟩
  | halt => exact ⟨rfl, rfl⟩

theorem advance_configuration {op : PinId} {s s' : State} (h : advance op s = some s') :
    sameConfiguration s s' := by
  obtain ⟨-, -, ⟨-, rfl⟩ | ⟨-, a, rest, -, rfl⟩ | ⟨-, rfl⟩⟩ := advance_cases h
  · exact takeReset_configuration s
  · exact ⟨rfl, rfl⟩
  · exact waitEnded_configuration op { elapse s.remaining s with remaining := 0 }

theorem finish_configuration (op : PinId) (s : State) : sameConfiguration s (finish op s) :=
  finish_keeps (P := sameConfiguration s) (fun _ _ hs ha => hs.trans (advance_configuration ha))
    (.refl s)

theorem step_configuration {s t : State} (h : step s = .next t) : sameConfiguration s t := by
  obtain ⟨-, rfl⟩ | ⟨-, rfl⟩ | ⟨-, -, -, rfl⟩ | ⟨-, -, -, hfetch⟩ | ⟨-, -, op, -, rfl⟩ :=
    step_cases h
  · split <;> exact ⟨rfl, rfl⟩
  · exact takeReset_configuration s
  · exact takeReset_configuration s
  · obtain ⟨code, -, rfl⟩ | ⟨i, -, rfl⟩ := hfetch
    · exact ⟨rfl, rfl⟩
    · exact (firstAction_configuration i (dispatchDone s)).trans (finish_configuration _ _)
  · exact finish_configuration op s

theorem fetchAct_configuration (s : State) : sameConfiguration s (fetchAct s) := by
  unfold fetchAct
  split
  · exact ⟨rfl, rfl⟩
  · exact firstAction_configuration _ { s with dispatched := 0 }

theorem tickRun_configuration (p : InputPorts) (s : State) : sameConfiguration s (tickRun p s) := by
  unfold tickRun
  split
  · exact ⟨rfl, rfl⟩
  · split <;> exact ⟨rfl, rfl⟩
  · split
    · exact waitEnded_configuration _ { s with remaining := 0 }
    · exact ⟨rfl, rfl⟩

theorem tick_configuration (p : InputPorts) (s : State) : sameConfiguration s (tick p s) := by
  unfold tick
  split
  · split <;> exact ⟨rfl, rfl⟩
  · split
    next => exact ⟨rfl, rfl⟩
    next => exact tickRun_configuration p (elapse 1 s)
    next => exact ⟨rfl, rfl⟩
    next => exact ⟨rfl, rfl⟩

theorem clockStep_configuration (p : InputPorts) (s : State) :
    sameConfiguration s (clockStep p s) := by
  unfold clockStep
  split
  · exact fetchAct_configuration s
  · exact tick_configuration p s

end Configuration

/-- Settles O44: no operation a step or a clock move is made of writes the ROM or the board. -/
theorem nothingWritesTheConfiguration : Obligations.NothingWritesTheConfiguration :=
  ⟨fun _ _ h => step_configuration h, clockStep_configuration⟩

end Sys2Proof.Machine

namespace Sys2Proof.Machine

/-! ## Waits and reads on the clocked machine (20_memory.md R55, R57) -/

section Ticks

@[simp] theorem ticks_nil (s : State) : ticks [] s = s := rfl

@[simp] theorem ticks_cons (p : InputPorts) (ps : List InputPorts) (s : State) :
    ticks (p :: ps) s = ticks ps (tick p s) := rfl

@[simp] theorem noResetOn_cons (p : InputPorts) (ps : List InputPorts) :
    noResetOn (p :: ps) = (p.rstN && noResetOn ps) := rfl

theorem noResetOn_append (ps qs : List InputPorts) :
    noResetOn (ps ++ qs) = (noResetOn ps && noResetOn qs) := List.all_append

@[simp] theorem elapse_zero (s : State) : elapse 0 s = s := by simp [elapse]

theorem elapse_elapse (m n : Nat) (s : State) : elapse n (elapse m s) = elapse (m + n) s := by
  simp [elapse, Nat.add_assoc, Bool.and_assoc]

@[simp] theorem operandInPhase_elapse (n : Nat) (s : State) :
    operandInPhase (elapse n s) = operandInPhase s := operandInPhase_congr rfl rfl rfl

/-- Ticks short of the end of a wait count it down, and nothing else but the time goes on (R57). -/
theorem ticks_inside_wait {s : State} {ps : List InputPorts} (hr : s.runState = .run)
    (hf : s.phase ≠ .fetch) (hread : s.phase ≠ .sampleRead) (hps : noResetOn ps = true)
    (hlt : ps.length < s.remaining) :
    ticks ps s = { elapse ps.length s with remaining := s.remaining - ps.length } := by
  induction ps generalizing s with
  | nil => simp
  | cons p ps ih =>
    obtain ⟨hp, hps⟩ : p.rstN = true ∧ noResetOn ps = true := by simpa using hps
    rw [List.length_cons] at hlt
    rw [ticks_cons, tick_inside_wait hr hf hread (by omega) hp,
      ih (by exact hr) (by exact hf) (by exact hread) hps (by simp; omega)]
    simp [elapse, Nat.add_assoc, Nat.sub_sub, Nat.add_comm 1]

/-- The last tick of a wait does the action after it (R57). -/
theorem tick_ends_wait {s : State} {p : InputPorts} (hr : s.runState = .run) (hf : s.phase ≠ .fetch)
    (hread : s.phase ≠ .sampleRead) (hw : s.remaining = 1) (hp : p.rstN = true) :
    tick p s =
      waitEnded ((operandInPhase s).getD 0) { elapse 1 s with remaining := 0 } := by
  have hlast : (elapse 1 s).remaining ≤ 1 := by simp [hw]
  rw [tick_of_run hp hr, tickRun_wait (by exact hf) (by exact hread), if_pos hlast,
    operandInPhase_elapse]

/-- A wait of at least one tick lasts `remaining` ticks, then the action after it happens (R57). -/
theorem ticks_whole_wait {s : State} {ps : List InputPorts} (hr : s.runState = .run)
    (hf : s.phase ≠ .fetch) (hread : s.phase ≠ .sampleRead) (hps : noResetOn ps = true)
    (hlen : ps.length = s.remaining) (hw : 0 < s.remaining) :
    ticks ps s =
      waitEnded ((operandInPhase s).getD 0) { elapse s.remaining s with remaining := 0 } := by
  obtain rfl | ⟨qs, p, rfl⟩ := ps.eq_nil_or_concat'
  · simp at hlen; omega
  · rw [List.length_append, List.length_singleton] at hlen
    obtain ⟨hqs, hp⟩ : noResetOn qs = true ∧ noResetOn [p] = true := by
      simpa [noResetOn_append] using hps
    have hrest : s.remaining - qs.length = 1 := by omega
    rw [ticks_append, ticks_inside_wait hr hf hread hqs (by omega), hrest, ticks_cons, ticks_nil,
      tick_ends_wait (by exact hr) (by exact hf) (by exact hread) rfl (by simpa [noResetOn] using hp),
      operandInPhase_congr (s := s) rfl rfl rfl, ← hlen, ← elapse_elapse]
    rfl

/-- A pending read on one tick: the answer on a tick with `adc_ack`, or the time alone (R55). -/
theorem tick_of_read {s : State} {p : InputPorts} (hr : s.runState = .run)
    (hread : s.phase = .sampleRead) (hpend : s.adcPending = true) (hp : p.rstN = true) :
    tick p s = if p.adcAck then adcAnswered p.adcData (elapse 1 s) else elapse 1 s := by
  rw [tick_of_run hp hr]
  simp [tickRun, hread, hpend]

/-- A pending read waits through the ticks without `adc_ack` (R55). -/
theorem ticks_unanswered {s : State} {ps : List InputPorts} (hr : s.runState = .run)
    (hread : s.phase = .sampleRead) (hpend : s.adcPending = true) (hps : noResetOn ps = true)
    (hack : (ps.all fun p => !p.adcAck) = true) : ticks ps s = elapse ps.length s := by
  induction ps generalizing s with
  | nil => simp
  | cons p ps ih =>
    obtain ⟨hp, hps⟩ : p.rstN = true ∧ noResetOn ps = true := by simpa using hps
    rw [List.all_cons, Bool.and_eq_true, Bool.not_eq_true'] at hack
    obtain ⟨hack, hacks⟩ := hack
    rw [ticks_cons, tick_of_read hr hread hpend hp, hack, if_neg Bool.false_ne_true,
      ih (by exact hr) (by exact hread) (by exact hpend) hps hacks, elapse_elapse,
      List.length_cons, Nat.add_comm]

/-- After at least one tick `adc_req` is low (R55). -/
theorem elapse_of_pos {n : Nat} (hn : 0 < n) (s : State) :
    elapse n s = { s with now := s.now + n, adcReq := false } := by
  simp [elapse, Nat.pos_iff_ne_zero.mp hn]

/-- With no read pending a tick in RUN does not see `adc_ack` (R55). -/
theorem tickRun_ack_ignored {s : State} (p : InputPorts) (h : s.adcPending = false) :
    tickRun p s = tickRun { p with adcAck := false } s := by
  unfold tickRun
  simp only [h, Bool.false_and]

theorem tick_ack_ignored {s : State} (p : InputPorts) (h : s.adcPending = false) :
    tick p s = tick { p with adcAck := false } s := by
  unfold tick
  rw [tickRun_ack_ignored p (by exact h)]

end Ticks

/-- Settles O51: all ticks but the last count down, and the last one does the action. -/
theorem waitsLastExactlyTheirTicks : Obligations.WaitsLastExactlyTheirTicks := by
  intro s ps hr hf hread hq hps
  refine ⟨fun hlt => ?_, fun hlen hw => ?_⟩
  · rw [ticks_inside_wait hr hf hread hps hlt, elapse_of_no_request hq]
  · rw [ticks_whole_wait hr hf hread hps hlen hw, elapse_of_no_request hq]

/-- Settles O52: a request begins a read, a settle wait ends in the next request, and of the ticks of a
pending read only one with `adc_ack` does anything. -/
theorem adcHandshake : Obligations.AdcHandshake := by
  refine ⟨fun s => ⟨rfl, rfl, rfl⟩, ?_, ?_, ?_⟩
  · intro s ps hr hp hk hq hps hlen hw
    rw [ticks_whole_wait hr (by simp [hp]) (by simp [hp]) hps hlen hw, elapse_of_no_request hq,
      waitEnded_sampleSettle (by exact hp), sampleSettled_next (by exact hk), hlen]
    rfl
  · intro s ps r hr hp hpend hps hack
    have hwait := ticks_unanswered hr hp hpend hps hack
    refine ⟨fun hne => ?_, ?_⟩
    · rw [hwait, elapse_of_pos (List.length_pos_iff.mpr hne)]
    · rw [ticks_append, hwait, ticks_cons, ticks_nil,
        tick_of_read (by exact hr) (by exact hp) (by exact hpend) rfl, if_pos rfl, elapse_elapse,
        elapse_of_pos (Nat.succ_pos _)]
  · intro s p hpend
    unfold clockStep
    rw [tick_ack_ignored p hpend]

end Sys2Proof.Machine

namespace Sys2Proof

/-! ## The decoder, opcode by opcode (30_encoding.md R71 to R81) -/

section Decoding

/-- The opcode is reserved or one of the seven of R79. -/
theorem opField_cases (w : CommandWord) :
    (opField w = 0 ∨ 8 ≤ (opField w).toNat) ∨ opField w = 1 ∨ opField w = 2 ∨ opField w = 3 ∨
      opField w = 4 ∨ opField w = 5 ∨ opField w = 6 ∨ opField w = 7 := by
  generalize opField w = op
  revert op
  decide

variable {w : CommandWord}

/-- The opcode of a word as a number. -/
theorem opField_number {n : BitVec 4} (h : opField w = n) : w.toNat / 2 ^ 60 % 2 ^ 4 = n.toNat := by
  rw [← h, opField, field_toNat]

theorem decode_reserved (h : opField w = 0 ∨ 8 ≤ (opField w).toNat) :
    decode w = .error .reservedOpcode := by
  unfold decode
  split
  case h_8 => rfl
  all_goals
    rename_i hop
    obtain h | h := h
    · simp [h] at hop
    · omega

theorem decode_sample (h : opField w = 1) :
    decode w = whenZero (w.extractLsb' 0 60 == 0) .sample := by simp [decode, h]

theorem decode_map (h : opField w = 2) :
    decode w = whenZero (w.extractLsb' 0 12 == 0)
      (.map (w.extractLsb' 48 12) (w.extractLsb' 36 12) (w.extractLsb' 24 12)
        (w.extractLsb' 12 12)) := by simp [decode, h]

theorem decode_emit (h : opField w = 3) : decode w = decodeEmit w := by simp [decode, h]

theorem decode_init (h : opField w = 4) :
    decode w = whenZero (w.extractLsb' 0 52 == 0) (.init (w.extractLsb' 52 8)) := by
  simp [decode, h]

theorem decode_lds (h : opField w = 5) :
    decode w = whenZero (w.extractLsb' 16 44 == 0) (.lds (w.extractLsb' 0 16)) := by
  simp [decode, h]

theorem decode_jmp (h : opField w = 6) :
    decode w = whenZero (w.extractLsb' 16 44 == 0) (.jmp (w.extractLsb' 0 16)) := by
  simp [decode, h]

theorem decode_halt (h : opField w = 7) :
    decode w = whenZero (w.extractLsb' 0 60 == 0) .halt := by simp [decode, h]

theorem whenZero_eq_ok_iff {n : Nat} {x : BitVec n} {i j : Instr} :
    whenZero (x == 0) i = .ok j ↔ x = 0 ∧ i = j := by
  by_cases h : x = 0#n <;> simp [whenZero, h]

theorem whenZero_eq_error_iff {n : Nat} {x : BitVec n} {i : Instr} :
    (∃ e, whenZero (x == 0) i = .error e) ↔ x ≠ 0 := by
  by_cases h : x = 0#n <;> simp [whenZero, h]

/-- EMIT with src = 1 carries its angle (R74). -/
theorem decodeEmit_imm (h0 : w.extractLsb' 16 35 = 0) (hsrc : w.getLsbD 51 = true) :
    decodeEmit w = .ok (.emitImm (w.extractLsb' 52 8) (w.extractLsb' 0 16)) := by
  simp [decodeEmit, h0, hsrc]

/-- EMIT with src = 0 takes its angle from A (R74). -/
theorem decodeEmit_regA (h0 : w.extractLsb' 16 35 = 0) (hsrc : w.getLsbD 51 = false)
    (himm : w.extractLsb' 0 16 = 0) : decodeEmit w = .ok (.emitA (w.extractLsb' 52 8)) := by
  rw [decodeEmit, if_neg (not_not.mpr h0), hsrc, if_neg Bool.false_ne_true,
    if_neg (not_not.mpr himm)]

theorem decodeEmit_eq_ok_cases {i : Instr} (h : decodeEmit w = .ok i) :
    w.extractLsb' 16 35 = 0 ∧
      ((w.getLsbD 51 = true ∧ i = .emitImm (w.extractLsb' 52 8) (w.extractLsb' 0 16)) ∨
        (w.getLsbD 51 = false ∧ w.extractLsb' 0 16 = 0 ∧ i = .emitA (w.extractLsb' 52 8))) := by
  unfold decodeEmit at h
  split at h
  · cases h
  next h0 =>
    refine ⟨by simpa using h0, ?_⟩
    split at h
    next hsrc => cases h; exact .inl ⟨hsrc, rfl⟩
    next hsrc =>
      split at h
      · cases h
      next himm => cases h; exact .inr ⟨by simpa using hsrc, by simpa using himm, rfl⟩

theorem decodeEmit_eq_error_iff :
    (∃ e, decodeEmit w = .error e) ↔
      w.extractLsb' 16 35 ≠ 0 ∨ (w.getLsbD 51 = false ∧ w.extractLsb' 0 16 ≠ 0) := by
  unfold decodeEmit
  split
  · simp_all
  · split
    · simp_all
    · split <;> simp_all

end Decoding

/-! ## Decode and encode are inverse (R72 to R78, R81) -/

section RoundTrip

variable {w : CommandWord}

/-- A field of a word that is 0, as a number. -/
theorem field_eq_zero_iff (w : CommandWord) (s n : Nat) :
    w.extractLsb' s n = 0 ↔ w.toNat / 2 ^ s % 2 ^ n = 0 := by
  rw [← field_toNat]
  exact ⟨fun h => by simp [h], fun h => BitVec.eq_of_toNat_eq (by simpa using h)⟩

theorem decode_encode_map (a b c d : Bound12) :
    decode (encode (.map a b c d)) = .ok (.map a b c d) := by
  have hword := encode_map_toNat a b c d
  have ha := a.isLt
  have hb := b.isLt
  have hc := c.isLt
  have hd := d.isLt
  rw [decode_map (Laws.OpcodeOfEncoding.map a b c d), whenZero_eq_ok_iff, field_eq_zero_iff,
    field_eq _ 48 a (by omega), field_eq _ 36 b (by omega), field_eq _ 24 c (by omega),
    field_eq _ 12 d (by omega)]
  exact ⟨by omega, rfl⟩

theorem decode_encode_emitA (p : PinId) : decode (encode (.emitA p)) = .ok (.emitA p) := by
  have hword := encode_emitA_toNat p
  have hp := p.isLt
  rw [decode_emit (Laws.OpcodeOfEncoding.emitA p),
    decodeEmit_regA ((field_eq_zero_iff _ _ _).mpr (by omega))
      (by rw [bit51_eq, decide_eq_false_iff_not]; omega) ((field_eq_zero_iff _ _ _).mpr (by omega)),
    field_eq _ 52 p (by omega)]

theorem decode_encode_emitImm (p : PinId) (v : Word16) :
    decode (encode (.emitImm p v)) = .ok (.emitImm p v) := by
  have hword := encode_emitImm_toNat p v
  have hp := p.isLt
  have hv := v.isLt
  rw [decode_emit (Laws.OpcodeOfEncoding.emitImm p v),
    decodeEmit_imm ((field_eq_zero_iff _ _ _).mpr (by omega))
      (by rw [bit51_eq, decide_eq_true_iff]; omega),
    field_eq _ 52 p (by omega), field_eq _ 0 v (by omega)]

theorem decode_encode_init (e : PinId) : decode (encode (.init e)) = .ok (.init e) := by
  have hword := encode_init_toNat e
  have he := e.isLt
  rw [decode_init (Laws.OpcodeOfEncoding.init e), whenZero_eq_ok_iff, field_eq_zero_iff,
    field_eq _ 52 e (by omega)]
  exact ⟨by omega, rfl⟩

theorem decode_encode_lds (v : Word16) : decode (encode (.lds v)) = .ok (.lds v) := by
  have hword := encode_lds_toNat v
  have hv := v.isLt
  rw [decode_lds (Laws.OpcodeOfEncoding.lds v), whenZero_eq_ok_iff, field_eq_zero_iff,
    field_eq _ 0 v (by omega)]
  exact ⟨by omega, rfl⟩

theorem decode_encode_jmp (t : Word16) : decode (encode (.jmp t)) = .ok (.jmp t) := by
  have hword := encode_jmp_toNat t
  have ht := t.isLt
  rw [decode_jmp (Laws.OpcodeOfEncoding.jmp t), whenZero_eq_ok_iff, field_eq_zero_iff,
    field_eq _ 0 t (by omega)]
  exact ⟨by omega, rfl⟩

theorem decode_encode (i : Instr) : decode (encode i) = .ok i := by
  cases i with
  | sample => decide
  | map a b c d => exact decode_encode_map a b c d
  | emitA p => exact decode_encode_emitA p
  | emitImm p v => exact decode_encode_emitImm p v
  | init e => exact decode_encode_init e
  | lds v => exact decode_encode_lds v
  | jmp t => exact decode_encode_jmp t
  | halt => decide

/-! A word with a command's opcode and zeros is the word of the command its fields spell. -/

theorem encode_sample_fields (hop : opField w = 1) (h0 : w.extractLsb' 0 60 = 0) :
    encode .sample = w := by
  apply BitVec.eq_of_toNat_eq
  have hword : (encode .sample).toNat = 1 * 2 ^ 60 := rfl
  have hopcode : w.toNat / 2 ^ 60 % 2 ^ 4 = 1 := opField_number hop
  have hlt := w.isLt
  rw [field_eq_zero_iff] at h0
  omega

theorem encode_map_fields (hop : opField w = 2) (h0 : w.extractLsb' 0 12 = 0) :
    encode (.map (w.extractLsb' 48 12) (w.extractLsb' 36 12) (w.extractLsb' 24 12)
      (w.extractLsb' 12 12)) = w := by
  apply BitVec.eq_of_toNat_eq
  have hopcode : w.toNat / 2 ^ 60 % 2 ^ 4 = 2 := opField_number hop
  have hlt := w.isLt
  rw [field_eq_zero_iff] at h0
  simp only [encode_map_toNat, field_toNat]
  omega

theorem encode_emitA_fields (hop : opField w = 3) (h0 : w.extractLsb' 16 35 = 0)
    (hsrc : w.getLsbD 51 = false) (himm : w.extractLsb' 0 16 = 0) :
    encode (.emitA (w.extractLsb' 52 8)) = w := by
  apply BitVec.eq_of_toNat_eq
  have hopcode : w.toNat / 2 ^ 60 % 2 ^ 4 = 3 := opField_number hop
  have hlt := w.isLt
  rw [field_eq_zero_iff] at h0 himm
  rw [bit51_eq, decide_eq_false_iff_not] at hsrc
  simp only [encode_emitA_toNat, field_toNat]
  omega

theorem encode_emitImm_fields (hop : opField w = 3) (h0 : w.extractLsb' 16 35 = 0)
    (hsrc : w.getLsbD 51 = true) :
    encode (.emitImm (w.extractLsb' 52 8) (w.extractLsb' 0 16)) = w := by
  apply BitVec.eq_of_toNat_eq
  have hopcode : w.toNat / 2 ^ 60 % 2 ^ 4 = 3 := opField_number hop
  have hlt := w.isLt
  rw [field_eq_zero_iff] at h0
  rw [bit51_eq, decide_eq_true_iff] at hsrc
  simp only [encode_emitImm_toNat, field_toNat]
  omega

theorem encode_init_fields (hop : opField w = 4) (h0 : w.extractLsb' 0 52 = 0) :
    encode (.init (w.extractLsb' 52 8)) = w := by
  apply BitVec.eq_of_toNat_eq
  have hopcode : w.toNat / 2 ^ 60 % 2 ^ 4 = 4 := opField_number hop
  have hlt := w.isLt
  rw [field_eq_zero_iff] at h0
  simp only [encode_init_toNat, field_toNat]
  omega

theorem encode_lds_fields (hop : opField w = 5) (h0 : w.extractLsb' 16 44 = 0) :
    encode (.lds (w.extractLsb' 0 16)) = w := by
  apply BitVec.eq_of_toNat_eq
  have hopcode : w.toNat / 2 ^ 60 % 2 ^ 4 = 5 := opField_number hop
  have hlt := w.isLt
  rw [field_eq_zero_iff] at h0
  simp only [encode_lds_toNat, field_toNat]
  omega

theorem encode_jmp_fields (hop : opField w = 6) (h0 : w.extractLsb' 16 44 = 0) :
    encode (.jmp (w.extractLsb' 0 16)) = w := by
  apply BitVec.eq_of_toNat_eq
  have hopcode : w.toNat / 2 ^ 60 % 2 ^ 4 = 6 := opField_number hop
  have hlt := w.isLt
  rw [field_eq_zero_iff] at h0
  simp only [encode_jmp_toNat, field_toNat]
  omega

theorem encode_halt_fields (hop : opField w = 7) (h0 : w.extractLsb' 0 60 = 0) :
    encode .halt = w := by
  apply BitVec.eq_of_toNat_eq
  have hword : (encode .halt).toNat = 7 * 2 ^ 60 := rfl
  have hopcode : w.toNat / 2 ^ 60 % 2 ^ 4 = 7 := opField_number hop
  have hlt := w.isLt
  rw [field_eq_zero_iff] at h0
  omega

theorem encode_of_decode {i : Instr} (h : decode w = .ok i) : encode i = w := by
  obtain hop | hop | hop | hop | hop | hop | hop | hop := opField_cases w
  · rw [decode_reserved hop] at h
    cases h
  · obtain ⟨h0, rfl⟩ := whenZero_eq_ok_iff.mp (decode_sample hop ▸ h)
    exact encode_sample_fields hop h0
  · obtain ⟨h0, rfl⟩ := whenZero_eq_ok_iff.mp (decode_map hop ▸ h)
    exact encode_map_fields hop h0
  · obtain ⟨h0, ⟨hsrc, rfl⟩ | ⟨hsrc, himm, rfl⟩⟩ := decodeEmit_eq_ok_cases (decode_emit hop ▸ h)
    · exact encode_emitImm_fields hop h0 hsrc
    · exact encode_emitA_fields hop h0 hsrc himm
  · obtain ⟨h0, rfl⟩ := whenZero_eq_ok_iff.mp (decode_init hop ▸ h)
    exact encode_init_fields hop h0
  · obtain ⟨h0, rfl⟩ := whenZero_eq_ok_iff.mp (decode_lds hop ▸ h)
    exact encode_lds_fields hop h0
  · obtain ⟨h0, rfl⟩ := whenZero_eq_ok_iff.mp (decode_jmp hop ▸ h)
    exact encode_jmp_fields hop h0
  · obtain ⟨h0, rfl⟩ := whenZero_eq_ok_iff.mp (decode_halt hop ▸ h)
    exact encode_halt_fields hop h0

/-- The legal words are the words of the commands (R81). -/
theorem decode_eq_ok_iff {i : Instr} : decode w = .ok i ↔ encode i = w :=
  ⟨encode_of_decode, fun h => h ▸ decode_encode i⟩

end RoundTrip

/-- Settles O2: each operand is read from the bits the encoder puts it in, and the bits the format
marks 0 are 0. -/
theorem decodeOfEncodeIsTheCommand : Obligations.DecodeOfEncodeIsTheCommand := decode_encode

/-- Settles O1: each of the eight words is the word of its command. -/
theorem specWordsDecodeToTheirCommands : Obligations.SpecWordsDecodeToTheirCommands := by
  refine ⟨?_, ?_, ?_, ?_, ?_, ?_, ?_, ?_⟩ <;> exact decode_eq_ok_iff.mpr (by decide)

end Sys2Proof

namespace Sys2Proof

/-! ## The match and mask table (30_encoding.md R81) -/

section OpcodeTable

/-- The row of a command, by its place in the table of R81. -/
def Instr.row : Instr → OpcodeRow
  | .sample => opcodeTable[0]
  | .map .. => opcodeTable[1]
  | .emitA _ => opcodeTable[2]
  | .emitImm .. => opcodeTable[3]
  | .init _ => opcodeTable[4]
  | .lds _ => opcodeTable[5]
  | .jmp _ => opcodeTable[6]
  | .halt => opcodeTable[7]

/-- A command's row stands once in the table, under the command's name. -/
theorem opcodeTable_filter_row (i : Instr) :
    (opcodeTable.filter fun r => r == i.row).map (fun r => r.name) = [i.mnemonic] := by
  cases i <;> rfl

variable {w : CommandWord}

theorem admits_iff {r : OpcodeRow} : r.admits w = true ↔ w &&& r.mask = r.pattern := by
  simp [OpcodeRow.admits]

/-- A field the mask keeps whole is the pattern's. -/
theorem field_of_and {mask pattern : CommandWord} (h : w &&& mask = pattern) (s n : Nat)
    (hm : mask.extractLsb' s n = BitVec.allOnes n) :
    w.extractLsb' s n = pattern.extractLsb' s n := by
  rw [← h, BitVec.extractLsb'_and, hm, BitVec.and_allOnes]

/-- A bit the mask keeps is the pattern's. -/
theorem bit_of_and {mask pattern : CommandWord} (h : w &&& mask = pattern) (j : Nat)
    (hm : mask.getLsbD j = true) : w.getLsbD j = pattern.getLsbD j := by
  rw [← h, BitVec.getLsbD_and, hm, Bool.and_true]

/-- The word of a command is of the command's row: the mask drops the operands and keeps the rest. -/
theorem row_admits_encode (i : Instr) : i.row.admits (encode i) = true := by
  rw [admits_iff]
  cases i with
  | sample => rfl
  | map a b c d =>
    change (0x2#4 ++ a ++ b ++ c ++ d ++ 0#12) &&&
      (0xF#4 ++ 0#12 ++ 0#12 ++ 0#12 ++ 0#12 ++ BitVec.allOnes 12) =
        0x2#4 ++ 0#12 ++ 0#12 ++ 0#12 ++ 0#12 ++ 0#12
    simp only [BitVec.and_append, BitVec.and_zero, BitVec.and_allOnes]
    rfl
  | emitA p =>
    change (0x3#4 ++ p ++ 0#1 ++ 0#35 ++ 0#16) &&&
      (0xF#4 ++ 0#8 ++ BitVec.allOnes 1 ++ BitVec.allOnes 35 ++ BitVec.allOnes 16) =
        0x3#4 ++ 0#8 ++ 0#1 ++ 0#35 ++ 0#16
    simp only [BitVec.and_append, BitVec.and_zero, BitVec.and_allOnes]
    rfl
  | emitImm p v =>
    change (0x3#4 ++ p ++ 1#1 ++ 0#35 ++ v) &&&
      (0xF#4 ++ 0#8 ++ BitVec.allOnes 1 ++ BitVec.allOnes 35 ++ 0#16) =
        0x3#4 ++ 0#8 ++ 1#1 ++ 0#35 ++ 0#16
    simp only [BitVec.and_append, BitVec.and_zero, BitVec.and_allOnes]
    rfl
  | init e =>
    change (0x4#4 ++ e ++ 0#52) &&& (0xF#4 ++ 0#8 ++ BitVec.allOnes 52) = 0x4#4 ++ 0#8 ++ 0#52
    simp only [BitVec.and_append, BitVec.and_zero, BitVec.and_allOnes]
    rfl
  | lds v =>
    change (0x5#4 ++ 0#44 ++ v) &&& (0xF#4 ++ BitVec.allOnes 44 ++ 0#16) = 0x5#4 ++ 0#44 ++ 0#16
    simp only [BitVec.and_append, BitVec.and_zero, BitVec.and_allOnes]
    rfl
  | jmp t =>
    change (0x6#4 ++ 0#44 ++ t) &&& (0xF#4 ++ BitVec.allOnes 44 ++ 0#16) = 0x6#4 ++ 0#44 ++ 0#16
    simp only [BitVec.and_append, BitVec.and_zero, BitVec.and_allOnes]
    rfl
  | halt => rfl

/-- A word that a row admits is one of the row's commands. -/
theorem decode_of_admits {r : OpcodeRow} (hr : r ∈ opcodeTable) (h : r.admits w = true) :
    ∃ i, decode w = .ok i ∧ i.row = r := by
  rw [admits_iff] at h
  simp only [opcodeTable, List.mem_cons, List.not_mem_nil, or_false] at hr
  obtain rfl | rfl | rfl | rfl | rfl | rfl | rfl | rfl := hr
  · exact ⟨_, (decode_sample (field_of_and h 60 4 rfl)).trans
      (whenZero_eq_ok_iff.mpr ⟨field_of_and h 0 60 rfl, rfl⟩), rfl⟩
  · exact ⟨_, (decode_map (field_of_and h 60 4 rfl)).trans
      (whenZero_eq_ok_iff.mpr ⟨field_of_and h 0 12 rfl, rfl⟩), rfl⟩
  · exact ⟨_, (decode_emit (field_of_and h 60 4 rfl)).trans
      (decodeEmit_regA (field_of_and h 16 35 rfl) (bit_of_and h 51 rfl)
        (field_of_and h 0 16 rfl)), rfl⟩
  · exact ⟨_, (decode_emit (field_of_and h 60 4 rfl)).trans
      (decodeEmit_imm (field_of_and h 16 35 rfl) (bit_of_and h 51 rfl)), rfl⟩
  · exact ⟨_, (decode_init (field_of_and h 60 4 rfl)).trans
      (whenZero_eq_ok_iff.mpr ⟨field_of_and h 0 52 rfl, rfl⟩), rfl⟩
  · exact ⟨_, (decode_lds (field_of_and h 60 4 rfl)).trans
      (whenZero_eq_ok_iff.mpr ⟨field_of_and h 16 44 rfl, rfl⟩), rfl⟩
  · exact ⟨_, (decode_jmp (field_of_and h 60 4 rfl)).trans
      (whenZero_eq_ok_iff.mpr ⟨field_of_and h 16 44 rfl, rfl⟩), rfl⟩
  · exact ⟨_, (decode_halt (field_of_and h 60 4 rfl)).trans
      (whenZero_eq_ok_iff.mpr ⟨field_of_and h 0 60 rfl, rfl⟩), rfl⟩

/-- Of the rows, a legal word's command's row alone admits the word. -/
theorem admits_iff_row {i : Instr} (h : decode w = .ok i) {r : OpcodeRow} (hr : r ∈ opcodeTable) :
    r.admits w = true ↔ r = i.row := by
  constructor
  · intro hadmits
    obtain ⟨j, hj, rfl⟩ := decode_of_admits hr hadmits
    obtain rfl : j = i := Except.ok.inj (hj.symm.trans h)
    rfl
  · rintro rfl
    rw [← encode_of_decode h]
    exact row_admits_encode i

end OpcodeTable

/-- Settles O3: the rows' admitted words are the words of the commands, each in its command's row. -/
theorem decodeFollowsTheOpcodeTable : Obligations.DecodeFollowsTheOpcodeTable := by
  intro w
  cases h : decode w with
  | ok i =>
    refine .inl ⟨i, rfl, encode_of_decode h, ?_⟩
    have hrow : ∀ r ∈ opcodeTable, r.admits w = (r == i.row) := fun r hr => by
      rw [Bool.eq_iff_iff, admits_iff_row h hr, beq_iff_eq]
    rw [List.filter_congr hrow, opcodeTable_filter_row]
  | error e =>
    refine .inr ⟨⟨e, rfl⟩, List.filter_eq_nil_iff.mpr fun r hr hadmits => ?_⟩
    obtain ⟨i, hi, -⟩ := decode_of_admits hr hadmits
    cases h.symm.trans hi

/-! ## The ILLEGAL words (30_encoding.md R80) -/

section Illegal

open Sys2Proof.Machine

/-- Which words are ILLEGAL, opcode by opcode (R80). -/
theorem decode_eq_error_iff (w : CommandWord) :
    (∃ e, decode w = .error e) ↔
      (opField w = 0 ∨ 8 ≤ (opField w).toNat) ∨
      (opField w = 1 ∧ w.extractLsb' 0 60 ≠ 0) ∨ (opField w = 2 ∧ w.extractLsb' 0 12 ≠ 0) ∨
      (opField w = 3 ∧ w.extractLsb' 16 35 ≠ 0) ∨ (opField w = 4 ∧ w.extractLsb' 0 52 ≠ 0) ∨
      (opField w = 5 ∧ w.extractLsb' 16 44 ≠ 0) ∨ (opField w = 6 ∧ w.extractLsb' 16 44 ≠ 0) ∨
      (opField w = 7 ∧ w.extractLsb' 0 60 ≠ 0) ∨
      (opField w = 3 ∧ w.getLsbD 51 = false ∧ w.extractLsb' 0 16 ≠ 0) := by
  obtain hop | hop | hop | hop | hop | hop | hop | hop := opField_cases w
  · exact iff_of_true ⟨_, decode_reserved hop⟩ (.inl hop)
  · rw [decode_sample hop, whenZero_eq_error_iff, hop]; simp
  · rw [decode_map hop, whenZero_eq_error_iff, hop]; simp
  · rw [decode_emit hop, decodeEmit_eq_error_iff, hop]; simp
  · rw [decode_init hop, whenZero_eq_error_iff, hop]; simp
  · rw [decode_lds hop, whenZero_eq_error_iff, hop]; simp
  · rw [decode_jmp hop, whenZero_eq_error_iff, hop]; simp
  · rw [decode_halt hop, whenZero_eq_error_iff, hop]; simp

/-- The step at an ILLEGAL word raises ILLEGAL_CMD at the end of the dispatch (R80, R180). -/
theorem step_illegal {s : State} {w : CommandWord} {e : Illegal} (hr : s.runState = .run)
    (hp : s.phase = .fetch) (hu : s.undisturbedTo s.dispatchEnd)
    (hw : romRead s.rom s.pc = some w) (hd : decode w = .error e) :
    step s = .next (faultEntry .illegalCmd (dispatchDone s)) := by
  have hfetch : fetch (dispatchDone s) = .error .illegalCmd :=
    (fetch_congr (dispatchDone_rom s) (dispatchDone_pc s)).trans (fetch_illegal hw hd)
  rw [step_fetch hr hp hu, fetchAndExec, hfetch]

end Illegal

/-- Settles O4: an opcode's reserved bits decide, and the step at an ILLEGAL word is the fault entry
its fetch asks for. -/
theorem illegalWordsAreExactlyTheReserved : Obligations.IllegalWordsAreExactlyTheReserved :=
  ⟨decode_eq_error_iff, fun _ _ _ hr hp hu hw hd => step_illegal hr hp hu hw hd⟩

end Sys2Proof

namespace Sys2Proof.Machine

/-! ## The assembler (30_encoding.md R83, R84) -/

section Assembler

theorem inBound12_iff {v : Int} : inBound12 v = true ↔ -2048 ≤ v ∧ v ≤ 2047 := by simp [inBound12]

theorem inImm16_iff {v : Int} : inImm16 v = true ↔ -32768 ≤ v ∧ v ≤ 32767 := by simp [inImm16]

theorem inPin8_iff {v : Int} : inPin8 v = true ↔ 0 ≤ v ∧ v ≤ 255 := by simp [inPin8]

theorem inTarget16_iff {v : Int} : inTarget16 v = true ↔ 0 ≤ v ∧ v ≤ 65535 := by simp [inTarget16]

/-! An operand in its field's range is held as it is. -/

theorem toInt_of_inBound12 {v : Int} (h : inBound12 v = true) : (BitVec.ofInt 12 v).toInt = v := by
  obtain ⟨hlo, hhi⟩ := inBound12_iff.mp h
  rw [BitVec.toInt_ofInt, Int.bmod_eq_of_le] <;> omega

theorem toInt_of_inImm16 {v : Int} (h : inImm16 v = true) : (BitVec.ofInt 16 v).toInt = v := by
  obtain ⟨hlo, hhi⟩ := inImm16_iff.mp h
  exact toInt_ofInt16 hlo hhi

theorem toNat_of_inPin8 {v : Int} (h : inPin8 v = true) : ((BitVec.ofInt 8 v).toNat : Int) = v := by
  obtain ⟨hlo, hhi⟩ := inPin8_iff.mp h
  rw [BitVec.toNat_ofInt]
  omega

theorem toNat_of_inTarget16 {v : Int} (h : inTarget16 v = true) :
    ((BitVec.ofInt 16 v).toNat : Int) = v := by
  obtain ⟨hlo, hhi⟩ := inTarget16_iff.mp h
  rw [BitVec.toNat_ofInt]
  omega

theorem inPin8_toNat (p : PinId) : inPin8 p.toNat = true := by
  have hp := p.isLt
  rw [inPin8_iff]
  omega

variable {table : List (List Char × Nat)}

/-- A command with an operand out of range assembles to nothing (R83). -/
theorem assembleCmd_of_not_wellFormed {c : AsmCmd} (h : c.wellFormed = false) :
    assembleCmd table c = none := by
  simp [assembleCmd, h]

/-- A command that assembles has its operands in range (R83). -/
theorem wellFormed_of_assembleCmd {c : AsmCmd} {is : List Instr} (h : assembleCmd table c = some is) :
    c.wellFormed = true := by
  by_contra hc
  rw [assembleCmd_of_not_wellFormed (by simpa using hc)] at h
  cases h

theorem assembleCmd_map {a b x y : Int} {is : List Instr}
    (h : assembleCmd table (.map a b x y) = some is) :
    ∃ a' b' x' y', is = [.map a' b' x' y'] ∧
      a'.toInt = a ∧ b'.toInt = b ∧ x'.toInt = x ∧ y'.toInt = y := by
  have hwf := wellFormed_of_assembleCmd h
  rw [assembleCmd, if_pos hwf] at h
  simp only [AsmCmd.wellFormed, Bool.and_eq_true] at hwf
  obtain ⟨⟨⟨ha, hb⟩, hx⟩, hy⟩ := hwf
  exact ⟨_, _, _, _, (Option.some.inj h).symm, toInt_of_inBound12 ha, toInt_of_inBound12 hb,
    toInt_of_inBound12 hx, toInt_of_inBound12 hy⟩

theorem assembleCmd_emitA {p : Int} {is : List Instr}
    (h : assembleCmd table (.emitA p) = some is) :
    ∃ p', is = [.emitA p'] ∧ (p'.toNat : Int) = p := by
  have hwf := wellFormed_of_assembleCmd h
  rw [assembleCmd, if_pos hwf] at h
  exact ⟨_, (Option.some.inj h).symm, toNat_of_inPin8 hwf⟩

theorem assembleCmd_emitImm {p v : Int} {is : List Instr}
    (h : assembleCmd table (.emitImm p v) = some is) :
    ∃ p' v', is = [.emitImm p' v'] ∧ (p'.toNat : Int) = p ∧ v'.toInt = v := by
  have hwf := wellFormed_of_assembleCmd h
  rw [assembleCmd, if_pos hwf] at h
  obtain ⟨hp, hv⟩ : inPin8 p = true ∧ inImm16 v = true := by
    simpa only [AsmCmd.wellFormed, Bool.and_eq_true] using hwf
  exact ⟨_, _, (Option.some.inj h).symm, toNat_of_inPin8 hp, toInt_of_inImm16 hv⟩

theorem assembleCmd_init {e : Int} {is : List Instr} (h : assembleCmd table (.init e) = some is) :
    ∃ e', is = [.init e'] ∧ (e'.toNat : Int) = e := by
  have hwf := wellFormed_of_assembleCmd h
  rw [assembleCmd, if_pos hwf] at h
  exact ⟨_, (Option.some.inj h).symm, toNat_of_inPin8 hwf⟩

theorem assembleCmd_lds {v : Int} {is : List Instr} (h : assembleCmd table (.lds v) = some is) :
    ∃ v', is = [.lds v'] ∧ v'.toInt = v := by
  have hwf := wellFormed_of_assembleCmd h
  rw [assembleCmd, if_pos hwf] at h
  exact ⟨_, (Option.some.inj h).symm, toInt_of_inImm16 hwf⟩

theorem assembleCmd_jmp_index {n : Int} {is : List Instr}
    (h : assembleCmd table (.jmp (.index n)) = some is) :
    ∃ t, is = [.jmp t] ∧ (t.toNat : Int) = n := by
  have hwf := wellFormed_of_assembleCmd h
  have hn : inTarget16 n = true := hwf
  rw [assembleCmd, if_pos hwf] at h
  simp only [targetValue, if_pos hn, Option.map_some] at h
  exact ⟨_, (Option.some.inj h).symm, toNat_of_inTarget16 hn⟩

/-- CYCLE of a pin is one iteration of the loop (R84). -/
theorem assembleCmd_cycle (p : PinId) :
    assembleCmd table (.cycle p.toNat) = some [.sample, .map 511 1023 0 180, .emitA p] := by
  have hwf : (AsmCmd.cycle p.toNat).wellFormed = true := inPin8_toNat p
  rw [assembleCmd, if_pos hwf, BitVec.ofInt_natCast, BitVec.ofNat_toNat,
    BitVec.setWidth_eq]
  rfl

/-- An assembled command takes as many words as its size says (R84). -/
theorem assembleCmd_length {c : AsmCmd} {is : List Instr} (h : assembleCmd table c = some is) :
    is.length = AsmCmd.size c := by
  have hwf := wellFormed_of_assembleCmd h
  cases c with
  | jmp t =>
    rw [assembleCmd, if_pos hwf] at h
    obtain ⟨n, -, rfl⟩ := Option.map_eq_some_iff.mp h
    rfl
  | _ =>
    rw [assembleCmd, if_pos hwf] at h
    cases h
    rfl

end Assembler

/-- Settles O6: a command assembles only with its operands in range, and there each field holds its
operand. -/
theorem assemblerNeverTruncates : Obligations.AssemblerNeverTruncates := by
  refine fun table c => ⟨assembleCmd_of_not_wellFormed, fun is h => ⟨?_, ?_, ?_, ?_, ?_, ?_⟩⟩
  · rintro a b x y rfl; exact assembleCmd_map h
  · rintro p rfl; exact assembleCmd_emitA h
  · rintro p v rfl; exact assembleCmd_emitImm h
  · rintro e rfl; exact assembleCmd_init h
  · rintro v rfl; exact assembleCmd_lds h
  · rintro n rfl; exact assembleCmd_jmp_index h

/-- Settles O7: the expansion of CYCLE is computed, and every other command has size 1. -/
theorem cycleExpandsToTheLoopBody : Obligations.CycleExpandsToTheLoopBody := by
  refine ⟨fun table p => assembleCmd_cycle p, fun table c is hc h => ?_⟩
  rw [assembleCmd_length h]
  cases c with
  | cycle p => exact absurd rfl (hc p)
  | _ => rfl

end Sys2Proof.Machine

namespace Sys2Proof.Machine

/-! ## SAMPLE and LDS (40_sampler.md R100 to R103)

SAMPLE is the loop of R100. One turn of it, a read and its settle wait, is the same change of the state
in `exec`, which jumps over two waits, and on the clocked machine, which ticks through them. -/

section Sampler

/-- The head of R100's loop: the next read while one of the eleven is left, or the averaged result. -/
def sampleLoop (s : State) : State :=
  if s.k < Config.sampleReads then adcRequest s
  else complete { s with S := sampleAverage s.sum, sValid := sValidAfterLoad }

/-- R100 before its loop: `SUM` and `k` cleared. -/
def sampleStart (s : State) : State := { s with sum := 0, k := 0 }

/-- `s` after the loop's body has run for each of the answers `as`: their sum, their count, their ticks
and their requests (R100, R101). -/
def afterReads (as : List AdcAnswer) (s : State) : State :=
  { s with
    k := s.k + as.length
    sum := s.sum + BitVec.ofNat 14 (answerSum as)
    now := s.now + sampleTicks s.build as
    trace := requestEvents s.build s.now as ++ s.trace }

/-- `s` with another script of converter answers (log 3). -/
def withScript (script : List AdcAnswer) (s : State) : State := { s with adc := script }

/-- At the head of R100's loop: in RUN, with no read and no wait going on. -/
def AtLoopHead (s : State) : Prop :=
  s.runState = .run ∧ s.remaining = 0 ∧ s.adcReq = false ∧ s.adcPending = false

/-! ### The loop and the model's actions -/

theorem beginSample_eq_sampleLoop (s : State) : beginSample s = sampleLoop (sampleStart s) := rfl

theorem sampleSettled_eq_sampleLoop (s : State) :
    sampleSettled s = sampleLoop { s with k := s.k + 1 } := rfl

theorem sampleLoop_read {s : State} (hk : s.k < 11) : sampleLoop s = adcRequest s := if_pos hk

theorem sampleLoop_end {s : State} (hk : ¬s.k < 11) :
    sampleLoop s = complete { s with S := sampleAverage s.sum, sValid := true } := if_neg hk

/-- The loop does not look at the converter's script (log 3). -/
theorem sampleLoop_withScript (script : List AdcAnswer) (s : State) :
    sampleLoop (withScript script s) = withScript script (sampleLoop s) := by
  by_cases hk : s.k < 11
  · rw [sampleLoop_read hk, sampleLoop_read (s := withScript script s) hk]; rfl
  · rw [sampleLoop_end hk, sampleLoop_end (s := withScript script s) hk]; rfl

/-- The loop does not look at the phase, which both its ways out write. -/
theorem sampleLoop_phase (s : State) (ph : Phase) :
    sampleLoop { s with phase := ph } = sampleLoop s := by
  by_cases hk : s.k < 11
  · rw [sampleLoop_read hk, sampleLoop_read (s := { s with phase := ph }) hk]; rfl
  · rw [sampleLoop_end hk, sampleLoop_end (s := { s with phase := ph }) hk]; rfl

/-! ### Sums, ticks and states over the answers -/

@[simp] theorem answerSum_nil : answerSum [] = 0 := rfl

@[simp] theorem answerSum_cons (a : AdcAnswer) (as : List AdcAnswer) :
    answerSum (a :: as) = a.value.toNat + answerSum as := rfl

@[simp] theorem sampleTicks_nil (b : Config.Build) : sampleTicks b [] = 0 := rfl

@[simp] theorem sampleTicks_cons (b : Config.Build) (a : AdcAnswer) (as : List AdcAnswer) :
    sampleTicks b (a :: as) = a.wait + 1 + b.ticks 1000 + sampleTicks b as := rfl

/-- A read is at most 1023 (00_scope.md R8). -/
theorem answerSum_le (as : List AdcAnswer) : answerSum as ≤ 1023 * as.length := by
  induction as with
  | nil => simp
  | cons a as ih =>
    have := a.value.isLt
    simp only [answerSum_cons, List.length_cons]
    omega

/-- Reads of at least `m` add up to at least `m` for each. -/
theorem le_answerSum {m : Nat} {as : List AdcAnswer} (h : ∀ a ∈ as, m ≤ a.value.toNat) :
    m * as.length ≤ answerSum as := by
  induction as with
  | nil => simp
  | cons a as ih =>
    obtain ⟨ha, has⟩ := List.forall_mem_cons.mp h
    have := ih has
    rw [answerSum_cons, List.length_cons, Nat.mul_succ]
    omega

@[simp] theorem afterReads_nil (s : State) : afterReads [] s = s := by
  cases s
  simp [afterReads, requestEvents]

/-- The reads happen one after the other. -/
theorem afterReads_cons (a : AdcAnswer) (as : List AdcAnswer) (s : State) :
    afterReads (a :: as) s = afterReads as (afterReads [a] s) := by
  simp [afterReads, requestEvents, BitVec.ofNat_add, Nat.add_assoc, Nat.add_comm 1,
    BitVec.add_assoc, Config.sampleSettleUs]

/-- A turn done is one turn less to do. -/
theorem afterReads_turns_left {a : AdcAnswer} {s : State} {n : Nat} (h : s.k + (n + 1) ≤ 11) :
    (afterReads [a] s).k + n ≤ 11 := by
  rw [Nat.add_comm n 1, ← Nat.add_assoc] at h
  exact h

/-- What remains of the ticks after a turn. -/
theorem afterReads_end (a : AdcAnswer) (as : List AdcAnswer) (s : State) :
    (afterReads [a] s).now + sampleTicks (afterReads [a] s).build as =
      s.now + sampleTicks s.build (a :: as) := by
  simp [afterReads, Nat.add_assoc]

theorem AtLoopHead.afterReads {s : State} (h : AtLoopHead s) (as : List AdcAnswer) :
    AtLoopHead (afterReads as s) := h

/-! ### One turn of the loop in `exec` -/

/-- The settle wait after a read answered by `a`, issued from the loop's head `s` (R100). -/
def settling (a : AdcAnswer) (s : State) : State :=
  adcAnswered a.value (elapse (a.wait + 1) (adcRequest s))

/-- The settle wait ends with the ticks of the read (R101). -/
theorem settling_end (a : AdcAnswer) (s : State) :
    (settling a s).now + (settling a s).remaining = s.now + sampleTicks s.build [a] :=
  Nat.add_assoc ..

/-- The end of the settle wait is the next head of the loop. -/
theorem waitEnded_settling (op : PinId) {s : State} (a : AdcAnswer) (hs : AtLoopHead s) :
    waitEnded op { elapse (settling a s).remaining (settling a s) with remaining := 0 } =
      sampleLoop (afterReads [a] s) := by
  obtain ⟨-, hw, hq, hpend⟩ := hs
  rw [waitEnded_sampleSettle (by rfl), sampleSettled_eq_sampleLoop,
    ← sampleLoop_phase (afterReads [a] s) .sampleSettle]
  refine congrArg sampleLoop ?_
  simp [settling, afterReads, requestEvents, adcAnswered, elapse, adcRequest, hw, hq, hpend,
    Config.sampleSettleUs, Nat.add_assoc, BitVec.ofNat_toNat]

/-- In `exec` a read takes the script's next answer, unless a reset comes by then (R203). -/
theorem advance_read_of_script {op : PinId} {s : State} (hr : s.runState = .run) (a : AdcAnswer)
    (rest : List AdcAnswer) :
    advance op (adcRequest (withScript (a :: rest) s)) =
      some (if s.resetBy (s.now + (a.wait + 1)) then takeReset (adcRequest (withScript (a :: rest) s))
        else settling a (withScript rest s)) := by
  rw [advance_read op (s := adcRequest (withScript (a :: rest) s)) hr rfl rfl, runTo, adcRequest_now,
    show (withScript (a :: rest) s).now = s.now from rfl, Nat.add_sub_cancel_left]
  rfl

/-- In `exec` its settle wait leads to the next head of the loop, unless a reset comes by then
(R203). -/
theorem advance_settling {op : PinId} {s : State} (hs : AtLoopHead s) (a : AdcAnswer) :
    advance op (settling a s) =
      some (if s.resetBy (s.now + sampleTicks s.build [a]) then takeReset (settling a s)
        else sampleLoop (afterReads [a] s)) := by
  have hr : s.runState = .run := hs.1
  rw [advance_wait op (s := settling a s) hr (by simp [settling]) (by simp [settling]), runTo,
    Nat.add_sub_cancel_left, waitEnded_settling op a hs, settling_end,
    resetBy_congr (s := s) (t := settling a s) rfl]

/-- A turn with no reset on it (R100, R101). -/
theorem runOn_turn {op : PinId} {s : State} (hs : AtLoopHead s) (hk : s.k < 11) (a : AdcAnswer)
    (rest : List AdcAnswer) (hu : s.undisturbedTo (s.now + sampleTicks s.build [a])) :
    runOn op 2 (sampleLoop (withScript (a :: rest) s)) =
      sampleLoop (withScript rest (afterReads [a] s)) := by
  have hr : s.runState = .run := hs.1
  have hread : s.resetBy (s.now + (a.wait + 1)) = false := resetBy_mono (by simp) hu
  have hsettle : ¬s.resetBy (s.now + sampleTicks s.build [a]) = true := ne_true_of_eq_false hu
  have hanswer := advance_read_of_script (op := op) hr a rest
  have hended := advance_settling (op := op) (s := withScript rest s) hs a
  rw [hread, if_neg Bool.false_ne_true] at hanswer
  rw [if_neg (by exact hsettle)] at hended
  rw [sampleLoop_read (s := withScript (a :: rest) s) hk, runOn_succ hanswer, runOn_succ hended]
  rfl

/-- A reset that comes leaves its values (R231). -/
theorem takeReset_wasReset {s t : State} {n : Nat} (h : s.resetBy n = true)
    (ht : t.resets = s.resets) : WasReset (takeReset t) := by
  refine takeReset_holdsResetValues fun hn => ?_
  rw [resetBy_of_no_resets (ht ▸ hn)] at h
  cases h

/-- A turn with a reset on it. -/
theorem runOn_turn_reset {op : PinId} {s : State} (hs : AtLoopHead s) (hk : s.k < 11) (a : AdcAnswer)
    (rest : List AdcAnswer) (hu : s.resetBy (s.now + sampleTicks s.build [a]) = true) :
    WasReset (runOn op 2 (sampleLoop (withScript (a :: rest) s))) := by
  have hr : s.runState = .run := hs.1
  have hanswer := advance_read_of_script (op := op) hr a rest
  rw [sampleLoop_read (s := withScript (a :: rest) s) hk, runOn_succ hanswer]
  split
  next hread =>
    have hreset := takeReset_wasReset (t := adcRequest (withScript (a :: rest) s)) hread rfl
    rwa [runOn_of_stuck (advance_of_wasReset hreset)]
  next =>
    have hended := advance_settling (op := op) (s := withScript rest s) hs a
    rw [runOn_succ hended, if_pos (by exact hu), runOn_zero]
    exact takeReset_wasReset hu rfl

/-! ### The eleven turns in `exec` -/

/-- Turns with no reset on them (R101). -/
theorem runOn_turns {op : PinId} (as rest : List AdcAnswer) {s : State} (hs : AtLoopHead s)
    (hk : s.k + as.length ≤ 11) (hu : s.undisturbedTo (s.now + sampleTicks s.build as)) :
    runOn op (2 * as.length) (sampleLoop (withScript (as ++ rest) s)) =
      sampleLoop (withScript rest (afterReads as s)) := by
  induction as generalizing s with
  | nil => simp
  | cons a as ih =>
    rw [List.length_cons] at hk
    have hturn : s.undisturbedTo (s.now + sampleTicks s.build [a]) := resetBy_mono (by simp) hu
    have hlater : (afterReads [a] s).undisturbedTo
        ((afterReads [a] s).now + sampleTicks s.build as) :=
      resetBy_of hu rfl (afterReads_end a as s).le
    rw [List.length_cons, Nat.mul_succ, Nat.add_comm, runOn_add, List.cons_append,
      runOn_turn hs (by omega) a (as ++ rest) hturn,
      ih (hs.afterReads [a]) (afterReads_turns_left hk) hlater, ← afterReads_cons]

/-- Turns with a reset on one of them. -/
theorem runOn_turns_reset {op : PinId} (as rest : List AdcAnswer) {s : State} (hs : AtLoopHead s)
    (hk : s.k + as.length ≤ 11) (hne : as ≠ [])
    (hu : s.resetBy (s.now + sampleTicks s.build as) = true) :
    WasReset (runOn op (2 * as.length) (sampleLoop (withScript (as ++ rest) s))) := by
  induction as generalizing s with
  | nil => exact absurd rfl hne
  | cons a as ih =>
    rw [List.length_cons] at hk
    rw [List.length_cons, Nat.mul_succ, Nat.add_comm, runOn_add, List.cons_append]
    cases hturn : s.resetBy (s.now + sampleTicks s.build [a]) with
    | true =>
      have hreset := runOn_turn_reset (op := op) hs (by omega) a (as ++ rest) hturn
      rwa [runOn_of_stuck (advance_of_wasReset hreset)]
    | false =>
      rw [runOn_turn hs (by omega) a (as ++ rest) hturn]
      refine ih (hs.afterReads [a]) (afterReads_turns_left hk) ?_ ?_
      · rintro rfl
        cases hu.symm.trans hturn
      · rwa [afterReads_end, resetBy_congr (s := s) (t := afterReads [a] s) rfl]

/-- The state in which a SAMPLE begun in `s` and given the answers `as` completes, `rest` left of the
script. -/
def sampleDone (as rest : List AdcAnswer) (s : State) : State :=
  sampleLoop (withScript rest (afterReads as (sampleStart s)))

/-- What it is (R101), with the counters as the loop leaves them (log 8). -/
theorem sampleDone_eq {as : List AdcAnswer} (hlen : as.length = 11) (rest : List AdcAnswer) {s : State}
    (hs : s.readyAt) :
    sampleDone as rest s =
      { s with
        S := BitVec.ofNat 16 (answerSum as / 10)
        sValid := true
        pc := s.pc + 1
        k := 11
        sum := BitVec.ofNat 14 (answerSum as)
        adc := rest
        now := s.now + sampleTicks s.build as
        trace := requestEvents s.build s.now as ++ s.trace } := by
  obtain ⟨-, hp, hw, hd, -⟩ := hs
  have hle := answerSum_le as
  have hS : sampleAverage (BitVec.ofNat 14 (answerSum as)) = BitVec.ofNat 16 (answerSum as / 10) := by
    rw [sampleAverage, BitVec.toNat_ofNat, Nat.mod_eq_of_lt (by omega)]
    rfl
  rw [sampleDone, sampleLoop_end (by simp [withScript, afterReads, hlen])]
  simp [complete, withScript, afterReads, sampleStart, hlen, hS, hp, hw, hd]

/-- S and S_VALID after a SAMPLE (R102). -/
theorem sampleDone_registers {as : List AdcAnswer} (hlen : as.length = 11) (rest : List AdcAnswer)
    {s : State} (hs : s.readyAt) :
    (sampleDone as rest s).S.toInt = (answerSum as / 10 : Nat) ∧
      (sampleDone as rest s).sValid = true := by
  have hle := answerSum_le as
  rw [sampleDone_eq hlen rest hs]
  refine ⟨?_, rfl⟩
  rw [← BitVec.ofInt_natCast]
  exact toInt_ofInt16 (by omega) (by omega)

/-- A SAMPLE's first action stands at the loop's head. -/
theorem State.readyAt.atLoopHead {s : State} (hs : s.readyAt) : AtLoopHead (sampleStart s) := by
  obtain ⟨hr, -, hw, -, hq, hpend⟩ := hs
  exact ⟨hr, hw, hq, hpend⟩

/-- SAMPLE is its eleven turns, two waits each; `finish` has more waits to spare. -/
theorem exec_sample_eq_turns {s : State} {as rest : List AdcAnswer} (ha : s.adc = as ++ rest)
    (hlen : as.length = 11) :
    exec .sample s =
      .next (runOn 0 (maxWaits - 22)
        (runOn 0 (2 * as.length) (sampleLoop (withScript (as ++ rest) (sampleStart s))))) := by
  have hscript : withScript (as ++ rest) (sampleStart s) = sampleStart s := by
    rw [← ha]; rfl
  rw [← runOn_add, hlen, hscript, ← beginSample_eq_sampleLoop]
  rfl

/-- SAMPLE with its eleven answers and no reset by its end (R101). -/
theorem exec_sample {s : State} {as rest : List AdcAnswer} (hs : s.readyAt)
    (ha : s.adc = as ++ rest) (hlen : as.length = 11)
    (hu : s.undisturbedTo (s.now + sampleTicks s.build as)) :
    exec .sample s = .next (sampleDone as rest s) := by
  have hdone : (sampleDone as rest s).phase = .fetch := by
    rw [sampleDone, sampleLoop_end (by simp [withScript, afterReads, hlen])]
    rfl
  rw [exec_sample_eq_turns ha hlen,
    runOn_turns as rest hs.atLoopHead (by simp [sampleStart, hlen]) hu]
  exact congrArg _ (runOn_of_stuck (advance_fetch 0 hdone) _)

/-- SAMPLE with a reset by then. -/
theorem exec_sample_reset {s : State} {as rest : List AdcAnswer} (hs : s.readyAt)
    (ha : s.adc = as ++ rest) (hlen : as.length = 11)
    (hu : s.resetBy (s.now + sampleTicks s.build as) = true) :
    ∃ t, exec .sample s = .next t ∧ WasReset t := by
  have hne : as ≠ [] := by rintro rfl; cases hlen
  have hreset := runOn_turns_reset (op := 0) as rest hs.atLoopHead (by simp [sampleStart, hlen]) hne hu
  refine ⟨_, exec_sample_eq_turns ha hlen, ?_⟩
  rwa [runOn_of_stuck (advance_of_wasReset hreset)]

/-! ### The turns on the clocked machine (20_memory.md R55, R57) -/

theorem samplePorts_cons (b : Config.Build) (a : AdcAnswer) (as : List AdcAnswer) :
    samplePorts b (a :: as) = samplePorts b [a] ++ samplePorts b as := by
  simp [samplePorts]

/-- One turn: the ticks without an answer, the tick with it, and the settle wait. -/
theorem ticks_turn {s : State} (hs : AtLoopHead s) (hk : s.k < 11) (hb : s.build.wellFormed = true)
    (a : AdcAnswer) :
    ticks (samplePorts s.build [a]) (sampleLoop s) = sampleLoop (afterReads [a] s) := by
  have hr : s.runState = .run := hs.1
  have hports : samplePorts s.build [a] =
      List.replicate a.wait ⟨true, false, 0⟩ ++ ⟨true, true, a.value⟩ ::
        List.replicate (s.build.ticks 1000) ⟨true, false, 0⟩ := by
    simp [samplePorts, Config.sampleSettleUs]
  have hunanswered : ticks (List.replicate a.wait ⟨true, false, 0⟩) (adcRequest s) =
      elapse a.wait (adcRequest s) := by
    rw [ticks_unanswered (s := adcRequest s) hr rfl rfl (by simp [noResetOn]) (by simp),
      List.length_replicate]
  have hanswered : tick ⟨true, true, a.value⟩ (elapse a.wait (adcRequest s)) = settling a s := by
    rw [tick_of_read (s := elapse a.wait (adcRequest s)) hr rfl rfl rfl, elapse_elapse]
    rfl
  have hwait : 0 < (settling a s).remaining :=
    Nat.pos_of_ne_zero fun h => absurd ((ticks_eq_zero hb _).mp h) (by decide)
  have hsettled : ticks (List.replicate (s.build.ticks 1000) ⟨true, false, 0⟩) (settling a s) =
      sampleLoop (afterReads [a] s) := by
    rw [← waitEnded_settling ((operandInPhase (settling a s)).getD 0) a hs]
    exact ticks_whole_wait (s := settling a s) hr (by simp [settling]) (by simp [settling])
      (by simp [noResetOn]) List.length_replicate hwait
  rw [hports, ticks_append, sampleLoop_read hk, hunanswered, ticks_cons, hanswered, hsettled]

/-- The turns follow one another. -/
theorem ticks_turns (as : List AdcAnswer) {s : State} (hs : AtLoopHead s)
    (hk : s.k + as.length ≤ 11) (hb : s.build.wellFormed = true) :
    ticks (samplePorts s.build as) (sampleLoop s) = sampleLoop (afterReads as s) := by
  induction as generalizing s with
  | nil => rw [afterReads_nil]; rfl
  | cons a as ih =>
    rw [List.length_cons] at hk
    rw [samplePorts_cons, ticks_append, ticks_turn hs (by omega) hb a, afterReads_cons a as]
    exact ih (hs.afterReads [a]) (afterReads_turns_left hk) hb

/-! ### A value above the converter's range -/

/-- The MAP of the loop clamps a value above its input range (41_mapper.md R120). -/
theorem exec_loop_map_of_above {t : State} (hv : t.sValid = true) (h : 1023 < t.S.toInt) :
    ∃ u, exec (.map 511 1023 0 180) t = .next u ∧ u.runState = t.runState ∧ u.A.toInt = 180 := by
  have hbounds : (boundOperand 511).toInt = 511 ∧ (boundOperand 1023).toInt = 1023 ∧
      (boundOperand 0).toInt = 0 ∧ (boundOperand 180).toInt = 180 := by decide
  obtain ⟨ha, hb, hc, hd⟩ := hbounds
  have hnone : mapFault t 511 1023 0 180 = none := by
    simp [mapFault, hv]
  have hvalue : mapValue t.S.toInt 511 1023 0 180 = 180 := by
    rw [mapValue, if_neg (by omega), if_pos h]
  refine ⟨complete (storeMapping (boundOperand 511) (boundOperand 1023) (boundOperand 0)
    (boundOperand 180) t), ?_, rfl, ?_⟩
  · change Host.Outcome.next (beginMap 511 1023 0 180 t) = _
    unfold beginMap
    simp only [ha, hb, hc, hd, hnone]
  · change (BitVec.ofInt 16 (mapValue t.S.toInt (boundOperand 511).toInt (boundOperand 1023).toInt
      (boundOperand 0).toInt (boundOperand 180).toInt)).toInt = 180
    rw [ha, hb, hc, hd, hvalue]
    rfl

end Sampler

/-- Settles O21: the word is the encoder's, and LDS completes on its first action. -/
theorem ldsLoadsTheImmediate : Obligations.LdsLoadsTheImmediate := by
  refine ⟨fun w imm => ?_, fun s imm hs => ?_⟩
  · rw [decode_eq_ok_iff, eq_comm]
    rfl
  · obtain ⟨-, hp, hw, hd, -⟩ := hs
    change Host.Outcome.next (beginLds imm s) = _
    rw [beginLds, complete_of_ready (by exact hp) (by exact hw) (by exact hd), immOperand,
      BitVec.ofInt_toInt]
    rfl

/-- Settles O32: the eleven turns of R100's loop, each a read and its settle wait, then the result. -/
theorem sampleAveragesElevenReads : Obligations.SampleAveragesElevenReads := by
  refine ⟨fun w => ?_, fun s as rest hs ha hlen hu => ?_⟩
  · rw [decode_eq_ok_iff, eq_comm]
    rfl
  · exact ⟨11, BitVec.ofNat 14 (answerSum as),
      (exec_sample hs ha hlen hu).trans (congrArg _ (sampleDone_eq hlen rest hs))⟩

/-- Settles O33: a SAMPLE that a reset does not end has the average of O32, and eleven reads are at
most 11253. -/
theorem sampleRange : Obligations.SampleRange := by
  intro s t as rest hs ha hlen ht hr
  cases hu : s.resetBy (s.now + sampleTicks s.build as) with
  | true =>
    obtain ⟨t', ht', hreset, -⟩ := exec_sample_reset hs ha hlen hu
    cases ht.symm.trans ht'
    cases hr.symm.trans hreset
  | false =>
    have hle := answerSum_le as
    obtain rfl : t = sampleDone as rest s :=
      Host.Outcome.next.inj (ht.symm.trans (exec_sample hs ha hlen hu))
    obtain ⟨hS, hv⟩ := sampleDone_registers hlen rest hs
    rw [hS]
    refine ⟨by omega, by omega, rfl, by omega, fun h931 => ?_, fun h => ?_⟩
    · have := le_answerSum h931
      omega
    · obtain ⟨u, hu, hur, hA⟩ := exec_loop_map_of_above hv (hS ▸ h)
      exact ⟨u, hu, hur.trans hr, hA⟩

/-- Settles O55: turn by turn the ticks of the ports and the jumps of `exec` reach the same loop head,
and the loop does not look at the script. -/
theorem clockedSampleRefinesExec : Obligations.ClockedSampleRefinesExec := by
  intro s as rest hs hb hn _ ha hlen
  have hticks : ticks (samplePorts s.build as) (firstAction .sample s) =
      sampleLoop (afterReads as (sampleStart s)) :=
    ticks_turns as hs.atLoopHead (by simp [sampleStart, hlen]) hb
  rw [exec_sample hs ha hlen (resetBy_of_no_resets hn _), hticks, sampleDone, sampleLoop_withScript]
  rfl

end Sys2Proof.Machine

namespace Sys2Proof.Machine

/-! ## MAP (41_mapper.md R120 to R128)

A MAP ends in one of two ways, the fault its checks name or the writes of `afterMap`; every statement
about its result is then one about the number `mapValue`. -/

section Mapper

variable {s s₁ s₂ t : State} {inMin inMax outMin outMax : Bound12} {v w a b c d : Int}

/-- What a MAP whose checks pass leaves (R120, R121). -/
def afterMap (inMin inMax outMin outMax : Bound12) (s : State) : State :=
  complete (storeMapping (boundOperand inMin) (boundOperand inMax) (boundOperand outMin)
    (boundOperand outMax) s)

/-! ### The checks -/

/-- The divisor is 0 in one case only (R126): past the other checks it is `v = in_min = in_max`. -/
theorem mapFault_eq (s : State) (a b c d : Int) :
    mapFault s a b c d =
      if s.sValid = false then some .sampleUnset
      else if b < a ∨ d < c then some .mapBounds
      else if s.S.toInt = a ∧ a = b then some .mapDiv0
      else none := by
  refine ite_congr rfl (fun _ => rfl) fun _ => ite_congr rfl (fun _ => rfl) fun hordered => ?_
  exact if_congr (by omega) rfl rfl

theorem mapFault_eq_mapDiv0_iff (hv : s.sValid = true) (hout : c ≤ d) :
    mapFault s a b c d = some .mapDiv0 ↔ s.S.toInt = a ∧ a = b := by
  rw [mapFault_eq]
  split_ifs with hunset hbounds hdiv
  · simp [hv] at hunset
  · simp only [Option.some.injEq, reduceCtorEq, false_iff]
    omega
  · simp [hdiv]
  · simp [hdiv]

/-! ### The two ends of a MAP -/

theorem exec_map_of_fault {code : FaultCode}
    (h : mapFault s inMin.toInt inMax.toInt outMin.toInt outMax.toInt = some code) :
    exec (.map inMin inMax outMin outMax) s = .next (faultEntry code s) := by
  change Host.Outcome.next (beginMap inMin inMax outMin outMax s) = _
  simp only [beginMap, boundOperand_toInt, h]

theorem exec_map_of_no_fault
    (h : mapFault s inMin.toInt inMax.toInt outMin.toInt outMax.toInt = none) :
    exec (.map inMin inMax outMin outMax) s = .next (afterMap inMin inMax outMin outMax s) := by
  change Host.Outcome.next (beginMap inMin inMax outMin outMax s) = _
  simp only [beginMap, boundOperand_toInt, h, afterMap]

/-- A MAP that ends in RUN has passed its checks. -/
theorem exec_map_run (h : exec (.map inMin inMax outMin outMax) s = .next t)
    (hr : t.runState = .run) :
    mapFault s inMin.toInt inMax.toInt outMin.toInt outMax.toInt = none ∧
      t = afterMap inMin inMax outMin outMax s := by
  cases hf : mapFault s inMin.toInt inMax.toInt outMin.toInt outMax.toInt with
  | some code =>
    obtain rfl := Host.Outcome.next.inj ((exec_map_of_fault hf).symm.trans h)
    simp at hr
  | none => exact ⟨rfl, Host.Outcome.next.inj (h.symm.trans (exec_map_of_no_fault hf))⟩

/-- From RUN a MAP ends in FAULTED with a code exactly when its checks name that code. -/
theorem exec_map_faults_iff (hs : s.runState = .run) (code : FaultCode) :
    (∃ t, exec (.map inMin inMax outMin outMax) s = .next t ∧ t.runState = .faulted ∧
        t.faultCode = code) ↔
      mapFault s inMin.toInt inMax.toInt outMin.toInt outMax.toInt = some code := by
  constructor
  · rintro ⟨t, ht, hfaulted, rfl⟩
    cases hf : mapFault s inMin.toInt inMax.toInt outMin.toInt outMax.toInt with
    | some code => rw [← Host.Outcome.next.inj ((exec_map_of_fault hf).symm.trans ht)]; rfl
    | none =>
      obtain rfl := Host.Outcome.next.inj ((exec_map_of_no_fault hf).symm.trans ht)
      cases hs.symm.trans hfaulted
  · exact fun hf => ⟨_, exec_map_of_fault hf, rfl, rfl⟩

/-! ### What a MAP that passes writes -/

/-- The result is stored as it is: it lies between two 12-bit bounds (R122). -/
theorem afterMap_A_toInt
    (h : mapFault s inMin.toInt inMax.toInt outMin.toInt outMax.toInt = none) :
    (afterMap inMin inMax outMin outMax s).A.toInt =
      mapValue s.S.toInt inMin.toInt inMax.toInt outMin.toInt outMax.toInt := by
  have hvalue := mapValue_bounds h
  have hlow := boundOperand_range outMin
  have hhigh := boundOperand_range outMax
  simp only [boundOperand_toInt] at hlow hhigh
  simp only [afterMap, complete_A, storeMapping_A, boundOperand_toInt]
  exact toInt_ofInt16 (by omega) (by omega)

/-- On the tick of a first action nothing but A, the bounds and the pc changes. -/
theorem afterMap_of_ready (hs : s.readyAt) :
    afterMap inMin inMax outMin outMax s =
      { s with
        A := (afterMap inMin inMax outMin outMax s).A
        bndInMin := inMin.signExtend 16
        bndInMax := inMax.signExtend 16
        bndOutMin := outMin.signExtend 16
        bndOutMax := outMax.signExtend 16
        bndValid := true
        pc := s.pc + 1 } := by
  obtain ⟨-, hphase, hremaining, hdispatched, -⟩ := hs
  exact complete_of_ready (s := storeMapping _ _ _ _ s) hphase hremaining hdispatched

/-- The checks read S and S_VALID alone, and a MAP keeps both. -/
theorem mapFault_afterMap :
    mapFault (afterMap inMin inMax outMin outMax s) a b c d = mapFault s a b c d :=
  mapFault_congr rfl rfl a b c d

theorem afterMap_afterMap :
    afterMap inMin inMax outMin outMax (afterMap inMin inMax outMin outMax s) =
      { afterMap inMin inMax outMin outMax s with
        pc := (afterMap inMin inMax outMin outMax s).pc + 1 } := rfl

/-! ### The result as a number -/

theorem mapValue_inside (h1 : a ≤ v) (h2 : v ≤ b) : mapValue v a b c d = interpolate v a b c d := by
  rw [mapValue, if_neg (by omega), if_neg (by omega)]

theorem interpolate_inMin : interpolate a a b c d = c := by simp [interpolate]

/-- At in_max the larger input span still gives the whole output span (R123): with `x > y ≥ 0`,
`x (y + 1) = y (x + 1) + (x - y)`, and the rest is below `x + 1`. -/
theorem interpolate_inMax (hin : a < b) (hout : c ≤ d) : interpolate b a b c d = d := by
  unfold interpolate
  dsimp only
  split
  · have hquot : (b - a) * (d - c + 1) / (b - a + 1) = d - c := by
      rw [show (b - a) * (d - c + 1) = (b - a - (d - c)) + (d - c) * (b - a + 1) by ring,
        Int.add_mul_ediv_right _ _ (by omega), Int.ediv_eq_zero_of_lt (by omega) (by omega)]
      omega
    rw [Int.tdiv_eq_ediv_of_nonneg (by apply mul_nonneg <;> omega), hquot]
    omega
  · rw [Int.mul_tdiv_cancel_left _ (by omega)]
    omega

/-- Equal spans above 0 shift the value (R125). -/
theorem interpolate_equal_spans (hin : a < b) (hspan : b - a = d - c) :
    interpolate v a b c d = c + (v - a) := by
  rw [interpolate, if_neg (by omega), ← hspan, Int.mul_tdiv_cancel _ (by omega)]

/-- An interpolation does not decrease (R124). -/
theorem interpolate_mono (hv : a ≤ v) (hvw : v ≤ w) (hin : a < b) (hout : c ≤ d) :
    interpolate v a b c d ≤ interpolate w a b c d := by
  have hmul {k : Int} (hk : 0 ≤ k) : 0 ≤ (v - a) * k ∧ (v - a) * k ≤ (w - a) * k :=
    ⟨mul_nonneg (by omega) hk, mul_le_mul_of_nonneg_right (by omega) hk⟩
  unfold interpolate
  dsimp only
  split
  · obtain ⟨hpos, hle⟩ := hmul (show 0 ≤ d - c + 1 by omega)
    exact Int.add_le_add_left (tdiv_mono hpos hle (by omega)) c
  · obtain ⟨hpos, hle⟩ := hmul (show 0 ≤ d - c by omega)
    exact Int.add_le_add_left (tdiv_mono hpos hle (by omega)) c

/-- At or below in_min the result is out_min (R123). -/
theorem mapValue_of_le (hin : a ≤ b) (h : v ≤ a) : mapValue v a b c d = c := by
  obtain hlt | rfl := h.lt_or_eq
  · rw [mapValue, if_pos hlt]
  · rw [mapValue_inside le_rfl hin, interpolate_inMin]

/-- At or above in_max the result of a MAP that does not fault is out_max (R123). -/
theorem mapValue_of_ge (hf : mapFault s a b c d = none) (h : b ≤ s.S.toInt) :
    mapValue s.S.toInt a b c d = d := by
  obtain ⟨-, hin, hout, hdiv⟩ := mapFault_eq_none hf
  obtain hlt | heq := h.lt_or_eq
  · rw [mapValue, if_neg (by omega), if_pos hlt]
  · rw [mapValue_inside (by omega) (by omega), ← heq, interpolate_inMax (by omega) hout]

/-- The clamps and the interpolation meet at the output bounds, so the result never falls (R124). -/
theorem mapValue_mono (hf₁ : mapFault s₁ a b c d = none) (hf₂ : mapFault s₂ a b c d = none)
    (h : s₁.S.toInt ≤ s₂.S.toInt) :
    mapValue s₁.S.toInt a b c d ≤ mapValue s₂.S.toInt a b c d := by
  obtain ⟨-, hin, hout, hdiv₁⟩ := mapFault_eq_none hf₁
  obtain ⟨-, -, -, hdiv₂⟩ := mapFault_eq_none hf₂
  by_cases hlow : s₁.S.toInt ≤ a
  · rw [mapValue_of_le hin hlow]
    exact (mapValue_bounds hf₂).1
  by_cases hhigh : b ≤ s₂.S.toInt
  · rw [mapValue_of_ge hf₂ hhigh]
    exact (mapValue_bounds hf₁).2
  rw [mapValue_inside (by omega) (by omega), mapValue_inside (by omega) (by omega)]
  exact interpolate_mono (by omega) h (by omega) hout

end Mapper

/-- Settles O24: the word is the encoder's; each check faults in its turn, and past them `afterMap`
holds the value of R120's branch. -/
theorem mapClampsAndInterpolates : Obligations.MapClampsAndInterpolates := by
  refine ⟨fun w a b c d => ?_, fun s inMin inMax outMin outMax hs => ?_⟩
  · rw [decode_eq_ok_iff, eq_comm]
    rfl
  have hfault := mapFault_eq s inMin.toInt inMax.toInt outMin.toInt outMax.toInt
  dsimp only
  split_ifs at hfault ⊢
  · exact exec_map_of_fault hfault
  · exact exec_map_of_fault hfault
  · exact exec_map_of_fault hfault
  all_goals
    refine ⟨_, ?_, (exec_map_of_no_fault hfault).trans (congrArg _ (afterMap_of_ready hs))⟩
    rw [afterMap_A_toInt hfault]
    simp only [mapValue, interpolate, *, if_true, if_false]

/-- Settles O25: the stored result is `mapValue`, which the passed checks bound. -/
theorem mapResultLiesInItsBounds : Obligations.MapResultLiesInItsBounds := by
  intro s t inMin inMax outMin outMax h hr
  obtain ⟨hf, rfl⟩ := exec_map_run h hr
  rw [afterMap_A_toInt hf]
  exact mapValue_bounds hf

/-- Settles O26: the clamp and the interpolation agree at in_min and at in_max. -/
theorem mapBoundaryValues : Obligations.MapBoundaryValues := by
  intro s t inMin inMax outMin outMax h hr
  obtain ⟨hf, rfl⟩ := exec_map_run h hr
  obtain ⟨-, hin, -⟩ := mapFault_eq_none hf
  rw [afterMap_A_toInt hf]
  exact ⟨mapValue_of_le hin, mapValue_of_ge hf⟩

/-- Settles O27: both results are `mapValue` of the same bounds, which is monotone. -/
theorem mapIsMonotone : Obligations.MapIsMonotone := by
  intro s₁ s₂ t₁ t₂ inMin inMax outMin outMax h₁ hr₁ h₂ hr₂ hS
  obtain ⟨hf₁, rfl⟩ := exec_map_run h₁ hr₁
  obtain ⟨hf₂, rfl⟩ := exec_map_run h₂ hr₂
  rw [afterMap_A_toInt hf₁, afterMap_A_toInt hf₂]
  exact mapValue_mono hf₁ hf₂ hS

/-- Settles O28: equal spans shift, and between equal output bounds there is one value (R122). -/
theorem mapSpanCases : Obligations.MapSpanCases := by
  intro s t inMin inMax outMin outMax h hr hlow hhigh
  obtain ⟨hf, rfl⟩ := exec_map_run h hr
  obtain ⟨-, hin, -, hdiv⟩ := mapFault_eq_none hf
  rw [afterMap_A_toInt hf]
  refine ⟨fun hspan => ?_, fun heq => ?_⟩
  · rw [mapValue_inside hlow hhigh, interpolate_equal_spans (by omega) hspan]
  · obtain ⟨hge, hle⟩ := mapValue_bounds hf
    subst heq
    exact le_antisymm hle hge

/-- Settles O29: the fault code is the one the checks name, and past the others it is MAP_DIV0 in one
case. -/
theorem mapDivZeroExactly : Obligations.MapDivZeroExactly := by
  intro s inMin inMax outMin outMax hs hv hout
  obtain ⟨hr, -⟩ := hs
  rw [exec_map_faults_iff hr, mapFault_eq_mapDiv0_iff hv hout, BitVec.toInt_inj]

/-- Settles O30: S and S_VALID decide the checks and the value, and a MAP writes neither. -/
theorem mapIsIdempotent : Obligations.MapIsIdempotent := by
  intro s t inMin inMax outMin outMax _ h hr
  obtain ⟨hf, rfl⟩ := exec_map_run h hr
  obtain ⟨hv, -⟩ := mapFault_eq_none hf
  refine ⟨⟨_, exec_map_of_no_fault (mapFault_afterMap.trans hf), afterMap_afterMap⟩,
    fun s' hs' hS hv' => ?_⟩
  obtain ⟨hr', -⟩ := hs'
  have hf' := (mapFault_congr (hv'.trans hv.symm) hS inMin.toInt inMax.toInt outMin.toInt
    outMax.toInt).trans hf
  exact ⟨_, exec_map_of_no_fault hf', hr', by simp [afterMap, hS], rfl, rfl, rfl, rfl⟩

end Sys2Proof.Machine

namespace Sys2Proof.Machine

/-! ## MAP in single precision (41_mapper.md R128)

R128's argument: the significand keeps at least 12 bits after the point of a quotient below 4096,
and a quotient with a divisor of at most 4096 that is not an integer is too far below the next
integer to be rounded up to it. -/

section SinglePrecision

variable {n d m : Nat}

/-- The division rounds down, or up by at most half a unit. -/
theorem roundToEven_bounds (n : Nat) (hd : 0 < d) :
    n / d ≤ roundToEven n d ∧ 2 * (roundToEven n d * d) ≤ 2 * n + d := by
  have hn := Nat.div_add_mod' n d
  have hrest := Nat.mod_lt n hd
  have hsucc := Nat.add_one_mul (n / d) d
  unfold roundToEven
  dsimp only
  split_ifs
  · exact ⟨le_rfl, by omega⟩
  · exact ⟨Nat.le_succ _, by rw [hsucc]; omega⟩
  · exact ⟨le_rfl, by omega⟩
  · exact ⟨Nat.le_succ _, by rw [hsucc]; omega⟩

/-- Half a unit of the scale `2 ^ m` does not reach the next integer when the divisor is below
twice that scale. -/
theorem roundToEven_scaled_div (n : Nat) (hd : 0 < d) (hm : d < 2 * 2 ^ m) :
    roundToEven (n * 2 ^ m) d / 2 ^ m = n / d := by
  obtain ⟨hlow, hhigh⟩ := roundToEven_bounds (n * 2 ^ m) hd
  have hfloor := Nat.div_mul_le_self n d
  have hnext := Nat.lt_mul_div_succ n hd
  refine Nat.div_eq_of_lt_le (le_trans ?_ hlow) (lt_of_not_ge fun hup => ?_)
  · rw [Nat.le_div_iff_mul_le hd]
    nlinarith only [Nat.mul_le_mul_right (2 ^ m) hfloor]
  · have hstep : (n + 1) * 2 ^ m ≤ roundToEven (n * 2 ^ m) d * d :=
      calc (n + 1) * 2 ^ m ≤ d * (n / d + 1) * 2 ^ m := Nat.mul_le_mul_right _ hnext
        _ = (n / d + 1) * 2 ^ m * d := by ring
        _ ≤ roundToEven (n * 2 ^ m) d * d := Nat.mul_le_mul_right d hup
    rw [Nat.add_one_mul] at hstep
    omega

/-- The search for the scale stops at none below one that fits. -/
theorem le_significandScale {k fuel : Nat} (hk : k ≤ fuel) (h : n * 2 ^ (m + k) < d * 2 ^ 24) :
    m + k ≤ significandScale n d fuel m := by
  induction fuel generalizing m k with
  | zero =>
    obtain rfl : k = 0 := by omega
    exact le_rfl
  | succ fuel ih =>
    unfold significandScale
    split
    next hfits =>
      cases k with
      | zero => exact (Nat.le_succ m).trans (ih (Nat.zero_le fuel) hfits)
      | succ k =>
        rw [show m + (k + 1) = m + 1 + k by omega] at h ⊢
        exact ih (by omega) h
    next hstop =>
      cases k with
      | zero => exact le_rfl
      | succ k =>
        have hpow : 2 ^ (m + 1) ≤ 2 ^ (m + (k + 1)) := Nat.pow_le_pow_right (by decide) (by omega)
        exact absurd (lt_of_le_of_lt (Nat.mul_le_mul_left n hpow) h) hstop

/-- A quotient below 4096 of a divisor of at most 4096 survives binary32 (R128). -/
theorem truncatedBinary32_eq_div (hd : 0 < d) (hmax : d ≤ 4096) (hn : n < d * 4096) :
    truncatedBinary32 n d = n / d := by
  have hscale : 0 + 12 ≤ significandScale n d 64 0 := le_significandScale (by decide) (by omega)
  have hpow : 2 ^ 12 ≤ 2 ^ significandScale n d 64 0 := Nat.pow_le_pow_right (by decide) (by omega)
  exact roundToEven_scaled_div n hd (by omega)

variable {v a b c e : Int} {x inSpan outSpan : Nat}

/-- R120's branch of the larger input span, in natural numbers. -/
theorem interpolate_of_outSpan_lt (hx : v - a = x) (hin : b - a = inSpan) (hout : e - c = outSpan)
    (h : outSpan < inSpan) :
    interpolate v a b c e = c + (x * (outSpan + 1) / (inSpan + 1) : Nat) := by
  rw [interpolate, if_pos (by omega), hx, hin, hout, Int.ofNat_tdiv]
  rfl

/-- R120's branch of the unmodified spans, in natural numbers. -/
theorem interpolate_of_inSpan_le (hx : v - a = x) (hin : b - a = inSpan) (hout : e - c = outSpan)
    (h : inSpan ≤ outSpan) : interpolate v a b c e = c + (x * outSpan / inSpan : Nat) := by
  rw [interpolate, if_neg (by omega), hx, hin, hout, Int.ofNat_tdiv]
  rfl

end SinglePrecision

/-- Settles O31: the spans of 12-bit bounds are at most 4095, so each quotient is below 4096 and
binary32 truncates it as R120 does. -/
theorem mapAgreesWithSinglePrecision : Obligations.MapAgreesWithSinglePrecision := by
  intro s t inMin inMax outMin outMax h hr hlow hhigh
  obtain ⟨hf, rfl⟩ := exec_map_run h hr
  obtain ⟨-, hin, hout, hdiv⟩ := mapFault_eq_none hf
  have hinMin := boundOperand_range inMin
  have hinMax := boundOperand_range inMax
  have houtMin := boundOperand_range outMin
  have houtMax := boundOperand_range outMax
  simp only [boundOperand_toInt] at hinMin hinMax houtMin houtMax
  have hx := (Int.toNat_of_nonneg (sub_nonneg.2 hlow)).symm
  have hi := (Int.toNat_of_nonneg (sub_nonneg.2 hin)).symm
  have ho := (Int.toNat_of_nonneg (sub_nonneg.2 hout)).symm
  rw [afterMap_A_toInt hf, mapValue_inside hlow hhigh]
  intro x inSpan outSpan
  have hxle : x ≤ inSpan := by omega
  refine ⟨fun hspan => ?_, fun hspan => ?_⟩
  · have hlt : x * (outSpan + 1) < (inSpan + 1) * 4096 :=
      Nat.mul_lt_mul_of_lt_of_le (by omega) (by omega) (by decide)
    rw [interpolate_of_outSpan_lt hx hi ho hspan,
      truncatedBinary32_eq_div (by omega) (by omega) hlt]
  · have hlt : x * outSpan < inSpan * 4096 :=
      Nat.mul_lt_mul_of_le_of_lt hxle (by omega) (by omega)
    rw [interpolate_of_inSpan_le hx hi ho hspan,
      truncatedBinary32_eq_div (by omega) (by omega) hlt]

end Sys2Proof.Machine

namespace Sys2Proof.Machine

/-! ## EMIT (42_pulse.md R140 to R146)

An EMIT takes the fault its checks name, or drives its frame: a rise, a high time, a fall and a low
time. `exec` jumps over the two waits and the clocked machine ticks through them; with no reset both end
in `afterFrame`. -/

section Pulse

variable {i : Instr} {s t u : State} {pin : PinId} {angle amin amax x y : Int} {ps : List InputPorts}

/-! ### The width as a number (R140, R142) -/

theorem pulseWidth_amin : pulseWidth amin amin amax = 535 := by simp [pulseWidth_eq]

theorem pulseWidth_amax (h : amin < amax) : pulseWidth amax amin amax = 2350 := by
  rw [pulseWidth_eq, Int.mul_tdiv_cancel_left _ (by omega)]
  rfl

theorem pulseWidth_mono (h : amin < amax) (hx : amin ≤ x) (hxy : x ≤ y) :
    pulseWidth x amin amax ≤ pulseWidth y amin amax := by
  rw [pulseWidth_eq, pulseWidth_eq]
  exact Int.add_le_add_left (tdiv_mono (by omega) (by omega) (by omega)) 535

/-- An angle within ordered bounds gives a width between those of the bounds (R142). -/
theorem pulseWidth_range (h : amin < amax) (hlow : amin ≤ x) (hhigh : x ≤ amax) :
    535 ≤ pulseWidth x amin amax ∧ pulseWidth x amin amax ≤ 2350 :=
  ⟨pulseWidth_amin.symm.le.trans (pulseWidth_mono h le_rfl hlow),
    (pulseWidth_mono h hlow hhigh).trans (pulseWidth_amax h).le⟩

/-- With the loop's bounds the width passes over 0: -53 gives 1 and -54 is below 0 (R144). -/
theorem pulseWidth_loop_ne_zero (angle : Int) : pulseWidth angle 0 180 ≠ 0 := by
  have hsign : Int.sign 180 = 1 := rfl
  rw [pulseWidth_eq, Int.sub_zero, Int.sub_zero, Int.tdiv_eq_ediv, hsign]
  split <;> omega

/-- PW_OOR stays as it was on a width in the safe range (10_state.md R28). -/
theorem pwOorAfter_inRange {w : Int} (old : Bool) (hlow : 535 ≤ w) (hhigh : w ≤ 2350) :
    pwOorAfter old w = old := by
  have hsafe : ¬(w < 535 ∨ 2350 < w) := by omega
  simp [pwOorAfter, outsideSafeRange, Config.minPwUs, Config.maxPwUs, hsafe]

/-! ### The checks (60_exceptions.md R203) -/

/-- The width the EMIT of `angle` computes from the stored output bounds (R140). -/
def emitWidth (angle : Int) (s : State) : Int :=
  pulseWidth angle s.bndOutMin.toInt s.bndOutMax.toInt

theorem emitWidth_eq (angle : Int) (s : State) :
    emitWidth angle s =
      535 + Int.tdiv ((angle - s.bndOutMin.toInt) * 1815) (s.bndOutMax.toInt - s.bndOutMin.toInt) :=
  pulseWidth_eq ..

theorem emitFault_eq (s : State) (pin : Nat) (angle : Int) :
    emitFault s pin angle =
      if s.build.numPins ≤ pin then some .badPin
      else if s.bndValid = false then some .boundsUnset
      else if s.bndOutMax = s.bndOutMin then some .emitDiv0
      else if emitWidth angle s < 0 then some .pwNegative
      else if 20000 < emitWidth angle s then some .pwOverrun
      else none := rfl

/-- An EMIT whose checks pass computes a width that fits the frame. -/
theorem emitWidth_of_no_fault {p : Nat} (h : emitFault s p angle = none) :
    0 ≤ emitWidth angle s ∧ emitWidth angle s ≤ 20000 := by
  obtain ⟨-, -, -, hwidth⟩ := emitFault_eq_none h
  exact hwidth

/-- An angle within the bounds leaves BAD_PIN as the only fault (R142). -/
theorem emitFault_inRange (p : Nat) (hv : s.bndValid = true)
    (hord : s.bndOutMin.toInt < s.bndOutMax.toInt) (hlow : s.bndOutMin.toInt ≤ angle)
    (hhigh : angle ≤ s.bndOutMax.toInt) :
    emitFault s p angle = if s.build.numPins ≤ p then some .badPin else none := by
  obtain ⟨hmin, hmax⟩ : 535 ≤ emitWidth angle s ∧ emitWidth angle s ≤ 2350 :=
    pulseWidth_range hord hlow hhigh
  have hne : s.bndOutMax ≠ s.bndOutMin := fun heq => by simp [heq] at hord
  rw [emitFault_eq]
  refine ite_congr rfl (fun _ => rfl) fun _ => ?_
  rw [if_neg (by simp [hv]), if_neg hne, if_neg (by omega), if_neg (by omega)]

/-! ### The two ends of an EMIT -/

theorem exec_emit_of_fault {code : FaultCode} (hi : emitOperands i s = some (pin, angle))
    (h : emitFault s pin.toNat angle = some code) : exec i s = .next (faultEntry code s) := by
  have hbegin : beginEmit pin angle s = faultEntry code s := by
    simp only [beginEmit, pinOperand, h]
  rw [exec_emit hi, hbegin, finish_faultEntry]

theorem beginEmit_eq_emitRise (h : emitFault s pin.toNat angle = none) :
    beginEmit pin angle s = emitRise pin (storeWidth (emitWidth angle s) s) := by
  simp only [beginEmit, pinOperand, h, emitWidth]

/-- What an EMIT can do: the fault of its checks, a reset inside the frame, or the frame, which keeps
the run state and the width it stored. -/
theorem exec_emit_cases (hi : emitOperands i s = some (pin, angle)) (h : exec i s = .next t) :
    (∃ code, emitFault s pin.toNat angle = some code ∧ t = faultEntry code s) ∨
      (emitFault s pin.toNat angle = none ∧
        (WasReset t ∨
          t.runState = s.runState ∧ KeepsWidth (storeWidth (emitWidth angle s) s) t)) := by
  cases hf : emitFault s pin.toNat angle with
  | some code =>
    exact .inl ⟨code, rfl, Host.Outcome.next.inj (h.symm.trans (exec_emit_of_fault hi hf))⟩
  | none =>
    refine .inr ⟨rfl, ?_⟩
    obtain rfl := Host.Outcome.next.inj ((exec_emit hi).symm.trans h)
    rw [beginEmit_eq_emitRise hf]
    obtain ⟨-, -, ⟨hW, hoor⟩, -⟩ := emitRise_keepsRegisters pin (storeWidth (emitWidth angle s) s)
    obtain hreset | ⟨hrun, -, ⟨hW', hoor'⟩, -⟩ := finish_keptByWaits pin
      (emitRise pin (storeWidth (emitWidth angle s) s))
    · exact .inl hreset
    · exact .inr ⟨hrun.trans (emitRise_runState pin _), hW'.trans hW, hoor'.trans hoor⟩

/-- An EMIT that ends in RUN has passed its checks and stored its width. -/
theorem exec_emit_run (hi : emitOperands i s = some (pin, angle)) (h : exec i s = .next t)
    (hr : t.runState = .run) :
    emitFault s pin.toNat angle = none ∧ KeepsWidth (storeWidth (emitWidth angle s) s) t := by
  obtain ⟨code, -, rfl⟩ | ⟨hf, ⟨hreset, -⟩ | ⟨-, hwidth⟩⟩ := exec_emit_cases hi h
  · simp at hr
  · cases hr.symm.trans hreset
  · exact ⟨hf, hwidth⟩

/-- A width that fits the frame is stored as it is. -/
theorem storeWidth_W_toNat {w : Int} (h0 : 0 ≤ w) (h1 : w ≤ 20000) :
    ((storeWidth w s).W.toNat : Int) = w := by
  rw [storeWidth_W, BitVec.toNat_ofInt]
  omega

/-! ### The frame (R141, R144) -/

/-- `s` at the end of the high time that begins in `s`; a width of no ticks drives nothing. -/
def atFall (pin : PinId) (s : State) : State :=
  if s.build.ticks s.W.toNat = 0 then s
  else { pinWrite pin.toNat true s with now := s.now + s.build.ticks s.W.toNat }

/-- `s` at the end of the low time that begins with the fall in `s`: the command is over. -/
def afterLow (pin : PinId) (s : State) : State :=
  complete
    { pinWrite pin.toNat false s with now := s.now + s.build.ticks (20000 - s.W.toNat) }

/-- `s` after the frame that begins in `s`, with the width in W. -/
def afterFrame (pin : PinId) (s : State) : State := afterLow pin (atFall pin s)

/-- The high and the low time add up to the frame. -/
theorem ticks_frame (b : Config.Build) {w : Nat} (hw : w ≤ 20000) :
    b.ticks 20000 = b.ticks w + b.ticks (20000 - w) := by
  rw [← ticks_add, Nat.add_sub_cancel' hw]

theorem emitFall_of_no_low (h : s.build.ticks (20000 - s.W.toNat) = 0) :
    emitFall pin s = afterLow pin s := by
  refine (if_pos h).trans ?_
  rw [afterLow, h]
  rfl

theorem emitFall_of_low (h : s.build.ticks (20000 - s.W.toNat) ≠ 0) :
    emitFall pin s = beginWait .emitLow (20000 - s.W.toNat) (pinWrite pin.toNat false s) :=
  if_neg h

/-- The high time, where there is one: the state whose wait it is. -/
theorem emitRise_of_high (h : s.build.ticks s.W.toNat ≠ 0) :
    emitRise pin s = beginWait .emitHigh s.W.toNat (pinWrite pin.toNat true s) := if_neg h

theorem emitRise_of_no_high (h : s.build.ticks s.W.toNat = 0) :
    emitRise pin s = emitFall pin s := if_pos h

/-- In `exec` the fall leads to the end of the frame. -/
theorem runOn_emitFall (n : Nat) (hr : s.runState = .run) (hq : s.adcReq = false)
    (hu : s.undisturbedTo (s.now + s.build.ticks (20000 - s.W.toNat))) :
    runOn pin (n + 1) (emitFall pin s) = afterLow pin s := by
  by_cases hlow : s.build.ticks (20000 - s.W.toNat) = 0
  · rw [emitFall_of_no_low hlow]
    exact runOn_of_stuck (advance_fetch pin rfl) _
  · rw [emitFall_of_low hlow, runOn_wait (by exact hr) (by simp) (by simp) (by exact hq) (by exact hu),
      waitEnded_emitLow (by rfl)]
    exact runOn_of_stuck (advance_fetch pin rfl) _

/-- In `exec` the rise leads to the end of the frame (R141). -/
theorem runOn_emitRise (n : Nat) (hr : s.runState = .run) (hq : s.adcReq = false)
    (hw : s.W.toNat ≤ 20000) (hu : s.undisturbedTo (s.now + s.build.ticks 20000)) :
    runOn pin (n + 2) (emitRise pin s) = afterFrame pin s := by
  rw [ticks_frame s.build hw] at hu
  by_cases hhigh : s.build.ticks s.W.toNat = 0
  · rw [hhigh, Nat.zero_add] at hu
    rw [emitRise_of_no_high hhigh, runOn_emitFall (n + 1) hr hq hu, afterFrame, atFall, if_pos hhigh]
  · have hfall : s.resetBy (s.now + s.build.ticks s.W.toNat) = false :=
      resetBy_mono (by omega) hu
    rw [← Nat.add_assoc] at hu
    rw [emitRise_of_high hhigh,
      runOn_wait (by exact hr) (by simp) (by simp) (by exact hq) (by exact hfall),
      waitEnded_emitHigh (by rfl), runOn_emitFall n (by exact hr) (by exact hq) (by exact hu),
      afterFrame, atFall, if_neg hhigh]
    rfl

theorem finish_emitRise (hr : s.runState = .run) (hq : s.adcReq = false)
    (hw : s.W.toNat ≤ 20000) (hu : s.undisturbedTo (s.now + s.build.ticks 20000)) :
    finish pin (emitRise pin s) = afterFrame pin s :=
  runOn_emitRise (maxWaits - 2) hr hq hw hu

/-- On the clocked machine the fall leads there too. -/
theorem ticks_emitFall (hr : s.runState = .run) (hq : s.adcReq = false) (hps : noResetOn ps = true)
    (hlen : ps.length = s.build.ticks (20000 - s.W.toNat)) :
    ticks ps (emitFall pin s) = afterLow pin s := by
  by_cases hlow : s.build.ticks (20000 - s.W.toNat) = 0
  · rw [List.length_eq_zero_iff.mp (hlen.trans hlow), ticks_nil, emitFall_of_no_low hlow]
  · rw [emitFall_of_low hlow, ticks_whole_wait (by exact hr) (by simp) (by simp) hps (by exact hlen)
      (Nat.pos_of_ne_zero hlow), elapse_of_no_request (by exact hq), waitEnded_emitLow (by rfl)]
    rfl

/-- A list of port levels as long as two waits is one for each of them. -/
theorem exists_ports_split {m n : Nat} (hps : noResetOn ps = true) (hlen : ps.length = m + n) :
    ∃ qs rs, ps = qs ++ rs ∧ qs.length = m ∧ rs.length = n ∧ noResetOn qs = true ∧
      noResetOn rs = true := by
  have hsplit := (List.take_append_drop m ps).symm
  rw [hsplit, noResetOn_append, Bool.and_eq_true] at hps
  exact ⟨_, _, hsplit, by simp [hlen], by simp [hlen], hps⟩

/-- And so does the rise, the EMIT's own pin falling at the end of the high time. -/
theorem ticks_emitRise (hr : s.runState = .run) (hq : s.adcReq = false) (hw : s.W.toNat ≤ 20000)
    (ho : operandInPhase { s with phase := .emitHigh } = some pin) (hps : noResetOn ps = true)
    (hlen : ps.length = s.build.ticks 20000) :
    ticks ps (emitRise pin s) = afterFrame pin s := by
  rw [ticks_frame s.build hw] at hlen
  by_cases hhigh : s.build.ticks s.W.toNat = 0
  · rw [hhigh, Nat.zero_add] at hlen
    rw [emitRise_of_no_high hhigh, ticks_emitFall hr hq hps hlen, afterFrame, atFall, if_pos hhigh]
  · obtain ⟨qs, rs, rfl, hqlen, hrlen, hqs, hrs⟩ := exists_ports_split hps hlen
    have hop : operandInPhase (beginWait .emitHigh s.W.toNat (pinWrite pin.toNat true s)) = some pin :=
      ho
    rw [ticks_append, emitRise_of_high hhigh,
      ticks_whole_wait (by exact hr) (by simp) (by simp) hqs (by exact hqlen)
        (Nat.pos_of_ne_zero hhigh),
      hop, Option.getD_some, elapse_of_no_request (by exact hq), waitEnded_emitHigh (by rfl),
      ticks_emitFall (by exact hr) (by exact hq) hrs (by exact hrlen), afterFrame, atFall,
      if_neg hhigh]
    rfl

/-- The pin of an EMIT is the operand of its high time. -/
theorem phaseOperand_of_emitOperands (hi : emitOperands i s = some (pin, angle)) :
    phaseOperand .emitHigh i = some pin := by
  cases i <;> simp [emitOperands] at hi <;> obtain ⟨rfl, -⟩ := hi <;> rfl

theorem firstAction_emit (hi : emitOperands i s = some (pin, angle)) :
    firstAction i s = beginEmit pin angle s := by
  cases i <;> simp [emitOperands] at hi <;> obtain ⟨rfl, rfl⟩ := hi <;> rfl

/-- What the frame changes when it begins on the tick of a first action with every pin low. -/
theorem afterFrame_of_low (hb : s.build.wellFormed = true) (hpins : s.pwmOut = 0)
    (hp : s.phase = .fetch) (hrem : s.remaining = 0) (hd : s.dispatched = 0)
    (hw : s.W.toNat ≤ 20000) :
    afterFrame pin s =
      { s with
        pc := s.pc + 1
        now := s.now + s.build.ticks 20000
        trace :=
          (if s.W.toNat = 0 then []
            else frameEvents pin.toNat s.now (s.build.ticks s.W.toNat)) ++ s.trace } := by
  rw [afterFrame, atFall, afterLow, ticks_frame s.build hw]
  by_cases hzero : s.W.toNat = 0
  · have hhigh := (ticks_eq_zero hb _).mpr hzero
    rw [if_pos hhigh, if_pos hzero, hhigh, Nat.zero_add, pinWrite_low hpins,
      complete_of_ready (by exact hp) (by exact hrem) (by exact hd)]
    rfl
  · have hhigh := (ticks_eq_zero hb _).not.mpr hzero
    rw [if_neg hhigh, if_neg hzero, pinWrite_rise hpins, pinWrite_fall pin.isLt (by rfl),
      complete_of_ready (by exact hp) (by exact hrem) (by exact hd)]
    simp [frameEvents, hpins, Nat.add_assoc]

/-! ### The bounds of the last MAP (R145) -/

/-- The mapping of `s` still stands in `t`, or a reset has cleared it. -/
def MappingStands (s t : State) : Prop := t.bndValid = false ∨ KeepsMapping s t

theorem KeepsMapping.trans (h1 : KeepsMapping s t) (h2 : KeepsMapping t u) : KeepsMapping s u := by
  obtain ⟨hA, hv, hinMin, hinMax, houtMin, houtMax⟩ := h2
  simpa only [KeepsMapping, hA, hv, hinMin, hinMax, houtMin, houtMax] using h1

theorem MappingStands.refl (s : State) : MappingStands s s := .inr ⟨rfl, rfl, rfl, rfl, rfl, rfl⟩

theorem MappingStands.trans (h1 : MappingStands s t) (h2 : MappingStands t u) :
    MappingStands s u := by
  obtain hcleared | hkept := h2
  · exact .inl hcleared
  obtain hcleared | hkept' := h1
  · obtain ⟨-, hv, -⟩ := hkept
    exact .inl (hv.trans hcleared)
  · exact .inr (hkept'.trans hkept)

/-- A reset clears BND_VALID (70_reset_and_hazards.md R231). -/
theorem WasReset.mappingStands (h : WasReset t) : MappingStands s t :=
  .inl (congrArg State.bndValid h.2)

theorem takeReset_mappingStands (s : State) : MappingStands s (takeReset s) := by
  obtain ht | hreset := takeReset_eq_or_wasReset s
  · rw [ht]
    exact .refl s
  · exact hreset.mappingStands

theorem finish_mappingStands (op : PinId) (s : State) : MappingStands s (finish op s) := by
  obtain hreset | ⟨-, hmap, -⟩ := finish_keptByWaits op s
  · exact hreset.mappingStands
  · exact .inr hmap

/-- A step that does not stand at a MAP keeps the mapping (10_state.md R24). -/
theorem step_mappingStands (h : step s = .next t)
    (hc : ∀ a b c d, commandAtPc s ≠ some (.map a b c d)) : MappingStands s t := by
  obtain ⟨-, rfl⟩ | ⟨-, rfl⟩ | ⟨-, -, -, rfl⟩ | ⟨-, -, -, hfetch⟩ | ⟨-, -, op, -, rfl⟩ :=
    step_cases h
  · split <;> exact .refl s
  · exact takeReset_mappingStands s
  · exact takeReset_mappingStands s
  · obtain ⟨code, -, rfl⟩ | ⟨i, hi, rfl⟩ := hfetch
    · exact .refl s
    · have hne : ∀ a b c d, i ≠ .map a b c d := by
        rintro a b c d rfl
        exact hc a b c d (commandAtPc_of_fetch hi)
      obtain ⟨-, hmap, -⟩ := firstAction_writesOnlyItsOwn i (dispatchDone s)
      have hfirst : MappingStands s (firstAction i (dispatchDone s)) := .inr (hmap hne)
      exact hfirst.trans (finish_mappingStands _ _)
  · exact finish_mappingStands op s

theorem stepsFrom_mappingStands {n : Nat} (h : stepsFrom n s = some t)
    (hc : ∀ k < n, ∀ m, stepsFrom k s = some m → ∀ a b c d, commandAtPc m ≠ some (.map a b c d)) :
    MappingStands s t := by
  induction n generalizing s with
  | zero =>
    cases h
    exact .refl _
  | succ n ih =>
    obtain ⟨s', hstep, hrest⟩ := stepsFrom_succ_cases h
    have hfirst := step_mappingStands hstep (hc 0 (by omega) s rfl)
    refine hfirst.trans (ih hrest fun k hk m hm => hc (k + 1) (by omega) m ?_)
    rw [stepsFrom_succ hstep, hm]

end Pulse

/-- Settles O36: the checks of `emitFault` are R203's, and the fault they name is taken at once. -/
theorem emitChecksInOrder : Obligations.EmitChecksInOrder := by
  intro s i pin angle _ hi
  have hfault := emitFault_eq s pin.toNat angle
  rw [emitWidth_eq] at hfault
  dsimp only
  split_ifs at hfault ⊢
  case neg => exact hfault
  all_goals exact exec_emit_of_fault hi hfault

/-- Settles O37: the words are the encoder's; past the checks the frame is `afterFrame`. -/
theorem emitDrivesOneFrame : Obligations.EmitDrivesOneFrame := by
  refine ⟨fun w pin => ?_, fun w pin imm => ?_, ⟨by decide, pulseWidth_loop_ne_zero, by decide⟩, ?_⟩
  · rw [decode_eq_ok_iff, eq_comm]
    rfl
  · rw [decode_eq_ok_iff, eq_comm]
    rfl
  · intro s i pin angle w hs hb hpins hi hpin hv hne hw hfits hu
    rw [← emitWidth_eq] at hw
    obtain ⟨hr, hp, hrem, hd, hq, -⟩ := hs
    have hf : emitFault s pin.toNat angle = none := by
      rw [emitFault_eq, if_neg (by omega), if_neg (by simp [hv]), if_neg hne, if_neg (by omega),
        if_neg (by omega)]
    have hW : (BitVec.ofNat 16 w).toNat = w := by
      rw [BitVec.toNat_ofNat, Nat.mod_eq_of_lt (by omega)]
    rw [exec_emit hi, beginEmit_of_no_fault hf hw,
      finish_emitRise (by exact hr) (by exact hq) (by simp only [hW, hfits]) (by exact hu),
      afterFrame_of_low (by exact hb) (by exact hpins) (by exact hp) (by exact hrem) (by exact hd)
        (by simp only [hW, hfits])]
    simp only [hW]

/-- Settles O38: the width is monotone between its two ends, which are the ends of the safe range. -/
theorem emitOfAnInRangeAngleIsSafe : Obligations.EmitOfAnInRangeAngleIsSafe := by
  refine ⟨fun amin amax h => ⟨pulseWidth_amin, pulseWidth_amax h, fun x y hx hxy hy => ?_⟩, ?_,
    fun s hinv => hinv.angle_in_bounds⟩
  · obtain ⟨hmin, -⟩ := pulseWidth_range h hx (hxy.trans hy)
    obtain ⟨-, hmax⟩ := pulseWidth_range h (hx.trans hxy) hy
    exact ⟨hmin, pulseWidth_mono h hx hxy, hmax⟩
  · intro s t i pin angle hs hi hv hord hlow hhigh h
    obtain ⟨hr, -⟩ := hs
    have hf := emitFault_inRange pin.toNat hv hord hlow hhigh
    refine ⟨fun hfaulted => ?_, fun hrun => ?_⟩
    · obtain ⟨code, hcode, rfl⟩ | ⟨-, ⟨hreset, -⟩ | ⟨hkept, -⟩⟩ := exec_emit_cases hi h
      · rw [hf] at hcode
        split_ifs at hcode
        exact (Option.some.inj hcode).symm
      · cases hfaulted.symm.trans hreset
      · cases hfaulted.symm.trans (hkept.trans hr)
    · obtain ⟨-, -, hoor⟩ := exec_emit_run hi h hrun
      obtain ⟨hmin, hmax⟩ := pulseWidth_range hord hlow hhigh
      exact hoor.trans (pwOorAfter_inRange s.pwOor hmin hmax)

/-- Settles O39: the bounds of the MAP stand until the EMIT, or a reset has cleared BND_VALID and the
EMIT faults. -/
theorem emitScalesByTheLastMap : Obligations.EmitScalesByTheLastMap := by
  intro n s t u v inMin inMax outMin outMax i pin angle hmap hrt hc hsteps _ hi hexec hrv
  obtain ⟨-, rfl⟩ := exec_map_run hmap hrt
  obtain ⟨hf, hW, -⟩ := exec_emit_run hi hexec hrv
  obtain ⟨-, hvalid, -⟩ := emitFault_eq_none hf
  obtain ⟨h0, h1⟩ := emitWidth_of_no_fault hf
  obtain hcleared | ⟨-, -, -, -, houtMin, houtMax⟩ := stepsFrom_mappingStands hsteps hc
  · cases hvalid.symm.trans hcleared
  · have hmin : u.bndOutMin = boundOperand outMin := houtMin
    have hmax : u.bndOutMax = boundOperand outMax := houtMax
    rw [hW, storeWidth_W_toNat h0 h1, emitWidth_eq, hmin, hmax, boundOperand_toInt,
      boundOperand_toInt]

/-- Settles O54: the jumps of `exec` and the ticks of the ports both end in `afterFrame`. -/
theorem clockedEmitRefinesExec : Obligations.ClockedEmitRefinesExec := by
  intro s i pin angle ps hs _ hn hc hi hf hps hlen
  obtain ⟨hr, -, -, -, hq, -⟩ := hs
  obtain ⟨h0, h1⟩ := emitWidth_of_no_fault hf
  have hW := storeWidth_W_toNat (s := s) h0 h1
  have ho : operandInPhase { storeWidth (emitWidth angle s) s with phase := .emitHigh } = some pin :=
    (operandInPhase_of_command (by exact hc)).trans (phaseOperand_of_emitOperands hi)
  rw [exec_emit hi, firstAction_emit hi, beginEmit_eq_emitRise hf,
    finish_emitRise (by exact hr) (by exact hq) (by omega)
      (by exact resetBy_of_no_resets hn _),
    ticks_emitRise (by exact hr) (by exact hq) (by omega) ho hps (by exact hlen)]

/-- Settles O40: the output span is 180, and the widths are computed. -/
theorem loopBoundsWidths : Obligations.LoopBoundsWidths := by
  refine ⟨fun angle => ?_, by decide, by decide, by decide, by decide, by decide, by decide⟩
  rw [pulseWidth_eq, Int.sub_zero, Int.sub_zero]

end Sys2Proof.Machine

namespace Sys2Proof.Machine

/-! ## INIT (43_init.md R160 to R162)

An INIT takes BAD_PIN, or waits for the settle delay and then drives 150 frames on each pin of its range.
`exec` jumps over the waits and the clocked machine ticks through them; with no reset both go from the
end of one frame to the end of the next in the same way, and end in `afterInit`. -/

section Initializer

variable {s : State} {e : PinId} {j : Nat} {ps : List InputPorts}

/-! ### The check (R160) -/

theorem beginInit_badPin (h : s.build.numPins ≤ e.toNat) : beginInit e s = faultEntry .badPin s := by
  have hf : initFault s (pinOperand e) = some .badPin := if_pos h
  rw [beginInit, hf]

theorem beginInit_of_pin (h : e.toNat < s.build.numPins) :
    beginInit e s = beginWait .initSettle 2000000 s := by
  have hf : initFault s (pinOperand e) = none := if_neg (Nat.not_le.mpr h)
  rw [beginInit, hf]
  rfl

/-! ### One frame -/

/-- `s` with `cur_pin` and `frame` as they are in frame `j`, counted over the whole range. -/
def withInitCounters (j : Nat) (s : State) : State :=
  { s with curPin := s.build.pinControlMin + BitVec.ofNat 8 (j / 150), frame := j % 150 }

/-- `s` at the end of the high time that begins in `s` on the current pin. -/
def afterInitHigh (s : State) : State :=
  { pinWrite s.curPin.toNat true s with now := s.now + s.build.ticks 1500 }

/-- `s` at the end of the low time that begins in `s` on the current pin. -/
def afterInitLow (s : State) : State :=
  { pinWrite s.curPin.toNat false s with now := s.now + s.build.ticks 18500 }

/-- `s` at the end of the frame that begins in `s` on the current pin. -/
def afterInitFrame (s : State) : State := afterInitLow (afterInitHigh s)

/-- A frame is its high time and its low time (R160). -/
theorem initFrame_ticks (b : Config.Build) : b.ticks 20000 = b.ticks 1500 + b.ticks 18500 :=
  ticks_frame b (by omega)

/-- A frame changes the pins, the trace and the time alone (R161, R162). -/
theorem afterInitFrame_keeps (s : State) :
    ∃ pins tr, afterInitFrame s =
      { s with pwmOut := pins, now := s.now + s.build.ticks 20000, trace := tr } :=
  ⟨_, _, by rw [initFrame_ticks, ← Nat.add_assoc]; rfl⟩

/-- What INIT does when `j` frames have ended: frame `j` begins, or the command is over. -/
def initGoesOn (e : PinId) (j : Nat) (s : State) : State :=
  if j < 150 * initPinCount s.build e then initRise (withInitCounters j s)
  else complete (if j = 0 then s else { s with frame := 150 })

/-- Frame `j` is on a pin of the range, so the pin counter does not wrap (R161). -/
theorem withInitCounters_curPin (hj : j < 150 * initPinCount s.build e) :
    (withInitCounters j s).curPin.toNat = s.build.pinControlMin.toNat + j / 150 := by
  have := e.isLt
  simp only [initPinCount] at hj
  simp only [withInitCounters, BitVec.toNat_add, BitVec.toNat_ofNat]
  omega

/-- A wait that is over leaves no mark on what INIT does next. -/
theorem initGoesOn_of_wait (e : PinId) (j : Nat) (s : State) (ph : Phase) (r : Nat) :
    initGoesOn e j { s with phase := ph, remaining := r } = initGoesOn e j s := by
  unfold initGoesOn
  split_ifs <;> rfl

/-- Nor does it on what the end of a frame does. -/
theorem initFrameEnd_of_wait (e : PinId) (s : State) (ph : Phase) (r : Nat) :
    initFrameEnd e { s with phase := ph, remaining := r } = initFrameEnd e s := by
  unfold initFrameEnd
  split_ifs <;> rfl

/-- The end of the settle delay begins frame 0. -/
theorem initSettled_eq (e : PinId) (s : State) : initSettled e s = initGoesOn e 0 s := by
  have hempty : pinOperand e < pinOperand s.build.pinControlMin ↔
      ¬0 < 150 * initPinCount s.build e := by
    simp only [initPinCount, pinOperand]
    omega
  rw [initSettled, initGoesOn, if_pos rfl]
  by_cases h : 0 < 150 * initPinCount s.build e
  · rw [if_neg (by rwa [hempty, not_not]), if_pos h, withInitCounters, Nat.zero_div, Nat.zero_mod,
      BitVec.add_zero]
  · rw [if_pos (hempty.mpr h), if_neg h]

/-- The end of frame `j` begins the frame after it, on the same pin or on the next one. -/
theorem initFrameEnd_eq (hj : j < 150 * initPinCount s.build e) :
    initFrameEnd e (afterInitFrame (withInitCounters j s)) =
      initGoesOn e (j + 1) (afterInitFrame (withInitCounters j s)) := by
  have hpin := withInitCounters_curPin hj
  simp only [initPinCount] at hj
  obtain ⟨pins, tr, ht⟩ := afterInitFrame_keeps (withInitCounters j s)
  generalize afterInitFrame (withInitCounters j s) = t at ht
  have hb : t.build = s.build := by rw [ht]; rfl
  have hframe : t.frame = j % 150 := by rw [ht]; rfl
  have hcur : t.curPin = s.build.pinControlMin + BitVec.ofNat 8 (j / 150) := by rw [ht]; rfl
  have hcurNat : t.curPin.toNat = s.build.pinControlMin.toNat + j / 150 := by rw [ht]; exact hpin
  simp only [initFrameEnd, initGoesOn, initPinCount, pinOperand, Config.initFrames, hb, hframe,
    hcurNat]
  by_cases hsame : j % 150 + 1 < 150
  · have hdiv : (j + 1) / 150 = j / 150 := by omega
    have hmod : (j + 1) % 150 = j % 150 + 1 := by omega
    rw [if_pos hsame, if_pos (by omega), withInitCounters, hdiv, hmod, hb, ← hcur]
  · rw [if_neg hsame]
    by_cases hnext : s.build.pinControlMin.toNat + j / 150 < e.toNat
    · have hdiv : (j + 1) / 150 = j / 150 + 1 := by omega
      have hmod : (j + 1) % 150 = 0 := by omega
      rw [if_pos hnext, if_pos (by omega), withInitCounters, hdiv, hmod, hb, hcur, BitVec.ofNat_add,
        BitVec.add_assoc]
      rfl
    · have hlast : j % 150 + 1 = 150 := by omega
      rw [if_neg hnext, if_neg (by omega), if_neg (Nat.succ_ne_zero j), hlast]

/-! ### A frame in `exec` and on the clocked machine -/

theorem runOn_initRise (n : Nat) (hr : s.runState = .run) (hq : s.adcReq = false)
    (hu : s.undisturbedTo (s.now + s.build.ticks 1500)) :
    runOn e (n + 1) (initRise s) = runOn e n (initFall (afterInitHigh s)) := by
  rw [runOn_wait (s := initRise s) hr (by simp [initRise]) (by simp [initRise]) hq
    (resetBy_of hu rfl le_rfl), waitEnded_initHigh rfl]
  rfl

theorem runOn_initFall (n : Nat) (hr : s.runState = .run) (hq : s.adcReq = false)
    (hu : s.undisturbedTo (s.now + s.build.ticks 18500)) :
    runOn e (n + 1) (initFall s) = runOn e n (initFrameEnd e (afterInitLow s)) := by
  rw [runOn_wait (s := initFall s) hr (by simp [initFall]) (by simp [initFall]) hq
    (resetBy_of hu rfl le_rfl), waitEnded_initLow rfl, ← initFrameEnd_of_wait e (afterInitLow s)]
  rfl

/-- In `exec` frame `j` leads to its end, two waits later. -/
theorem runOn_initFrame (n : Nat) (hr : s.runState = .run) (hq : s.adcReq = false)
    (hj : j < 150 * initPinCount s.build e) (hu : s.undisturbedTo (s.now + s.build.ticks 20000)) :
    runOn e (n + 2) (initGoesOn e j s) =
      runOn e n (initGoesOn e (j + 1) (afterInitFrame (withInitCounters j s))) := by
  rw [initFrame_ticks, ← Nat.add_assoc] at hu
  have hhigh : s.undisturbedTo (s.now + s.build.ticks 1500) := resetBy_mono (Nat.le_add_right ..) hu
  rw [initGoesOn, if_pos hj, runOn_initRise (s := withInitCounters j s) (n + 1) hr hq hhigh,
    runOn_initFall (s := afterInitHigh (withInitCounters j s)) n hr hq hu, ← initFrameEnd_eq hj,
    afterInitFrame]

/-- A wait of some µs takes a tick at least (00_scope.md R7). -/
theorem ticks_pos {n : Nat} (hb : s.build.wellFormed = true) (hn : n ≠ 0) : 0 < s.build.ticks n :=
  Nat.pos_of_ne_zero ((ticks_eq_zero hb n).not.mpr hn)

theorem ticks_initRise (hb : s.build.wellFormed = true) (hr : s.runState = .run)
    (hq : s.adcReq = false) (hps : noResetOn ps = true) (hlen : ps.length = s.build.ticks 1500) :
    ticks ps (initRise s) = initFall (afterInitHigh s) := by
  rw [ticks_whole_wait (s := initRise s) hr (by simp [initRise]) (by simp [initRise]) hps hlen
      (ticks_pos hb (by decide)),
    elapse_of_no_request (s := initRise s) hq, waitEnded_initHigh rfl]
  rfl

theorem ticks_initFall (hb : s.build.wellFormed = true) (hr : s.runState = .run)
    (hq : s.adcReq = false) (hc : commandAtPc s = some (.init e)) (hps : noResetOn ps = true)
    (hlen : ps.length = s.build.ticks 18500) :
    ticks ps (initFall s) = initFrameEnd e (afterInitLow s) := by
  have ho : operandInPhase (initFall s) = some e := operandInPhase_of_command (s := initFall s) hc
  rw [ticks_whole_wait (s := initFall s) hr (by simp [initFall]) (by simp [initFall]) hps hlen
      (ticks_pos hb (by decide)),
    ho, Option.getD_some, elapse_of_no_request (s := initFall s) hq, waitEnded_initLow rfl,
    ← initFrameEnd_of_wait e (afterInitLow s)]
  rfl

/-- On the clocked machine frame `j` leads to its end, 20000 µs later. -/
theorem ticks_initFrame (hb : s.build.wellFormed = true) (hr : s.runState = .run)
    (hq : s.adcReq = false) (hc : commandAtPc s = some (.init e))
    (hj : j < 150 * initPinCount s.build e) (hps : noResetOn ps = true)
    (hlen : ps.length = s.build.ticks 20000) :
    ticks ps (initGoesOn e j s) =
      initGoesOn e (j + 1) (afterInitFrame (withInitCounters j s)) := by
  rw [initFrame_ticks] at hlen
  obtain ⟨qs, rs, rfl, hqlen, hrlen, hqs, hrs⟩ := exists_ports_split hps hlen
  rw [initGoesOn, if_pos hj, ticks_append,
    ticks_initRise (s := withInitCounters j s) hb hr hq hqs hqlen,
    ticks_initFall (s := afterInitHigh (withInitCounters j s)) hb hr hq hc hrs hrlen,
    ← initFrameEnd_eq hj, afterInitFrame]

/-! ### All the frames -/

/-- `s` after `j` frames, the first of which begins in `s`. -/
def afterInitFrames : Nat → State → State
  | 0, s => s
  | j + 1, s => afterInitFrame (withInitCounters j (afterInitFrames j s))

theorem afterInitFrames_keeps (j : Nat) (s : State) :
    ∃ curPin frame pins tr, afterInitFrames j s =
      { s with
        curPin := curPin
        frame := frame
        pwmOut := pins
        now := s.now + s.build.ticks (20000 * j)
        trace := tr } := by
  induction j with
  | zero => exact ⟨_, _, _, _, by simp [afterInitFrames, Config.Build.ticks]; rfl⟩
  | succ j ih =>
    obtain ⟨curPin, frame, pins, tr, ih⟩ := ih
    obtain ⟨pins', tr', hframe⟩ := afterInitFrame_keeps (withInitCounters j (afterInitFrames j s))
    refine ⟨s.build.pinControlMin + BitVec.ofNat 8 (j / 150), j % 150, pins', tr', ?_⟩
    rw [afterInitFrames, hframe, ih, Nat.mul_succ, ticks_add, ← Nat.add_assoc]
    rfl

/-- In `exec` the first frame leads to the end of the `j`-th. -/
theorem runOn_initFrames (n : Nat) (hr : s.runState = .run) (hq : s.adcReq = false)
    (hj : j ≤ 150 * initPinCount s.build e)
    (hu : s.undisturbedTo (s.now + s.build.ticks (20000 * j))) :
    runOn e (2 * j + n) (initGoesOn e 0 s) = runOn e n (initGoesOn e j (afterInitFrames j s)) := by
  induction j generalizing n with
  | zero => rw [afterInitFrames, Nat.mul_zero, Nat.zero_add]
  | succ j ih =>
    obtain ⟨curPin, frame, pins, tr, hkeep⟩ := afterInitFrames_keeps j s
    rw [Nat.mul_succ, ticks_add, ← Nat.add_assoc] at hu
    have hfuel : 2 * (j + 1) + n = 2 * j + (n + 2) := by omega
    rw [hfuel, ih (n + 2) (by omega) (resetBy_mono (Nat.le_add_right ..) hu), afterInitFrames, hkeep]
    exact runOn_initFrame n hr hq hj hu

/-- On the clocked machine the `j`-th frame ends 20000 µs × j later (R161). -/
theorem ticks_initFrames (hb : s.build.wellFormed = true) (hr : s.runState = .run)
    (hq : s.adcReq = false) (hc : commandAtPc s = some (.init e))
    (hj : j ≤ 150 * initPinCount s.build e) (hps : noResetOn ps = true)
    (hlen : ps.length = s.build.ticks (20000 * j)) :
    ticks ps (initGoesOn e 0 s) = initGoesOn e j (afterInitFrames j s) := by
  induction j generalizing ps with
  | zero =>
    rw [List.length_eq_zero_iff.mp (hlen.trans (Nat.zero_mul _)), ticks_nil, afterInitFrames]
  | succ j ih =>
    obtain ⟨curPin, frame, pins, tr, hkeep⟩ := afterInitFrames_keeps j s
    rw [Nat.mul_succ, ticks_add] at hlen
    obtain ⟨qs, rs, rfl, hqlen, hrlen, hqs, hrs⟩ := exists_ports_split hps hlen
    rw [ticks_append, ih (by omega) hqs hqlen, afterInitFrames, hkeep]
    exact ticks_initFrame hb hr hq hc hj hrs hrlen

/-! ### The whole command -/

/-- `s` at the end of the settle delay that begins in `s`. -/
def afterInitSettle (s : State) : State := { s with now := s.now + s.build.ticks 2000000 }

/-- `s` after the INIT to `e` whose settle delay begins in `s`. -/
def afterInit (e : PinId) (s : State) : State :=
  initGoesOn e (150 * initPinCount s.build e)
    (afterInitFrames (150 * initPinCount s.build e) (afterInitSettle s))

/-- An INIT lasts 2 s, and 150 frames of 20000 µs for each pin (R161). -/
theorem init_ticks (b : Config.Build) (n : Nat) :
    b.ticks (2000000 + 3000000 * n) = b.ticks 2000000 + b.ticks (20000 * (150 * n)) := by
  rw [← ticks_add, ← Nat.mul_assoc]

/-- After the last frame the command is over. -/
theorem afterInit_eq_complete (e : PinId) (s : State) :
    ∃ frame, afterInit e s =
      complete { afterInitFrames (150 * initPinCount s.build e) (afterInitSettle s) with
        frame := frame } := by
  obtain ⟨curPin, frame, pins, tr, hkeep⟩ :=
    afterInitFrames_keeps (150 * initPinCount s.build e) (afterInitSettle s)
  have hover : ¬150 * initPinCount s.build e < 150 * initPinCount
      (afterInitFrames (150 * initPinCount s.build e) (afterInitSettle s)).build e := by
    rw [hkeep]
    exact Nat.lt_irrefl _
  rw [afterInit, initGoesOn, if_neg hover]
  split_ifs
  · exact ⟨_, rfl⟩
  · exact ⟨150, rfl⟩

theorem runOn_initSettle (n : Nat) (hr : s.runState = .run) (hq : s.adcReq = false)
    (hu : s.undisturbedTo (s.now + s.build.ticks 2000000)) :
    runOn e (n + 1) (beginWait .initSettle 2000000 s) =
      runOn e n (initGoesOn e 0 (afterInitSettle s)) := by
  rw [runOn_wait (s := beginWait .initSettle 2000000 s) hr (by simp) (by simp) hq
      (resetBy_of hu rfl le_rfl), waitEnded_initSettle rfl, initSettled_eq,
    ← initGoesOn_of_wait e 0 (afterInitSettle s)]
  rfl

theorem ticks_initSettle (hb : s.build.wellFormed = true) (hr : s.runState = .run)
    (hq : s.adcReq = false) (hc : commandAtPc s = some (.init e)) (hps : noResetOn ps = true)
    (hlen : ps.length = s.build.ticks 2000000) :
    ticks ps (beginWait .initSettle 2000000 s) = initGoesOn e 0 (afterInitSettle s) := by
  have ho : operandInPhase (beginWait .initSettle 2000000 s) = some e :=
    operandInPhase_of_command (s := beginWait .initSettle 2000000 s) hc
  rw [ticks_whole_wait (s := beginWait .initSettle 2000000 s) hr (by simp) (by simp) hps hlen
      (ticks_pos hb (by decide)),
    ho, Option.getD_some, elapse_of_no_request (s := beginWait .initSettle 2000000 s) hq,
    waitEnded_initSettle rfl, initSettled_eq, ← initGoesOn_of_wait e 0 (afterInitSettle s)]
  rfl

/-- The waits of an INIT are within the fuel of `finish`. -/
theorem exists_maxWaits_eq (b : Config.Build) (e : PinId) :
    ∃ n, maxWaits = 2 * (150 * initPinCount b e) + n + 1 := by
  have := e.isLt
  refine ⟨maxWaits - 1 - 2 * (150 * initPinCount b e), ?_⟩
  simp only [maxWaits, Config.initFrames, Config.maxPins, initPinCount]
  omega

/-- In `exec` an INIT with no reset by its end comes to that end (R161). -/
theorem exec_init (hr : s.runState = .run) (hq : s.adcReq = false) (hpin : e.toNat < s.build.numPins)
    (hu : s.undisturbedTo (s.now + s.build.ticks (2000000 + 3000000 * initPinCount s.build e))) :
    exec (.init e) s = .next (afterInit e s) := by
  rw [init_ticks, ← Nat.add_assoc] at hu
  obtain ⟨n, hn⟩ := exists_maxWaits_eq s.build e
  obtain ⟨frame, hend⟩ := afterInit_eq_complete e s
  have hrun : finish e (beginInit e s) = runOn e n (afterInit e s) := by
    rw [beginInit_of_pin hpin, finish, hn,
      runOn_initSettle _ hr hq (resetBy_mono (Nat.le_add_right ..) hu),
      runOn_initFrames (s := afterInitSettle s) (j := 150 * initPinCount s.build e) n hr hq le_rfl hu,
      afterInit]
  have hstop : advance e (afterInit e s) = none := by
    rw [hend]
    exact advance_fetch e rfl
  exact congrArg _ (hrun.trans (runOn_of_stuck hstop n))

/-- On the clocked machine the ticks of an INIT's whole time come to the same end (R161). -/
theorem ticks_beginInit (hb : s.build.wellFormed = true) (hr : s.runState = .run)
    (hq : s.adcReq = false) (hc : commandAtPc s = some (.init e)) (hpin : e.toNat < s.build.numPins)
    (hps : noResetOn ps = true)
    (hlen : ps.length = s.build.ticks (2000000 + 3000000 * initPinCount s.build e)) :
    ticks ps (beginInit e s) = afterInit e s := by
  rw [init_ticks] at hlen
  obtain ⟨qs, rs, rfl, hqlen, hrlen, hqs, hrs⟩ := exists_ports_split hps hlen
  rw [beginInit_of_pin hpin, ticks_append, ticks_initSettle hb hr hq hc hqs hqlen,
    ticks_initFrames (s := afterInitSettle s) hb hr hq hc le_rfl hrs hrlen]
  rfl

/-! ### The trace (R161) -/

/-- A frame that begins with every pin low leaves them low, and its two edges in the trace. -/
theorem afterInitFrame_of_low (hpins : s.pwmOut = 0) :
    afterInitFrame s =
      { s with
        now := s.now + s.build.ticks 20000
        trace := frameEvents s.curPin.toNat s.now (s.build.ticks 1500) ++ s.trace } := by
  rw [afterInitFrame, afterInitHigh, pinWrite_rise hpins, afterInitLow,
    pinWrite_fall s.curPin.isLt (by rfl), initFrame_ticks]
  simp [frameEvents, hpins, Nat.add_assoc]

/-- The frames that begin with every pin low are those of R161, and leave every pin low. -/
theorem afterInitFrames_of_low (hpins : s.pwmOut = 0) (hj : j ≤ 150 * initPinCount s.build e) :
    ∃ curPin frame, afterInitFrames j s =
      { s with
        curPin := curPin
        frame := frame
        now := s.now + s.build.ticks (20000 * j)
        trace := initEvents s.build s.build.pinControlMin.toNat s.now j ++ s.trace } := by
  induction j with
  | zero => exact ⟨s.curPin, s.frame, by simp [afterInitFrames, initEvents, Config.Build.ticks]⟩
  | succ j ih =>
    obtain ⟨curPin, frame, ih⟩ := ih (by omega)
    have hlow : (withInitCounters j (afterInitFrames j s)).pwmOut = 0 := by
      rw [ih]
      exact hpins
    have hcur : (withInitCounters j (afterInitFrames j s)).curPin.toNat =
        s.build.pinControlMin.toNat + j / 150 := by
      rw [ih]
      exact withInitCounters_curPin hj
    refine ⟨s.build.pinControlMin + BitVec.ofNat 8 (j / 150), j % 150, ?_⟩
    rw [afterInitFrames, afterInitFrame_of_low hlow, hcur, ih, Nat.mul_succ, ticks_add, initEvents,
      List.append_assoc, ← Nat.add_assoc]
    rfl

/-- What an INIT changes when it begins on the tick of a first action with every pin low (R161, R162). -/
theorem afterInit_of_low (hp : s.phase = .fetch) (hrem : s.remaining = 0) (hd : s.dispatched = 0)
    (hpins : s.pwmOut = 0) :
    ∃ curPin frame, afterInit e s =
      { s with
        pc := s.pc + 1
        curPin := curPin
        frame := frame
        now := s.now + s.build.ticks (2000000 + 3000000 * initPinCount s.build e)
        trace :=
          initEvents s.build s.build.pinControlMin.toNat (s.now + s.build.ticks 2000000)
            (150 * initPinCount s.build e) ++ s.trace } := by
  obtain ⟨frame, hend⟩ := afterInit_eq_complete e s
  obtain ⟨curPin, frame', hframes⟩ :=
    afterInitFrames_of_low (s := afterInitSettle s) (j := 150 * initPinCount s.build e) hpins le_rfl
  refine ⟨curPin, frame, ?_⟩
  rw [hend, hframes, complete_of_ready (by exact hp) (by exact hrem) (by exact hd), init_ticks,
    ← Nat.add_assoc]
  rfl

end Initializer

/-- Settles O41: the check of `beginInit` comes first. -/
theorem initChecksItsPinFirst : Obligations.InitChecksItsPinFirst := by
  intro s e h
  have hexec : exec (.init e) s = .next (finish e (beginInit e s)) := rfl
  rw [hexec, beginInit_badPin h, finish_faultEntry]

/-- Settles O42: the words are the encoder's; past the check the command ends in `afterInit`. -/
theorem initDrivesEveryPinOfTheRange : Obligations.InitDrivesEveryPinOfTheRange := by
  refine ⟨fun w e => ?_, fun s e hs hpins hpin hu => ?_⟩
  · rw [decode_eq_ok_iff, eq_comm]
    rfl
  · obtain ⟨hr, hp, hrem, hd, hq, -⟩ := hs
    obtain ⟨curPin, frame, hend⟩ := afterInit_of_low (e := e) hp hrem hd hpins
    exact ⟨curPin, frame, by rw [exec_init hr hq hpin hu, hend]⟩

/-- Settles O56: the jumps of `exec` and the ticks of the ports both end in `afterInit`. -/
theorem clockedInitRefinesExec : Obligations.ClockedInitRefinesExec := by
  intro s e ps hs hb hn hc hpin hps hlen
  obtain ⟨hr, -, -, -, hq, -⟩ := hs
  have hfirst : firstAction (.init e) s = beginInit e s := rfl
  rw [exec_init hr hq hpin (resetBy_of_no_resets hn _), hfirst,
    ticks_beginInit hb hr hq hc hpin hps hlen]

end Sys2Proof.Machine

namespace Sys2Proof.Machine

/-! ## The sequencer (44_sequencer.md R180 to R184)

A command in execution reads the ROM at its own word only, has the fuel of `finish` for all its waits,
and moves the pc when it completes; the clocked machine counts the dispatch before a first action. -/

section Sequencer

/-! ### The waits of a command, counted -/

/-- What an advance makes smaller in every state with `P` runs out: with that much fuel a command runs
on until nothing advances. -/
theorem runOn_stuck_of_measure {op : PinId} {P : State → Prop} {m : State → Nat}
    (hstep : ∀ s s', P s → advance op s = some s' → P s' ∧ m s' < m s) (n : Nat) (s : State)
    (hs : P s) (hn : m s ≤ n) : advance op (runOn op n s) = none := by
  induction n generalizing s with
  | zero =>
    by_contra hne
    obtain ⟨s', ha⟩ := Option.ne_none_iff_exists'.mp hne
    have := (hstep _ _ hs ha).2
    omega
  | succ n ih =>
    cases ha : advance op s with
    | none => rwa [runOn_of_stuck ha]
    | some s' =>
      obtain ⟨hs', hlt⟩ := hstep s s' hs ha
      rw [runOn_succ ha]
      exact ih s' hs' (by omega)

/-- The frames an INIT to `op` has not ended yet, the present one with them (43_init.md R160). -/
def initFramesLeft (op : PinId) (s : State) : Nat :=
  150 * (op.toNat - s.curPin.toNat) + (150 - s.frame)

/-- The command in execution has at most so many waits before it: two for each read of a SAMPLE (R100)
and for each frame of an EMIT (R140) or an INIT, whose settle delay is one more (R160). -/
def waitsLeft (op : PinId) (s : State) : Nat :=
  match s.phase with
  | .fetch => 0
  | .sampleRead => sampleWaitsLeft s
  | .sampleSettle => sampleWaitsLeft s
  | .emitHigh => 2
  | .emitLow => 1
  | .initSettle => 1 + 300 * (op.toNat + 1)
  | .initHigh => 2 * initFramesLeft op s
  | .initLow => 2 * initFramesLeft op s - 1

/-- No command has more waits before it than `finish` has fuel. -/
theorem waitsLeft_le (op : PinId) (s : State) : waitsLeft op s ≤ maxWaits := by
  have hmax : maxWaits = 76801 := by decide
  have hsample := sampleWaitsLeft_le s
  have hop := op.isLt
  unfold waitsLeft initFramesLeft
  split <;> omega

theorem waitsLeft_fetch {op : PinId} {s : State} (h : s.phase = .fetch) : waitsLeft op s = 0 := by
  simp [waitsLeft, h]

/-- Inside a command there is a wait left. -/
theorem waitsLeft_pos {op : PinId} {s : State} (h : PhaseInv op s) (hf : s.phase ≠ .fetch) :
    0 < waitsLeft op s := by
  have hreads : Config.sampleReads = 11 := rfl
  have hframes : Config.initFrames = 150 := rfl
  unfold PhaseInv FrameInRange at h
  unfold waitsLeft sampleWaitsLeft initFramesLeft
  cases hp : s.phase <;> simp only [hp] at h hf ⊢
  case fetch => contradiction
  all_goals omega

/-- A frame begun leaves two waits for each of the frames left (R160). -/
theorem waitsLeft_initRise (op : PinId) (s : State) :
    waitsLeft op (initRise s) = 2 * initFramesLeft op s := rfl

/-- The end of a settle wait is one wait less (R100). -/
theorem sampleSettled_waitsLeft {op : PinId} {s : State} (hp : s.phase = .sampleSettle)
    (hk : s.k < 11) : waitsLeft op (sampleSettled s) < waitsLeft op s := by
  have hleft : waitsLeft op s = 2 * (11 - s.k) - 1 := by simp [waitsLeft, sampleWaitsLeft, hp]
  by_cases hlast : s.k + 1 < 11
  · rw [sampleSettled_next hlast, hleft]
    simp only [waitsLeft, sampleWaitsLeft, adcRequest_phase, adcRequest_k]
    omega
  · rw [sampleSettled_last hlast, waitsLeft_fetch rfl]
    omega

/-- The end of EMIT's high time leaves its low time at most (R140). -/
theorem emitFall_waitsLeft (op : PinId) (s : State) : waitsLeft op (emitFall op s) < 2 := by
  unfold emitFall
  dsimp only
  split <;> simp [waitsLeft]

/-- The end of INIT's settle delay leaves the frames of its range (R160). -/
theorem initSettled_waitsLeft (op : PinId) (s : State) :
    waitsLeft op (initSettled op s) < 1 + 300 * (op.toNat + 1) := by
  unfold initSettled
  split
  · rw [waitsLeft_fetch rfl]
    omega
  · rw [waitsLeft_initRise, initFramesLeft]
    omega

/-- The end of an INIT frame leaves the frames after it (R160). -/
theorem initFrameEnd_waitsLeft {op : PinId} {s : State} (hp : s.phase = .initLow)
    (hframe : s.frame < 150) : waitsLeft op (initFrameEnd op s) < waitsLeft op s := by
  have hleft : waitsLeft op s = 2 * initFramesLeft op s - 1 := by simp [waitsLeft, hp]
  rw [hleft]
  unfold initFrameEnd
  split
  next hmore =>
    have hmore : s.frame + 1 < 150 := hmore
    simp only [waitsLeft_initRise, initFramesLeft]
    omega
  next =>
    split
    next hpin =>
      have hpin : s.curPin.toNat < op.toNat := hpin
      have hnext : (s.curPin + 1).toNat = s.curPin.toNat + 1 := by
        have := op.isLt
        rw [BitVec.toNat_add, show (1 : PinId).toNat = 1 from rfl, Nat.mod_eq_of_lt (by omega)]
      simp only [waitsLeft_initRise, initFramesLeft, hnext]
      omega
    next =>
      rw [waitsLeft_fetch rfl, initFramesLeft]
      omega

/-- The end of a wait is one wait less. -/
theorem waitEnded_waitsLeft {op : PinId} {s : State} (h : PhaseInv op s) (hf : s.phase ≠ .fetch)
    (hread : s.phase ≠ .sampleRead) : waitsLeft op (waitEnded op s) < waitsLeft op s := by
  unfold PhaseInv at h
  cases hp : s.phase <;> simp only [hp] at h hf hread
  case fetch => contradiction
  case sampleRead => contradiction
  case sampleSettle =>
    obtain ⟨-, -, -, hk, -⟩ := h
    rw [waitEnded_sampleSettle hp]
    exact sampleSettled_waitsLeft hp hk
  case emitHigh =>
    rw [waitEnded_emitHigh hp, show waitsLeft op s = 2 by simp [waitsLeft, hp]]
    exact emitFall_waitsLeft op s
  case emitLow =>
    rw [waitEnded_emitLow hp, show waitsLeft op s = 1 by simp [waitsLeft, hp], waitsLeft_fetch rfl]
    exact Nat.one_pos
  case initSettle =>
    rw [waitEnded_initSettle hp,
      show waitsLeft op s = 1 + 300 * (op.toNat + 1) by simp [waitsLeft, hp]]
    exact initSettled_waitsLeft op s
  case initHigh =>
    obtain ⟨-, -, -, -, -, -, hframe⟩ := h
    have hframe : s.frame < 150 := hframe
    rw [waitEnded_initHigh hp, show waitsLeft op s = 2 * initFramesLeft op s by simp [waitsLeft, hp],
      show waitsLeft op (initFall s) = 2 * initFramesLeft op s - 1 from rfl, initFramesLeft]
    omega
  case initLow =>
    obtain ⟨-, -, -, -, -, -, hframe⟩ := h
    rw [waitEnded_initLow hp]
    exact initFrameEnd_waitsLeft hp hframe

/-- Every advance is one wait less: a reset ends the command, an answer begins its settle wait. -/
theorem advance_waitsLeft {op : PinId} {s s' : State} (h : InvWith op s)
    (ha : advance op s = some s') : waitsLeft op s' < waitsLeft op s := by
  obtain ⟨hinv, ho⟩ := h
  obtain ⟨-, hf, hcases⟩ := advance_cases ha
  have hp := hinv.phaseInv ho
  have hpos := waitsLeft_pos hp hf
  obtain ⟨hne, rfl⟩ | ⟨hread, a, rest, -, rfl⟩ | ⟨hread, rfl⟩ := hcases
  · have hv := (takeReset_holdsResetValues hne).2
    rwa [waitsLeft_fetch (congrArg State.phase hv)]
  · simp only [waitsLeft, sampleWaitsLeft, hread, adcAnswered_phase, adcAnswered_k, elapse_k] at hpos ⊢
    omega
  · exact waitEnded_waitsLeft (s := { elapse s.remaining s with remaining := 0 })
      (hp.elapse hf s.remaining 0) hf hread

/-- `finish` runs a command until nothing advances (00_scope.md R12). -/
theorem InvWith.finish_stuck {op : PinId} {s : State} (h : InvWith op s) :
    Machine.advance op (Machine.finish op s) = none :=
  runOn_stuck_of_measure (P := InvWith op) (m := waitsLeft op)
    (fun _ _ hs ha => ⟨hs.advance ha, advance_waitsLeft hs ha⟩) maxWaits s h (waitsLeft_le op s)

/-! ### The end of a command -/

/-- The command at `s.pc` is in execution or has completed in `t`, or a reset has come (R182). -/
def OnWayFrom (s t : State) : Prop :=
  WasReset t ∨ t.runState = .run ∧ t.pc = if t.phase = .fetch then s.pc + 1 else s.pc

/-- Inside a command the pc moves at its end only (R182). -/
theorem OnWayFrom.advance {op : PinId} {s t t' : State} (h : OnWayFrom s t)
    (ha : Machine.advance op t = some t') : OnWayFrom s t' := by
  obtain ⟨hr, hf, hcases⟩ := advance_cases ha
  obtain ⟨hreset, -⟩ | ⟨-, hpc⟩ := h
  · cases hr.symm.trans hreset
  rw [if_neg hf] at hpc
  obtain ⟨hne, rfl⟩ | ⟨-, a, rest, -, rfl⟩ | ⟨-, rfl⟩ := hcases
  · exact .inl (takeReset_holdsResetValues hne)
  · exact .inr ⟨hr, by simpa using hpc⟩
  · obtain ⟨⟨hrun, -⟩, -⟩ := waitEnded_keeps op { elapse t.remaining t with remaining := 0 }
    refine .inr ⟨hrun.trans hr, ?_⟩
    rw [waitEnded_pc op _ (by exact hf)]
    simp only [elapse_pc, hpc]

/-- A command that is still in RUN when nothing advances has completed or waits for an answer. -/
theorem InvWith.finish_run {op : PinId} {s : State} (h : InvWith op s)
    (hr : (Machine.finish op s).runState = .run) :
    (Machine.finish op s).phase = .fetch ∨ (Machine.finish op s).WaitsForAnswer :=
  advance_none_cases h.finish_stuck hr

/-- A command in execution that goes on comes to its end, to a reset, or to a read without an answer
(R12 (c)). -/
theorem finish_outcome {op : PinId} {s : State} (h : InvWith op s) (hr : s.runState = .run)
    (hf : s.phase ≠ .fetch) :
    (finish op s).runState = .reset ∨
      ((finish op s).runState = .run ∧ (finish op s).phase = .fetch ∧
        (finish op s).pc = s.pc + 1) ∨
      ((finish op s).WaitsForAnswer ∧ (finish op s).pc = s.pc) := by
  have hway : OnWayFrom s (finish op s) :=
    finish_keeps (P := OnWayFrom s) (fun _ _ ht ha => ht.advance ha) (.inr ⟨hr, by rw [if_neg hf]⟩)
  obtain ⟨hreset, -⟩ | ⟨hrun, hpc⟩ := hway
  · exact .inl hreset
  · obtain hend | hwaits := h.finish_run hrun
    · exact .inr (.inl ⟨hrun, hend, by rw [hpc, if_pos hend]⟩)
    · have hread : (finish op s).phase = .sampleRead := by
        obtain ⟨-, hread, -⟩ := hwaits
        exact hread
      exact .inr (.inr ⟨hwaits, by rw [hpc, if_neg (by simp [hread])]⟩)

/-! ### What does not read the ROM -/

/-- `s` with another ROM. -/
def withRom (rom : List CommandWord) (s : State) : State := { s with rom := rom }

theorem takeReset_withRom (rom : List CommandWord) (s : State) :
    takeReset (withRom rom s) = withRom rom (takeReset s) := by
  unfold takeReset
  rw [show (withRom rom s).resets = s.resets from rfl]
  cases s.resets <;> rfl

theorem sampleSettled_withRom (rom : List CommandWord) (s : State) :
    sampleSettled (withRom rom s) = withRom rom (sampleSettled s) := by
  by_cases hk : s.k + 1 < 11
  · rw [sampleSettled_next hk, sampleSettled_next (s := withRom rom s) hk]; rfl
  · rw [sampleSettled_last hk, sampleSettled_last (s := withRom rom s) hk]; rfl

theorem emitFall_withRom (op : PinId) (rom : List CommandWord) (s : State) :
    emitFall op (withRom rom s) = withRom rom (emitFall op s) := by
  unfold emitFall
  dsimp only
  rw [apply_ite (withRom rom)]
  rfl

theorem initSettled_withRom (op : PinId) (rom : List CommandWord) (s : State) :
    initSettled op (withRom rom s) = withRom rom (initSettled op s) := by
  unfold initSettled
  rw [apply_ite (withRom rom)]
  rfl

theorem initFrameEnd_withRom (op : PinId) (rom : List CommandWord) (s : State) :
    initFrameEnd op (withRom rom s) = withRom rom (initFrameEnd op s) := by
  unfold initFrameEnd
  rw [apply_ite (withRom rom), apply_ite (withRom rom)]
  rfl

/-- The actions inside a command do not read the ROM. -/
theorem waitEnded_withRom (op : PinId) (rom : List CommandWord) (s : State) :
    waitEnded op (withRom rom s) = withRom rom (waitEnded op s) := by
  unfold waitEnded
  rw [show (withRom rom s).phase = s.phase from rfl]
  cases s.phase with
  | fetch => rfl
  | sampleRead => rfl
  | sampleSettle => exact sampleSettled_withRom rom s
  | emitHigh => exact emitFall_withRom op rom s
  | emitLow => rfl
  | initSettle => exact initSettled_withRom op rom s
  | initHigh => rfl
  | initLow => exact initFrameEnd_withRom op rom s

theorem runTo_withRom (rom : List CommandWord) {act : State → State}
    (hact : ∀ s, act (withRom rom s) = withRom rom (act s)) (t : Nat) (s : State) :
    runTo t act (withRom rom s) = withRom rom (runTo t act s) := by
  unfold runTo
  rw [apply_ite (withRom rom), ← takeReset_withRom, ← hact]
  rfl

/-- A read with no answer to come ends with the next reset (60_exceptions.md R212). -/
theorem advance_read_reset {s : State} (op : PinId) (hr : s.runState = .run)
    (hp : s.phase = .sampleRead) (ha : s.adc = []) (hn : s.resets ≠ []) :
    advance op s = some (takeReset s) := by
  simp [advance, hr, hp, ha, hn]

theorem advance_withRom (op : PinId) (rom : List CommandWord) (s : State) :
    advance op (withRom rom s) = (advance op s).map (withRom rom) := by
  by_cases hr : s.runState = .run
  swap
  · rw [advance_not_run op hr, advance_not_run op (s := withRom rom s) hr, Option.map_none]
  by_cases hf : s.phase = .fetch
  · rw [advance_fetch op hf, advance_fetch op (s := withRom rom s) hf, Option.map_none]
  by_cases hread : s.phase = .sampleRead
  · cases ha : s.adc with
    | cons a rest =>
      rw [advance_read op hr hread ha, advance_read op (s := withRom rom s) hr hread ha,
        Option.map_some]
      exact congrArg some
        (runTo_withRom rom (act := fun t => adcAnswered a.value { t with adc := rest })
          (fun _ => rfl) _ s)
    | nil =>
      by_cases hn : s.resets = []
      · rw [advance_unanswered op hread ha hn,
          advance_unanswered op (s := withRom rom s) hread ha hn, Option.map_none]
      · rw [advance_read_reset op hr hread ha hn,
          advance_read_reset op (s := withRom rom s) hr hread ha hn, Option.map_some,
          takeReset_withRom]
  · rw [advance_wait op hr hf hread, advance_wait op (s := withRom rom s) hr hf hread,
      Option.map_some]
    exact congrArg some
      (runTo_withRom rom (act := fun t => waitEnded op { t with remaining := 0 })
        (fun t => waitEnded_withRom op rom { t with remaining := 0 }) _ s)

theorem finish_withRom (op : PinId) (rom : List CommandWord) (s : State) :
    finish op (withRom rom s) = withRom rom (finish op s) := by
  unfold finish
  induction maxWaits generalizing s with
  | zero => rfl
  | succ n ih =>
    have hrom := advance_withRom op rom s
    cases ha : advance op s with
    | none => rw [runOn_of_stuck ha, runOn_of_stuck (by rw [hrom, ha]; rfl)]
    | some s' => rw [runOn_succ ha, runOn_succ (s' := withRom rom s') (by rw [hrom, ha]; rfl), ih]

/-- Of the ROM the command in execution is the one word at pc. -/
theorem commandAtPc_withRom {rom : List CommandWord} {s : State}
    (h : rom[s.pc.toNat]? = s.rom[s.pc.toNat]?) : commandAtPc (withRom rom s) = commandAtPc s := by
  simp only [commandAtPc, withRom, romRead, h]

theorem operandInPhase_withRom {rom : List CommandWord} {s : State}
    (h : rom[s.pc.toNat]? = s.rom[s.pc.toNat]?) :
    operandInPhase (withRom rom s) = operandInPhase s := by
  rw [operandInPhase, commandAtPc_withRom h]
  rfl

/-- A step inside a command reads no word of the ROM but the one at pc. -/
theorem step_resume_withRom {rom : List CommandWord} {s t : State} (hr : s.runState = .run)
    (hf : s.phase ≠ .fetch) (h : rom[s.pc.toNat]? = s.rom[s.pc.toNat]?) (hstep : step s = .next t) :
    step (withRom rom s) = .next (withRom rom t) := by
  cases ho : operandInPhase s with
  | none =>
    rw [step_of_no_operand hr hf ho] at hstep
    cases hstep
  | some op =>
    rw [step_resume hr hf ho] at hstep
    cases hstep
    rw [step_resume (s := withRom rom s) hr hf ((operandInPhase_withRom h).trans ho),
      finish_withRom]

/-- In RESET a step is the release, or nothing (70_reset_and_hazards.md R232). -/
theorem step_of_reset {s : State} (hr : s.runState = .reset) :
    step s = .next (if s.rstN then resetRelease s else s) := by
  unfold step
  rw [hr]

/-- In HALTED and FAULTED a step is the next reset (10_state.md R26). -/
theorem step_of_stopped {s : State} (hr : s.runState = .halted ∨ s.runState = .faulted) :
    step s = .next (takeReset s) := by
  unfold step
  obtain hr | hr := hr <;> rw [hr]

/-- Out of RUN a step does not read the ROM. -/
theorem step_withRom_of_not_run (rom : List CommandWord) {s t : State} (hr : s.runState ≠ .run)
    (hstep : step s = .next t) : step (withRom rom s) = .next (withRom rom t) := by
  have hstopped (hrs : s.runState = .halted ∨ s.runState = .faulted) :
      step (withRom rom s) = .next (withRom rom t) := by
    rw [step_of_stopped hrs] at hstep
    cases hstep
    rw [step_of_stopped (s := withRom rom s) hrs, takeReset_withRom]
  cases hrs : s.runState with
  | reset =>
    rw [step_of_reset hrs] at hstep
    cases hstep
    rw [step_of_reset (s := withRom rom s) hrs, apply_ite (withRom rom)]
    rfl
  | run => contradiction
  | halted => exact hstopped (.inl hrs)
  | faulted => exact hstopped (.inr hrs)

/-! ### Between commands -/

/-- Past the ROM the step is the fault entry PC_RANGE (R180). -/
theorem step_past_rom {s : State} (hr : s.runState = .run) (hf : s.phase = .fetch)
    (hu : s.undisturbedTo s.dispatchEnd) (h : s.rom.length ≤ s.pc.toNat) :
    step s = .next (faultEntry .pcRange (dispatchDone s)) := by
  rw [step_fetch hr hf hu, fetchAndExec, fetch_past_rom (s := dispatchDone s) h]

/-- On an ILLEGAL word the step is the fault entry ILLEGAL_CMD (R180). -/
theorem step_illegal {s : State} {w : CommandWord} {e : Illegal} (hr : s.runState = .run)
    (hf : s.phase = .fetch) (hu : s.undisturbedTo s.dispatchEnd)
    (h : s.rom[s.pc.toNat]? = some w) (hd : decode w = .error e) :
    step s = .next (faultEntry .illegalCmd (dispatchDone s)) := by
  rw [step_fetch hr hf hu, fetchAndExec, fetch_illegal (s := dispatchDone s) h hd]

/-- On the word of a command the step executes it (R180). -/
theorem step_command {s : State} {w : CommandWord} {i : Instr} (hr : s.runState = .run)
    (hf : s.phase = .fetch) (hu : s.undisturbedTo s.dispatchEnd)
    (h : s.rom[s.pc.toNat]? = some w) (hd : decode w = .ok i) :
    step s = exec i (dispatchDone s) := by
  rw [step_fetch hr hf hu, fetchAndExec, fetch_command (s := dispatchDone s) h hd]

/-- With no command in execution a reset that comes or not leaves none in execution. -/
theorem takeReset_phase {s : State} (hf : s.phase = .fetch) : (takeReset s).phase = .fetch := by
  obtain ⟨-, ht⟩ | ⟨r, rest, -, ht⟩ := takeReset_cases s
  · rw [ht, hf]
  · rw [ht]; rfl

/-- Out of RUN no command is in execution (10_state.md R26, R32). -/
theorem State.Inv.phase_of_not_run {s : State} (h : s.Inv) (hr : s.runState ≠ .run) :
    s.phase = .fetch := by
  by_contra hf
  exact hr (h.in_execution hf).1

/-- A step that ends in RUN has left no command in execution but one that waits for an answer (R180,
R12 (c)). -/
theorem step_run_outcome {s t : State} (hinv : s.Inv) (hstep : step s = .next t)
    (hrun : t.runState = .run) : t.phase = .fetch ∨ t.WaitsForAnswer := by
  have hrest : s.runState ≠ .run → s.phase = .fetch := hinv.phase_of_not_run
  obtain ⟨hr, rfl⟩ | ⟨hr, rfl⟩ | ⟨-, hf, -, rfl⟩ | ⟨hr, hf, -, hfetch⟩ | ⟨hr, hf, op, ho, rfl⟩ :=
    step_cases hstep
  · have hf := hrest (by simp [hr])
    exact .inl (by split <;> exact hf)
  · exact .inl (takeReset_phase (hrest (by obtain hr | hr := hr <;> simp [hr])))
  · exact .inl (takeReset_phase hf)
  · have hidle : Idle (dispatchDone s) := (hinv.idle hr hf).elapse _
    obtain ⟨code, -, rfl⟩ | ⟨i, hi, rfl⟩ := hfetch
    · exact .inl rfl
    · exact (firstAction_invWith hidle (commandAtPc_of_fetch hi)).finish_run hrun
  · exact InvWith.finish_run ⟨hinv, fun _ => ho⟩ hrun

/-- A dispatch takes time and nothing else (R181, log 7). -/
theorem dispatchDone_of_no_request {s : State} (hq : s.adcReq = false) :
    dispatchDone s =
      { s with now := s.now + (s.build.dispatchCycles - s.dispatched), dispatched := 0 } := by
  rw [dispatchDone, elapse_of_no_request hq]

/-- In RUN between commands a first action is due at the end of the dispatch (R181). -/
theorem State.Inv.dispatchDone_readyAt {s : State} (h : s.Inv) (hr : s.runState = .run)
    (hf : s.phase = .fetch) : (dispatchDone s).readyAt := by
  obtain ⟨hq, hpend⟩ := h.noRead (by simp [hf])
  exact ⟨hr, hf, h.no_wait_between hf, rfl, by simp [hq], hpend⟩

/-! ### The dispatch on the clocked machine (R181) -/

/-- A move before the dispatch is over counts one tick of it. -/
theorem clockStep_in_dispatch {p : InputPorts} {s : State} (hr : s.runState = .run)
    (hf : s.phase = .fetch) (hq : s.adcReq = false) (hd : s.dispatched < s.build.dispatchCycles)
    (hp : p.rstN = true) :
    clockStep p s = { s with now := s.now + 1, dispatched := s.dispatched + 1 } := by
  have hdue : s.fetchDue = false := by simp [State.fetchDue, hd]
  rw [clockStep, hdue, Bool.and_false, if_neg Bool.false_ne_true, tick_of_run hp hr,
    elapse_of_no_request hq, tickRun]
  simp [hf]

/-- The moves of a dispatch count its ticks. -/
theorem clockRun_in_dispatch {ps : List InputPorts} {s : State} (hr : s.runState = .run)
    (hf : s.phase = .fetch) (hq : s.adcReq = false)
    (hd : s.dispatched + ps.length ≤ s.build.dispatchCycles) (hps : noResetOn ps = true) :
    clockRun ps s =
      { s with now := s.now + ps.length, dispatched := s.dispatched + ps.length } := by
  induction ps generalizing s with
  | nil => rfl
  | cons p ps ih =>
    obtain ⟨hp, hps⟩ : p.rstN = true ∧ noResetOn ps = true := by simpa using hps
    rw [List.length_cons] at hd
    have hmove := clockStep_in_dispatch hr hf hq (by omega) hp
    calc clockRun (p :: ps) s
        = clockRun ps { s with now := s.now + 1, dispatched := s.dispatched + 1 } := by
          rw [← hmove]; rfl
      _ = _ := by
          rw [ih (by exact hr) (by exact hf) (by exact hq) (by simp only; omega) hps]
          simp only [List.length_cons, Nat.add_assoc, Nat.add_comm 1]

/-- When the dispatch is over, the next move is the first action of the command at pc. -/
theorem clockStep_fetchDue {p : InputPorts} {s : State} {i : Instr} (hr : s.runState = .run)
    (hf : s.phase = .fetch) (hd : s.build.dispatchCycles ≤ s.dispatched) (hi : fetch s = .ok i)
    (hp : p.rstN = true) : clockStep p s = firstAction i { s with dispatched := 0 } := by
  have hdue : s.fetchDue = true := by simp [State.fetchDue, hr, hf, hd]
  rw [clockStep, hp, hdue, Bool.and_self, if_pos rfl, fetchAct, hi]

/-! ### JMP and HALT -/

/-- JMP moves the pc, and nothing else (R183). -/
theorem exec_jmp {s : State} (hs : s.readyAt) (target : Word16) :
    exec (.jmp target) s = .next { s with pc := target } := by
  obtain ⟨-, hf, hw, hd, -⟩ := hs
  change Host.Outcome.next (beginJmp target s) = _
  simp [beginJmp, targetOperand, hf, hw, hd]

/-- HALT stops the sequencer, and changes nothing else (R184). -/
theorem exec_halt {s : State} (hs : s.readyAt) :
    exec .halt s = .next { s with runState := .halted } := by
  obtain ⟨-, hf, hw, hd, -⟩ := hs
  change Host.Outcome.next (beginHalt s) = _
  simp [beginHalt, hf, hw, hd]

theorem takeReset_of_no_resets {s : State} (h : s.resets = []) : takeReset s = s := by
  simp [takeReset, h]

end Sequencer

/-- Settles O8: the three outcomes of a fetch; inside a command no action reads the ROM and `finish` has
the fuel for every wait left, so it stops at the command's end, a reset or an unanswered read. -/
theorem sequencerStepFetchesAndExecutes : Obligations.SequencerStepFetchesAndExecutes := by
  refine ⟨fun s hr hf hu => ⟨step_past_rom hr hf hu, ?_, ?_⟩, fun s t hinv hr hf hstep => ⟨?_, ?_⟩,
    fun s t => step_run_outcome, fun s t rom => step_withRom_of_not_run rom⟩
  · exact fun w e => step_illegal hr hf hu
  · exact fun w i => step_command hr hf hu
  · exact fun rom hrom => step_resume_withRom hr hf hrom hstep
  · obtain ⟨op, ho⟩ := Option.isSome_iff_exists.mp (hinv.in_execution hf).2
    cases (step_resume hr hf ho).symm.trans hstep
    exact finish_outcome ⟨hinv, fun _ => ho⟩ hr hf

/-- Settles O10: the moves before the end of the dispatch count its ticks, and the one at its end is the
first action. -/
theorem dispatchTakesItsTicks : Obligations.DispatchTakesItsTicks := by
  rintro s i ps p ⟨hr, hf, -, hd, hq, -⟩ hi hps hp
  have hrun (hle : ps.length ≤ s.build.dispatchCycles) :
      clockRun ps s = { s with now := s.now + ps.length, dispatched := ps.length } := by
    simpa [hd] using clockRun_in_dispatch hr hf hq (by rwa [hd, Nat.zero_add]) hps
  refine ⟨fun hlt => hrun hlt.le, fun hlen => ?_⟩
  calc clockRun (ps ++ [p]) s
      = clockStep p { s with now := s.now + ps.length, dispatched := ps.length } := by
        rw [← hrun hlen.le]; exact List.foldl_append
    _ = firstAction i { s with now := s.now + ps.length, dispatched := 0 } :=
        clockStep_fetchDue (by exact hr) (by exact hf) hlen.ge hi hp
    _ = firstAction i { s with now := s.now + ps.length } := by rw [← hd]

/-- Settles O9: the word decodes to its command, and a dispatch only takes time. -/
theorem stepRunsTheDecodedCommand : Obligations.StepRunsTheDecodedCommand := by
  intro s i hr hf hu hw
  refine ⟨step_command hr hf hu hw (decode_encode i), fun hinv => ⟨?_, ?_⟩⟩
  · obtain ⟨hq, -⟩ := hinv.noRead (by simp [hf])
    exact dispatchDone_of_no_request hq
  · exact hinv.dispatchDone_readyAt hr hf

/-- Settles O22: the word is the encoder's; the fetch at the target finds that it is past the ROM. -/
theorem jmpSetsThePc : Obligations.JmpSetsThePc := by
  refine ⟨fun w target => ?_, fun s target hs => ⟨exec_jmp hs target, fun hrom hu => ?_⟩⟩
  · rw [decode_eq_ok_iff, eq_comm]
    rfl
  · obtain ⟨hr, hf, -, hd, -⟩ := hs
    have hend : ({ s with pc := target } : State).dispatchEnd = s.now + s.build.dispatchCycles := by
      simp [State.dispatchEnd, hd]
    exact ⟨_, step_past_rom (s := { s with pc := target }) hr hf (hend ▸ hu) hrom, rfl, rfl, rfl⟩

/-- Settles O23: the word is the encoder's; between commands every pin is low, and HALTED is left by the
next reset alone. -/
theorem haltStopsTheSequencer : Obligations.HaltStopsTheSequencer := by
  refine ⟨fun w => ?_, fun s hs => ⟨exec_halt hs, fun hinv => ?_, step_of_stopped (.inl rfl),
    fun hn => ?_⟩⟩
  · rw [decode_eq_ok_iff, eq_comm]
    rfl
  · obtain ⟨hr, hf, -⟩ := hs
    obtain ⟨-, -, hpins⟩ := hinv.idle hr hf
    exact hpins
  · rw [step_of_stopped (.inl rfl), takeReset_of_no_resets (by exact hn)]

end Sys2Proof.Machine

namespace Sys2Proof.Machine

/-! ## Faults and unanswered reads (60_exceptions.md R201, R202, R212)

A first action raises its fault before it writes anything, and no wait raises one. A SAMPLE short of
answers is the turns it has answers for, and then a read in which nothing advances. -/

section Exceptions

/-! ### Fault entry (R202) -/

/-- With every pin low there is no edge when they are driven low. -/
theorem dropEdges_of_low {s : State} (h : s.pwmOut = 0) : dropEdges s = s.trace := by
  rw [dropEdges, h, highPins_zero]
  rfl

/-- `t` is the fault entry on `s`, or goes on in the run state of `s`: the two ends of a check. -/
def FaultsOrGoesOn (s t : State) : Prop :=
  (∃ code, code ≠ .none ∧ t = faultEntry code s) ∨ t.runState = s.runState

theorem beginMap_faultsOrGoesOn (a b c d : Bound12) (s : State) :
    FaultsOrGoesOn s (beginMap a b c d s) := by
  unfold beginMap
  dsimp only
  split
  next code hcode => exact .inl ⟨code, mapFault_ne_none hcode, rfl⟩
  next => exact .inr rfl

theorem beginEmit_faultsOrGoesOn (pin : PinId) (angle : Int) (s : State) :
    FaultsOrGoesOn s (beginEmit pin angle s) := by
  unfold beginEmit
  split
  next code hcode => exact .inl ⟨code, emitFault_ne_none hcode, rfl⟩
  next => exact .inr (emitRise_runState pin _)

theorem beginInit_faultsOrGoesOn (endPin : PinId) (s : State) :
    FaultsOrGoesOn s (beginInit endPin s) := by
  unfold beginInit
  split
  next code hcode => exact .inl ⟨code, initFault_ne_none hcode, rfl⟩
  next => exact .inr rfl

/-- From RUN the one way to FAULTED is the fault entry. -/
theorem FaultsOrGoesOn.of_faulted {s t : State} (h : FaultsOrGoesOn s t) (hr : s.runState = .run)
    (hf : t.runState = .faulted) : ∃ code, code ≠ .none ∧ t = faultEntry code s := by
  refine h.resolve_right fun hgoes => ?_
  cases hr.symm.trans (hgoes.symm.trans hf)

/-- The commands with a check, which alone can fault (R201). -/
def HasCheck (i : Instr) : Prop :=
  i ≠ .sample ∧ (∀ imm, i ≠ .lds imm) ∧ (∀ target, i ≠ .jmp target) ∧ i ≠ .halt

/-- A first action that ends in FAULTED is the fault entry, of a command with a check. -/
theorem firstAction_of_faulted {i : Instr} {s : State} (hr : s.runState = .run)
    (hf : (firstAction i s).runState = .faulted) :
    (∃ code, code ≠ .none ∧ firstAction i s = faultEntry code s) ∧ HasCheck i := by
  cases i with
  | sample => cases hr.symm.trans hf
  | map a b c d =>
    exact ⟨(beginMap_faultsOrGoesOn a b c d s).of_faulted hr hf, by simp [HasCheck]⟩
  | emitA pin => exact ⟨(beginEmit_faultsOrGoesOn pin _ s).of_faulted hr hf, by simp [HasCheck]⟩
  | emitImm pin imm =>
    exact ⟨(beginEmit_faultsOrGoesOn pin _ s).of_faulted hr hf, by simp [HasCheck]⟩
  | init endPin => exact ⟨(beginInit_faultsOrGoesOn endPin s).of_faulted hr hf, by simp [HasCheck]⟩
  | lds imm => cases hr.symm.trans hf
  | jmp target => cases hr.symm.trans hf
  | halt => cases hf

/-- No wait raises a fault: a command that ends in FAULTED is its first action. -/
theorem exec_of_faulted {i : Instr} {s t : State} (h : exec i s = .next t)
    (hf : t.runState = .faulted) : t = firstAction i s := by
  obtain rfl := Host.Outcome.next.inj ((exec_eq_finish i s).symm.trans h)
  obtain ⟨hreset, -⟩ | ⟨hkept, -⟩ := finish_keptByWaits (waitOperand i) (firstAction i s)
  · cases hf.symm.trans hreset
  · exact finish_of_not_run _ (by simp [← hkept, hf])

/-! ### A read without an answer (R212) -/

/-- `s`, in which a SAMPLE begins, when the answers of its script have run out: waiting in its next
read. -/
def sampleWaiting (s : State) : State := adcRequest (withScript [] (afterReads s.adc (sampleStart s)))

theorem sampleWaiting_waitsForAnswer {s : State} (hr : s.runState = .run) (hn : s.resets = []) :
    (sampleWaiting s).WaitsForAnswer := ⟨hr, rfl, rfl, hn⟩

/-- A read that waits has nothing to run on to (log 25). -/
theorem State.WaitsForAnswer.advance {op : PinId} {s : State} (h : s.WaitsForAnswer) :
    Machine.advance op s = none := by
  obtain ⟨-, hp, ha, hn⟩ := h
  exact advance_unanswered op hp ha hn

/-- A step resumes a waiting SAMPLE and changes nothing, as long as no answer and no reset comes. -/
theorem State.WaitsForAnswer.step {s : State} (h : s.WaitsForAnswer)
    (hc : commandAtPc s = some .sample) : Machine.step s = .next s := by
  have hstuck : finish 0 s = s := runOn_of_stuck h.advance _
  obtain ⟨hr, hp, -, -⟩ := h
  have hop : operandInPhase s = some 0 := by rw [operandInPhase_of_command hc, hp]; rfl
  rw [step_resume hr (by simp [hp]) hop, hstuck]

/-- SAMPLE with fewer than eleven answers to come is its turns with them, two waits each, and then the
read that waits; `finish` has more waits to spare. -/
theorem exec_sample_unanswered {s : State} (hs : s.readyAt) (hlen : s.adc.length < 11)
    (hn : s.resets = []) : exec .sample s = .next (sampleWaiting s) := by
  have hr : s.runState = .run := hs.1
  have hfuel : maxWaits = 2 * s.adc.length + (maxWaits - 2 * s.adc.length) := by
    have hmax : maxWaits = 76801 := by decide
    omega
  have hscript : withScript (s.adc ++ []) (sampleStart s) = sampleStart s := by
    rw [List.append_nil]; rfl
  have hturns : runOn 0 (2 * s.adc.length) (beginSample s) = sampleWaiting s := by
    rw [beginSample_eq_sampleLoop, ← hscript,
      runOn_turns s.adc [] hs.atLoopHead (by simpa [sampleStart] using hlen.le)
        (resetBy_of_no_resets hn _)]
    exact sampleLoop_read (by simpa [withScript, afterReads, sampleStart] using hlen)
  have hwaits : (sampleWaiting s).WaitsForAnswer := sampleWaiting_waitsForAnswer hr hn
  calc exec .sample s = .next (runOn 0 maxWaits (beginSample s)) := rfl
    _ = .next (sampleWaiting s) := by
      rw [hfuel, runOn_add, hturns, runOn_of_stuck hwaits.advance]

/-- What the waiting state holds: the counters of the reads so far, the request, the time and the trace
are new (R100, R101). -/
theorem sampleWaiting_eq (s : State) :
    sampleWaiting s =
      { s with
        phase := .sampleRead
        k := s.adc.length
        sum := BitVec.ofNat 14 (answerSum s.adc)
        adcReq := true
        adcPending := true
        adc := []
        now := s.now + sampleTicks s.build s.adc
        trace :=
          .request (s.now + sampleTicks s.build s.adc) s.build.adcChannel ::
            (requestEvents s.build s.now s.adc ++ s.trace) } := by
  simp [sampleWaiting, adcRequest, withScript, afterReads, sampleStart]

end Exceptions

/-- Settles O12: the fault is the first action's, which has written nothing by then; and FAULTED is left
by the next reset alone (O18). -/
theorem faultsArePreciseAndFinal : Obligations.FaultsArePreciseAndFinal := by
  refine ⟨fun i s t hs ht hf => ?_, fun s t hr => onlyResetLeavesAStop.1 s t (.inr hr)⟩
  obtain ⟨hr, -⟩ := hs
  obtain rfl := exec_of_faulted ht hf
  exact firstAction_of_faulted hr hf

/-- Settles O34: the turns with an answer end in the read without one, in which nothing advances. -/
theorem sampleWaitsWithoutAnAnswer : Obligations.SampleWaitsWithoutAnAnswer := by
  intro s hs hlen hn
  dsimp only
  rw [← sampleWaiting_eq]
  have hwaits := exec_sample_unanswered hs hlen hn
  obtain ⟨hr, hf, -⟩ := hs
  refine ⟨hwaits, fun hinv => ?_, (sampleWaiting_waitsForAnswer hr hn).step⟩
  obtain ⟨-, -, hpins⟩ := hinv.idle hr hf
  exact hpins

/-- Settles O11: the fields of the fault entry; FAULTED without a reset to come repeats itself. -/
theorem faultEntryWritesTheRecord : Obligations.FaultEntryWritesTheRecord := by
  intro code s
  refine ⟨by simp, by simp, fun hlow => ?_, fun hn => ?_⟩
  · exact dropEdges_of_low hlow
  · rw [step_of_stopped (.inr rfl), takeReset_of_no_resets (by exact hn)]

end Sys2Proof.Machine

namespace Sys2Proof.Machine

/-! ## Reset and release (70_reset_and_hazards.md R231, R232)

The reset values are one state but for the configuration, the script and the observation, so every
statement about RESET is read off it. A release begins a dispatch at ROM index 0. -/

section ResetAndRelease

variable {s : State} {p q : InputPorts} {ps : List InputPorts} {w : CommandWord}

/-- The reset values include RUNSTATE itself (R231). -/
theorem HoldsResetValues.wasReset (h : HoldsResetValues s) : WasReset s :=
  ⟨congrArg State.runState h, h⟩

/-- A tick with the reset input low leaves the reset values, whether the block was in RESET or not. -/
theorem tick_holdsResetValues (hp : p.rstN = false) (hinv : s.Inv) : HoldsResetValues (tick p s) := by
  rw [tick, if_pos hp]
  split
  next hr => exact hinv.in_reset hr
  next => rfl

/-- A release of the reset values moves RUNSTATE, and starts the time and the trace anew (R232). -/
theorem resetRelease_eq (h : HoldsResetValues s) :
    resetRelease s = { s with runState := .run, now := 0, trace := [] } := by
  have hd : s.dispatched = 0 := congrArg State.dispatched h
  rw [resetRelease, ← hd]

/-- After a release the dispatch of ROM index 0 begins (R181, R232). -/
theorem HoldsResetValues.released (h : HoldsResetValues s) :
    (resetRelease s).phase = .fetch ∧ (resetRelease s).pc = 0 ∧ (resetRelease s).adcReq = false :=
  ⟨congrArg State.phase h, congrArg State.pc h, congrArg State.adcReq h⟩

/-! ### On the clocked machine -/

theorem tick_release (hr : s.runState = .reset) (hp : p.rstN = true) :
    tick p s = resetRelease s := by
  simp [tick, hr, hp]

/-- In RESET no first action is due, so a move is a tick. -/
theorem clockStep_release (hr : s.runState = .reset) (hp : p.rstN = true) :
    clockStep p s = resetRelease s := by
  have hdue : s.fetchDue = false := by simp [State.fetchDue, hr]
  rw [clockStep, hdue, Bool.and_false, if_neg Bool.false_ne_true, tick_release hr hp]

/-- A whole dispatch, and the fetch at its end, on a word of either kind (R180, R181). -/
theorem clockRun_fetchAct (hr : s.runState = .run) (hf : s.phase = .fetch) (hq : s.adcReq = false)
    (hd : s.dispatched = 0) (hps : noResetOn ps = true) (hlen : ps.length = s.build.dispatchCycles)
    (hp : p.rstN = true) :
    clockRun (ps ++ [p]) s = fetchAct { s with now := s.now + ps.length } := by
  have hrun := clockRun_in_dispatch hr hf hq (by rw [hd, Nat.zero_add, hlen]) hps
  rw [hd, Nat.zero_add] at hrun
  calc clockRun (ps ++ [p]) s
      = clockStep p { s with now := s.now + ps.length, dispatched := ps.length } := by
        rw [← hrun]; exact List.foldl_append
    _ = fetchAct { s with now := s.now + ps.length, dispatched := ps.length } := by
        simp [clockStep, State.fetchDue, hp, hr, hf, hlen]
    _ = fetchAct { s with now := s.now + ps.length } := rfl

/-- From RESET the release, then the dispatch of ROM index 0, then its fetch (R232). -/
theorem clockRun_release (h : HoldsResetValues s) (hp : p.rstN = true) (hq : q.rstN = true)
    (hps : noResetOn ps = true) (hlen : ps.length = s.build.dispatchCycles) :
    clockRun (p :: (ps ++ [q])) s =
      fetchAct { s with runState := .run, now := ps.length, trace := [] } := by
  obtain ⟨hr, -⟩ := h.wasReset
  obtain ⟨hf, -, hreq⟩ := h.released
  calc clockRun (p :: (ps ++ [q])) s
      = clockRun (ps ++ [q]) (resetRelease s) := by rw [← clockStep_release hr hp]; rfl
    _ = fetchAct { resetRelease s with now := ps.length } := by
        rw [clockRun_fetchAct rfl hf hreq rfl hps hlen hq, resetRelease_now, Nat.zero_add]
    _ = _ := by rw [resetRelease_eq h]

end ResetAndRelease

/-- Settles O14: the state after the tick is the one state that holds the reset values; the last clause
is a part of O52. -/
theorem resetActionClearsEverything : Obligations.ResetActionClearsEverything := by
  intro s p hp hinv
  have hvalues := tick_holdsResetValues hp hinv
  obtain ⟨-, -, -, hack⟩ := adcHandshake
  dsimp only
  rw [hvalues]
  exact ⟨⟨rfl, rfl, rfl, rfl, rfl, rfl⟩, ⟨rfl, rfl, rfl, rfl, rfl⟩, ⟨rfl, rfl, rfl, rfl, rfl⟩,
    ⟨rfl, rfl, rfl, rfl, rfl, rfl, rfl⟩, hack⟩

/-- Settles O16: the release, the dispatch, and the fetch, which finds the word at index 0. -/
theorem releaseStartsAtRomIndexZero : Obligations.ReleaseStartsAtRomIndexZero := by
  intro s p q ps w hr hinv hp hq hps hlen hw
  have hvalues := hinv.in_reset hr
  have hpc : s.pc = 0 := congrArg State.pc hvalues
  have hd : s.dispatched = 0 := congrArg State.dispatched hvalues
  have hword : s.rom[s.pc.toNat]? = some w := by rw [hpc]; exact hw
  have hrun := clockRun_release hvalues hp hq hps hlen
  refine ⟨(tick_release hr hp).trans (resetRelease_eq hvalues), fun i hi => ?_, fun e he => ?_⟩
  · rw [hrun, fetchAct, fetch_command (by exact hword) hi, ← hd]
  · rw [hrun, fetchAct, fetch_illegal (by exact hword) he, ← hd]

/-- Settles O17: the step's release, and then a step from the beginning of a dispatch at index 0. -/
theorem stepReleasesTheReset : Obligations.StepReleasesTheReset := by
  intro s hr hinv
  have hvalues := hinv.in_reset hr
  refine ⟨fun hlow => ?_, fun hhigh => ⟨resetRelease s, ?_, resetRelease_eq hvalues, fun hu w hw => ?_⟩⟩
  · rw [step_of_reset hr, hlow, if_neg Bool.false_ne_true]
  · rw [step_of_reset hr, if_pos hhigh]
  · obtain ⟨hf, hpc, hq⟩ := hvalues.released
    have hword : (resetRelease s).rom[(resetRelease s).pc.toNat]? = some w := by rw [hpc]; exact hw
    have hend : (resetRelease s).dispatchEnd = s.build.dispatchCycles := Nat.zero_add _
    have hdone : dispatchDone (resetRelease s) =
        { resetRelease s with now := s.build.dispatchCycles } := by
      rw [dispatchDone_of_no_request hq, resetRelease_now, Nat.zero_add]
      rfl
    rw [← hend] at hu
    refine ⟨fun i hi => ?_, fun e he => ?_⟩
    · rw [step_command rfl hf hu hword hi, hdone]
    · rw [step_illegal rfl hf hu hword he, hdone]

/-- Settles O45: the reset state holds the reset values, which meet the invariant. -/
theorem invariantHoldsAtReset : Obligations.InvariantHoldsAtReset := fun _ _ _ _ =>
  HoldsResetValues.inv rfl

/-- Settles O15: the reset state is the reset values themselves, with the reset input high. -/
theorem resetStateHoldsTheResetValues : Obligations.ResetStateHoldsTheResetValues :=
  ⟨rfl, rfl, invariantHoldsAtReset _ _ _ _, rfl⟩

end Sys2Proof.Machine

namespace Sys2Proof.Machine

/-! ## A reset inside a command (70_reset_and_hazards.md R238)

The wait in which the next pulse of the script falls is the command's last: the reset ends it at the
pulse's tick, and the pin that was high falls there. EMIT and INIT drive the same pulse, a high and a low
wait, so a reset inside one is one lemma for both. -/

section ResetInsideACommand

variable {s t : State} {op e pin : PinId} {r : ResetPulse} {rest : List ResetPulse} {ph ph' : Phase}

/-- In RUN before the next pulse of the reset input, `r`, with `rest` to come after it (log 4). -/
def AwaitsReset (r : ResetPulse) (rest : List ResetPulse) (s : State) : Prop :=
  s.runState = .run ∧ s.resets = r :: rest ∧ s.now < r.tick

/-- A phase whose wait ends after `remaining` ticks (20_memory.md R57). -/
def IsWait (ph : Phase) : Prop := ph ≠ .fetch ∧ ph ≠ .sampleRead

/-- A reset came at tick `n`, and the run that it ended left the trace `tr`. -/
def CutAt (n : Nat) (tr : List TraceEvent) (t : State) : Prop :=
  t.runState = .reset ∧ HoldsResetValues t ∧ t.now = n ∧ t.trace = tr

/-! ### The next pulse of the script -/

theorem resetBy_of_next (hn : s.resets = r :: rest) (n : Nat) : s.resetBy n = decide (r.tick ≤ n) := by
  simp [State.resetBy, hn]

/-- No reset falls before the next pulse. -/
theorem undisturbedTo_of_next (hn : s.resets = r :: rest) {n : Nat} (h : n < r.tick) :
    s.undisturbedTo n := by
  rw [State.undisturbedTo, resetBy_of_next hn, decide_eq_false (Nat.not_le.mpr h)]

/-- The reset comes at the pulse's tick, and what is high falls there. -/
theorem takeReset_cutAt (hn : s.resets = r :: rest) (hnow : s.now ≤ r.tick) :
    CutAt r.tick (dropEdges { s with now := r.tick }) (takeReset s) := by
  obtain ⟨hr, hvalues⟩ := takeReset_holdsResetValues (s := s) (by simp [hn])
  refine ⟨hr, hvalues, ?_, ?_⟩ <;> simp [takeReset, hn, hnow]

/-- With every pin low the reset leaves no edge. -/
theorem takeReset_cutAt_of_low (hn : s.resets = r :: rest) (hnow : s.now ≤ r.tick)
    (hpins : s.pwmOut = 0) : CutAt r.tick s.trace (takeReset s) := by
  have hedges : dropEdges { s with now := r.tick } = s.trace := dropEdges_of_low hpins
  exact hedges ▸ takeReset_cutAt hn hnow

/-- The one high pin falls at the reset. -/
theorem takeReset_cutAt_of_high (hn : s.resets = r :: rest) (hnow : s.now ≤ r.tick) {p : PinId}
    (hpins : s.pwmOut = pinBit p.toNat) :
    CutAt r.tick (.pin r.tick p.toNat false :: s.trace) (takeReset s) := by
  have hedges : dropEdges { s with now := r.tick } = .pin r.tick p.toNat false :: s.trace := by
    simp [dropEdges, hpins, highPins_pinBit p.isLt]
  exact hedges ▸ takeReset_cutAt hn hnow

/-! ### A pulse: a high wait and a low wait -/

/-- A reset inside a wait with every pin low. -/
theorem runOn_low_wait_cutAt (n us : Nat) (hph : IsWait ph) (h : AwaitsReset r rest s)
    (hpins : s.pwmOut = 0) (htick : r.tick ≤ s.now + s.build.ticks us) :
    CutAt r.tick s.trace (runOn op (n + 1) (beginWait ph us s)) := by
  obtain ⟨hf, hread⟩ := hph
  obtain ⟨hr, hn, hnow⟩ := h
  have hcut : (beginWait ph us s).resetBy (s.now + s.build.ticks us) = true := by
    rw [resetBy_of_next (by exact hn), decide_eq_true htick]
  rw [runOn_reset (by exact hr) (by exact hf) (by exact hread) (by exact hcut)]
  exact takeReset_cutAt_of_low (s := beginWait ph us s) hn hnow.le hpins

/-- The state at the fall of a pulse on pin `p` that rises in `s`. -/
def atPulseFall (p high : Nat) (s : State) : State :=
  { pinWrite p true s with now := s.now + s.build.ticks high }

/-- A reset inside a pulse: the pin falls at the reset, or earlier where its high time was over (R238).
What the end of the high time does matters only where it comes before the reset. -/
theorem runOn_pulse_cutAt (n high low : Nat) {p : PinId} (hph : IsWait ph) (hph' : IsWait ph')
    (h : AwaitsReset r rest s) (hq : s.adcReq = false) (hpins : s.pwmOut = 0)
    (htick : r.tick ≤ s.now + s.build.ticks high + s.build.ticks low)
    (hfall : s.now + s.build.ticks high < r.tick →
      waitEnded op { atPulseFall p.toNat high s with phase := ph, remaining := 0 } =
        beginWait ph' low (pinWrite p.toNat false (atPulseFall p.toNat high s))) :
    CutAt r.tick
      (.pin (min r.tick (s.now + s.build.ticks high)) p.toNat false ::
        .pin s.now p.toNat true :: s.trace)
      (runOn op (n + 2) (beginWait ph high (pinWrite p.toNat true s))) := by
  obtain ⟨hf, hread⟩ := hph
  obtain ⟨hr, hn, hnow⟩ := h
  have hrise := pinWrite_rise (p := p.toNat) hpins
  have hup : (pinWrite p.toNat true s).pwmOut = pinBit p.toNat := by rw [hrise]
  have htrace : (pinWrite p.toNat true s).trace = .pin s.now p.toNat true :: s.trace := by rw [hrise]
  by_cases hhigh : r.tick ≤ s.now + s.build.ticks high
  · have hcut : (beginWait ph high (pinWrite p.toNat true s)).resetBy
        (s.now + s.build.ticks high) = true := by
      rw [resetBy_of_next (by exact hn), decide_eq_true hhigh]
    rw [runOn_reset (by exact hr) (by exact hf) (by exact hread) (by exact hcut),
      min_eq_left hhigh, ← htrace]
    exact takeReset_cutAt_of_high (s := beginWait ph high (pinWrite p.toNat true s)) hn hnow.le hup
  · have hended := Nat.lt_of_not_le hhigh
    have hdown := pinWrite_fall (s := atPulseFall p.toNat high s) p.isLt hup
    have hlow := runOn_low_wait_cutAt (op := op) (s := pinWrite p.toNat false (atPulseFall p.toNat high s))
      n low hph' ⟨hr, hn, hended⟩ (by rw [hdown]) htick
    rw [runOn_wait (by exact hr) (by exact hf) (by exact hread) (by exact hq)
        (undisturbedTo_of_next (by exact hn) hended), min_eq_right hended.le, ← htrace]
    rw [← hfall hended, hdown] at hlow
    exact hlow

/-! ### EMIT -/

/-- A reset inside an EMIT's frame, from the rise on; with a width of 0 the low time is the frame
(R144). -/
theorem runOn_emitRise_cutAt (n : Nat) (hb : s.build.wellFormed = true) (h : AwaitsReset r rest s)
    (hq : s.adcReq = false) (hpins : s.pwmOut = 0) (hw : s.W.toNat ≤ 20000)
    (htick : r.tick ≤ s.now + s.build.ticks 20000) :
    CutAt r.tick
      (if s.W.toNat = 0 then s.trace
        else
          .pin (min r.tick (s.now + s.build.ticks s.W.toNat)) pin.toNat false ::
            .pin s.now pin.toNat true :: s.trace)
      (runOn pin (n + 2) (emitRise pin s)) := by
  have ⟨_, _, hnow⟩ := h
  rw [ticks_frame s.build hw, ← Nat.add_assoc] at htick
  by_cases hzero : s.W.toNat = 0
  · have hhigh := (ticks_eq_zero hb _).mpr hzero
    rw [hhigh, Nat.add_zero] at htick
    rw [if_pos hzero, emitRise_of_no_high hhigh, emitFall_of_low (by omega), pinWrite_low hpins]
    exact runOn_low_wait_cutAt (n + 1) _ ⟨nofun, nofun⟩ h hpins htick
  · have hhigh := (ticks_eq_zero hb _).not.mpr hzero
    rw [if_neg hzero, emitRise_of_high hhigh]
    refine runOn_pulse_cutAt (ph' := .emitLow) n _ _ ⟨nofun, nofun⟩ ⟨nofun, nofun⟩ h hq hpins htick
      fun hended => ?_
    have hlow : s.build.ticks (20000 - s.W.toNat) ≠ 0 := by omega
    rw [waitEnded_emitHigh (by rfl), emitFall_of_low (by exact hlow)]
    rfl

/-! ### INIT -/

/-- A reset inside frame `j` of an INIT, which begins in `s`. -/
theorem runOn_initGoesOn_cutAt (n : Nat) {j : Nat} (hj : j < 150 * initPinCount s.build e)
    (h : AwaitsReset r rest s) (hq : s.adcReq = false) (hpins : s.pwmOut = 0)
    (htick : r.tick ≤ s.now + s.build.ticks 20000) :
    CutAt r.tick
      (.pin (min r.tick (s.now + s.build.ticks 1500)) (s.build.pinControlMin.toNat + j / 150) false ::
        .pin s.now (s.build.pinControlMin.toNat + j / 150) true :: s.trace)
      (runOn e (n + 2) (initGoesOn e j s)) := by
  rw [initFrame_ticks, ← Nat.add_assoc] at htick
  rw [initGoesOn, if_pos hj, ← withInitCounters_curPin hj]
  refine runOn_pulse_cutAt (s := withInitCounters j s) (ph := .initHigh) (ph' := .initLow) n 1500 18500
    ⟨nofun, nofun⟩ ⟨nofun, nofun⟩ h hq hpins htick fun _ => ?_
  rw [waitEnded_initHigh (by rfl)]
  rfl

/-- A reset inside the settle delay of an INIT. -/
theorem exec_init_settle_cutAt (hs : s.readyAt) (hpins : s.pwmOut = 0)
    (hpin : e.toNat < s.build.numPins) (hn : s.resets = r :: rest) (hnow : s.now < r.tick)
    (htick : r.tick ≤ s.now + s.build.ticks 2000000) :
    ∃ t, exec (.init e) s = .next t ∧ CutAt r.tick s.trace t := by
  obtain ⟨hr, -⟩ := hs
  refine ⟨_, rfl, ?_⟩
  rw [beginInit_of_pin hpin]
  exact runOn_low_wait_cutAt (maxWaits - 1) _ ⟨nofun, nofun⟩ ⟨hr, hn, hnow⟩ hpins htick

/-- A reset inside frame `j` of an INIT: the frames before it, then a cut pulse. -/
theorem exec_init_frame_cutAt (hs : s.readyAt) (hpins : s.pwmOut = 0)
    (hpin : e.toNat < s.build.numPins) (hn : s.resets = r :: rest) {j : Nat}
    (hj : j < 150 * initPinCount s.build e)
    (hbegun : s.now + s.build.ticks 2000000 + s.build.ticks (20000 * j) < r.tick)
    (htick : r.tick ≤ s.now + s.build.ticks 2000000 + s.build.ticks (20000 * (j + 1))) :
    ∃ t, exec (.init e) s = .next t ∧
      CutAt r.tick
        (.pin (min r.tick (s.now + s.build.ticks 2000000 + s.build.ticks (20000 * j) +
              s.build.ticks 1500)) (s.build.pinControlMin.toNat + j / 150) false ::
          .pin (s.now + s.build.ticks 2000000 + s.build.ticks (20000 * j))
              (s.build.pinControlMin.toNat + j / 150) true ::
            (initEvents s.build s.build.pinControlMin.toNat (s.now + s.build.ticks 2000000) j ++
              s.trace)) t := by
  obtain ⟨hr, -, -, -, hq, -⟩ := hs
  refine ⟨_, rfl, ?_⟩
  obtain ⟨m, hm⟩ := exists_maxWaits_eq s.build e
  obtain ⟨n, hfuel⟩ : ∃ n, maxWaits = 2 * j + (n + 2) + 1 := ⟨maxWaits - 2 * j - 3, by omega⟩
  obtain ⟨curPin, frame, hframes⟩ :=
    afterInitFrames_of_low (s := afterInitSettle s) (e := e) hpins (show j ≤ _ from hj.le)
  have hsettle : s.now + s.build.ticks 2000000 < r.tick := by omega
  rw [Nat.mul_succ, ticks_add, ← Nat.add_assoc] at htick
  rw [beginInit_of_pin hpin, finish, hfuel,
    runOn_initSettle _ hr hq (undisturbedTo_of_next hn hsettle),
    runOn_initFrames (s := afterInitSettle s) _ hr hq hj.le (undisturbedTo_of_next (by exact hn) hbegun),
    hframes]
  exact runOn_initGoesOn_cutAt _ hj ⟨hr, hn, hbegun⟩ hq hpins htick

/-! ### SAMPLE -/

/-- `t` is in the run state of `s`, at its time and with its pulses to come. -/
def KeepsClock (s t : State) : Prop := t.runState = s.runState ∧ t.now = s.now ∧ t.resets = s.resets

/-- What the end of a wait does takes no time and sees no reset. -/
theorem waitEnded_keepsClock (op : PinId) (s : State) : KeepsClock s (waitEnded op s) := by
  unfold waitEnded
  cases s.phase with
  | fetch => exact ⟨rfl, rfl, rfl⟩
  | sampleRead => exact ⟨rfl, rfl, rfl⟩
  | sampleSettle => simp only [sampleSettled]; split <;> exact ⟨rfl, rfl, rfl⟩
  | emitHigh => simp only [emitFall]; split <;> exact ⟨rfl, rfl, rfl⟩
  | emitLow => exact ⟨rfl, rfl, rfl⟩
  | initSettle => simp only [initSettled]; split <;> exact ⟨rfl, rfl, rfl⟩
  | initHigh => exact ⟨rfl, rfl, rfl⟩
  | initLow => simp only [initFrameEnd]; split_ifs <;> exact ⟨rfl, rfl, rfl⟩

/-- A run to an event that takes no time comes before the next pulse, or is cut at it. -/
theorem AwaitsReset.runTo {act : State → State} (n : Nat) (h : AwaitsReset r rest s)
    (hact : ∀ u, KeepsClock u (act u)) (hle : s.now ≤ n) :
    AwaitsReset r rest (Machine.runTo n act s) ∨ ∃ tr, CutAt r.tick tr (Machine.runTo n act s) := by
  obtain ⟨hr, hn, hnow⟩ := h
  rw [Machine.runTo, resetBy_of_next hn]
  by_cases hcut : r.tick ≤ n
  · rw [if_pos (decide_eq_true hcut)]
    exact .inr ⟨_, takeReset_cutAt hn hnow.le⟩
  · obtain ⟨hrun, htime, hresets⟩ := hact (elapse (n - s.now) s)
    rw [if_neg (by simpa using hcut)]
    refine .inl ⟨hrun.trans hr, hresets.trans hn, ?_⟩
    rw [htime, elapse_now]
    omega

/-- A command that runs on comes before the next pulse, or is cut at it. -/
theorem AwaitsReset.advance (h : AwaitsReset r rest s) (ha : Machine.advance op s = some t) :
    AwaitsReset r rest t ∨ ∃ tr, CutAt r.tick tr t := by
  obtain ⟨hr, hn, hnow⟩ := h
  obtain ⟨-, hf, -⟩ := advance_cases ha
  by_cases hread : s.phase = .sampleRead
  · cases hadc : s.adc with
    | nil =>
      rw [advance_read_reset op hr hread hadc (by simp [hn])] at ha
      cases ha
      exact .inr ⟨_, takeReset_cutAt hn hnow.le⟩
    | cons a as =>
      rw [advance_read op hr hread hadc] at ha
      cases ha
      exact AwaitsReset.runTo _ ⟨hr, hn, hnow⟩ (fun _ => ⟨rfl, rfl, rfl⟩) (Nat.le_add_right ..)
  · rw [advance_wait op hr hf hread] at ha
    cases ha
    exact AwaitsReset.runTo _ ⟨hr, hn, hnow⟩
      (fun u => waitEnded_keepsClock op { u with remaining := 0 }) (Nat.le_add_right ..)

/-- A command that a reset ends, ends at the pulse's tick. -/
theorem AwaitsReset.finish_cutAt (h : AwaitsReset r rest s) (hreset : WasReset (finish op s)) :
    ∃ tr, CutAt r.tick tr (finish op s) := by
  refine (finish_keeps (op := op) (P := fun t => AwaitsReset r rest t ∨ ∃ tr, CutAt r.tick tr t)
    (fun t t' ht ha => ?_) (.inl h)).resolve_left fun ⟨hr, _⟩ => ?_
  · obtain ht | ⟨tr, hrt, -⟩ := ht
    · exact ht.advance ha
    · rw [advance_not_run op (by simp [hrt])] at ha
      cases ha
  · cases hr.symm.trans hreset.1

/-- A SAMPLE short of answers is cut in one of its turns, or in the read that has none. -/
theorem finish_beginSample_wasReset (hs : s.readyAt) (hlen : s.adc.length < 11)
    (hn : s.resets = r :: rest) (hnow : s.now < r.tick) : WasReset (finish 0 (beginSample s)) := by
  have hr : s.runState = .run := hs.1
  obtain ⟨n, hfuel⟩ : ∃ n, maxWaits = 2 * s.adc.length + (n + 1) := by
    have hmax : maxWaits = 76801 := by decide
    exact ⟨76800 - 2 * s.adc.length, by omega⟩
  have hscript : withScript (s.adc ++ []) (sampleStart s) = sampleStart s := by
    rw [List.append_nil]; rfl
  have hle : (sampleStart s).k + s.adc.length ≤ 11 := by simpa [sampleStart] using hlen.le
  rw [finish, hfuel, runOn_add, beginSample_eq_sampleLoop, ← hscript]
  by_cases hcut : r.tick ≤ s.now + sampleTicks s.build s.adc
  · have hne : s.adc ≠ [] := by
      intro hnil
      rw [hnil, sampleTicks_nil] at hcut
      omega
    have hreset := runOn_turns_reset (op := 0) s.adc [] hs.atLoopHead hle hne
      (by rw [resetBy_of_next (by exact hn)]; exact decide_eq_true hcut)
    rwa [runOn_of_stuck (advance_of_wasReset hreset)]
  · have hwaits : sampleLoop (withScript [] (afterReads s.adc (sampleStart s))) = sampleWaiting s :=
      sampleLoop_read (by simpa [withScript, afterReads, sampleStart] using hlen)
    have hpulse : (sampleWaiting s).resets ≠ [] := hn ▸ List.cons_ne_nil r rest
    have hreset := takeReset_holdsResetValues hpulse
    rw [runOn_turns s.adc [] hs.atLoopHead hle
        (undisturbedTo_of_next (by exact hn) (Nat.lt_of_not_le hcut)), hwaits,
      runOn_succ (advance_read_reset (s := sampleWaiting s) 0 hr rfl rfl hpulse),
      runOn_of_stuck (advance_of_wasReset hreset)]
    exact hreset

/-- A reset by the end of a SAMPLE ends it at the reset's tick. -/
theorem exec_sample_cutAt (hs : s.readyAt) (hn : s.resets = r :: rest) (hnow : s.now < r.tick)
    (htick : 11 ≤ s.adc.length → r.tick ≤ s.now + sampleTicks s.build (s.adc.take 11)) :
    ∃ t tr, exec .sample s = .next t ∧ CutAt r.tick tr t := by
  have hexec : exec .sample s = .next (finish 0 (beginSample s)) := rfl
  have hawaits : AwaitsReset r rest (beginSample s) := ⟨hs.1, hn, hnow⟩
  have hreset : WasReset (finish 0 (beginSample s)) := by
    by_cases hlen : s.adc.length < 11
    · exact finish_beginSample_wasReset hs hlen hn hnow
    · have hcut := htick (Nat.le_of_not_lt hlen)
      obtain ⟨t, ht, hreset⟩ := exec_sample_reset hs (List.take_append_drop 11 s.adc).symm
        (List.length_take_of_le (Nat.le_of_not_lt hlen))
        (by rw [resetBy_of_next hn, decide_eq_true hcut])
      rwa [Host.Outcome.next.inj (hexec.symm.trans ht)]
  obtain ⟨tr, hcut⟩ := hawaits.finish_cutAt hreset
  exact ⟨_, tr, hexec, hcut⟩

end ResetInsideACommand

/-- Settles O19: the frame that begins past the checks is cut as `runOn_emitRise_cutAt` says. -/
theorem resetInsideAFrameCutsThePulse : Obligations.ResetInsideAFrameCutsThePulse := by
  intro s i pin angle w r rest hs hb hpins hi hf hw hn hnow htick
  obtain ⟨hr, -, -, -, hq, -⟩ := hs
  have hfits : w ≤ 20000 := by
    obtain ⟨-, hle⟩ := emitWidth_of_no_fault hf
    rw [emitWidth, ← hw] at hle
    omega
  have hW : (BitVec.ofNat 16 w).toNat = w := by
    rw [BitVec.toNat_ofNat, Nat.mod_eq_of_lt (by omega)]
  have hcut := runOn_emitRise_cutAt (pin := pin)
    (s := { s with W := BitVec.ofNat 16 w, pwOor := s.pwOor || decide (w < 535 ∨ 2350 < w) })
    (maxWaits - 2) hb ⟨hr, hn, hnow⟩ hq hpins (by rwa [hW]) htick
  rw [hW, ← beginEmit_of_no_fault hf hw] at hcut
  exact ⟨_, exec_emit hi, hcut⟩

/-- Settles O20: the reset comes in a read or a settle wait, and S and SUM are among the values it
leaves. -/
theorem resetInsideASampleDiscardsTheSum : Obligations.ResetInsideASampleDiscardsTheSum := by
  intro s r rest hs hn hnow htick
  obtain ⟨t, tr, ht, hr, hvalues, htime, -⟩ := exec_sample_cutAt hs hn hnow htick
  exact ⟨t, ht, hr, hvalues, congrArg State.S hvalues, congrArg State.sum hvalues, htime⟩

/-- Settles O57: the settle delay, or a frame, is cut. -/
theorem resetInsideAnInitCutsTheFrame : Obligations.ResetInsideAnInitCutsTheFrame := by
  intro s e r rest hs hpins hpin hn hnow
  exact ⟨exec_init_settle_cutAt hs hpins hpin hn hnow,
    fun _ hj hbegun htick => exec_init_frame_cutAt hs hpins hpin hn hj hbegun htick⟩

end Sys2Proof.Machine
